-- ==== Sys2Proof/Word.lean ====
section
/-! DEFINITION. The words of the machine: the 8-bit sample, the 12-bit command word, the 8-bit transformer code as a
sub-unit of the core sees it. -/

namespace Sys2Proof

/-- A sample, a transformer code, a stream field: an unsigned 8-bit value (00_scope.md R7, R11). -/
abbrev Byte := BitVec 8

/-- The four sub-units of the core that decode a transformer code, each into a row of its own (00_scope.md R2 (c),
30_encoding.md R91): the permutation selector, the colour predictor table, the horizontal and the vertical predictor. -/
inductive SubUnit where
  | psel
  | cpl
  | hdp
  | vdp
  deriving DecidableEq, Repr

/-- What can stand at the command port: a 12-bit command word (30_encoding.md R84), or, for running ONE row of the
opcode table alone, a transformer code addressed to one sub-unit (DESIGN CHOICE, unsafe, log 7: the spec presents a code only
inside a BLK_XFORM word). -/
inductive PortWord where
  | command (w : BitVec 12)
  | row (u : SubUnit) (code : Byte)
  deriving DecidableEq, Repr

end Sys2Proof
end

