-- ==== Sys2Proof/Config.lean ====
section
/-! DEFINITION. What an instance fixes (the parameters of 00_scope.md R8) and the free values: constants with no body,
so that nothing proved about the machine can rest on what they are. -/

namespace Sys2Proof

/-- The implementation parameters of 00_scope.md R8; `none` is "unbounded". A value of this type stands in `State`
(log 1), so that every claim is made for every instance. -/
structure Params where
  /-- `DEG_MAX`, the largest block-size exponent accepted. -/
  degMax : Option Nat
  /-- `WB_MAX`, the largest number of block columns. -/
  wbMax : Option Nat
  /-- `HB_MAX`, the largest number of block rows. -/
  hbMax : Option Nat
  /-- `DIM_W`, the width of `hdr_width` and `hdr_height`. -/
  dimW : Option Nat
  /-- `DEPTH_W`, the width of `hdr_depth`. -/
  depthW : Option Nat
  /-- `DEG_W`, the width of `hdr_degree`. -/
  degW : Option Nat
  /-- `VPRED_CHAINED`, the reading of the vertical pass (43_block_transform.md R173). -/
  vpredChained : Bool
  deriving DecidableEq, Repr

/-- The defaults of 92_eei_decisions.md's table of open parameters: unbounded, and chained. -/
def Params.default : Params where
  degMax := none
  wbMax := none
  hbMax := none
  dimW := none
  depthW := none
  degW := none
  vpredChained := true

/-- Free value: the byte a datapath sees at an element nothing has written (10_state.md R39; 93 U2, U12). Arguments: the
counter `State.freeCtr`, the space's number, the address (log 3). -/
opaque Config.unwrittenByte : Nat → Nat → Nat → Byte

/-- Free value: the index a datapath sees at an element of `PERM` nothing has written (10_state.md R39; log 3). -/
opaque Config.unwrittenIndex : Nat → Nat → Nat

/-- Free value: a derived context register after a CTX_LOAD that faulted (10_state.md R24; 93 U3; log 4). Arguments: the
counter, the register's number on the observation port. -/
opaque Config.unspecifiedReg : Nat → Nat → Nat

/-- Free value: an observation-port read to which the spec gives no value (20_memory.md R70; 93 U4; log 10). Arguments:
the counter, the space's number, the index. -/
opaque Config.unspecifiedRead : Nat → Nat → Nat → Nat

/-- Free value: the front-end's answer to its call of this number (45_host_sequencer.md R200; 93 U1; log 6). -/
opaque Config.feAnswer : Nat → Nat

end Sys2Proof
end

