-- ==== Sys2Proof/Syntax.lean ====
section
/-! DEFINITION. The instructions: one constructor per row of spec/opcode_table.json. Six command words (format CMD) and the
twenty-four rows that together give the meaning of every transformer code (format TC, 30_encoding.md R91). -/

namespace Sys2Proof

/-- One constructor per row of the opcode table. Operands of a TC row are the fields the row leaves free: `d` the
`diff_mode` (only its bit 1 for the two horizontal rows), `p` the `perm_selector`, `c` the `color_op`. -/
inductive Instr where
  /-- CTX_LOAD (40_context_validator.md R100). -/
  | ctxLoad
  /-- PERM_BUILD (41_permutation_rom.md R120). -/
  | permBuild
  /-- ESB_CLEAR (43_block_transform.md R160). -/
  | esbClear
  /-- ARR_WRITE b (43_block_transform.md R161). -/
  | arrWrite (b : Byte)
  /-- BLK_XFORM code (43_block_transform.md R162). -/
  | blkXform (code : Byte)
  /-- BLK_EMIT (44_frame_assembler.md R190). -/
  | blkEmit
  /-- XF_VERBATIM, the whole code 0x00 (43_block_transform.md R166). -/
  | xfVerbatim
  /-- CP_ID0, color_op 0: identity (42_color_predictor_lut.md R142). -/
  | cpId0 (d p : BitVec 2)
  /-- CP_ID1, color_op 1: identity (42_color_predictor_lut.md R143). -/
  | cpId1 (d p : BitVec 2)
  /-- CP_ID2, color_op 2: identity (42_color_predictor_lut.md R144). -/
  | cpId2 (d p : BitVec 2)
  /-- CP_ID3, color_op 3: identity (42_color_predictor_lut.md R145). -/
  | cpId3 (d p : BitVec 2)
  /-- CP_ID4, color_op 4: identity (42_color_predictor_lut.md R146). -/
  | cpId4 (d p : BitVec 2)
  /-- CP_1P0, color_op 5: plane1 += plane0 (42_color_predictor_lut.md R147). -/
  | cp1p0 (d p : BitVec 2)
  /-- CP_2P0, color_op 6: plane2 += plane0 (42_color_predictor_lut.md R148). -/
  | cp2p0 (d p : BitVec 2)
  /-- CP_12P0, color_op 7: plane1 += plane0; plane2 += plane0 (42_color_predictor_lut.md R149). -/
  | cp12p0 (d p : BitVec 2)
  /-- CP_ID8, color_op 8: identity (42_color_predictor_lut.md R150). -/
  | cpId8 (d p : BitVec 2)
  /-- CP_0P1, color_op 9: plane0 += plane1 (42_color_predictor_lut.md R151). -/
  | cp0p1 (d p : BitVec 2)
  /-- CP_2P1, color_op 10: plane2 += plane1 (42_color_predictor_lut.md R152). -/
  | cp2p1 (d p : BitVec 2)
  /-- CP_02P1, color_op 11: plane0 += plane1; plane2 += plane1 (42_color_predictor_lut.md R153). -/
  | cp02p1 (d p : BitVec 2)
  /-- CP_ID12, color_op 12: identity (42_color_predictor_lut.md R154). -/
  | cpId12 (d p : BitVec 2)
  /-- CP_0P2, color_op 13: plane0 += plane2 (42_color_predictor_lut.md R155). -/
  | cp0p2 (d p : BitVec 2)
  /-- CP_1P2, color_op 14: plane1 += plane2 (42_color_predictor_lut.md R156). -/
  | cp1p2 (d p : BitVec 2)
  /-- CP_01P2, color_op 15: plane0 += plane2; plane1 += plane2 (42_color_predictor_lut.md R157). -/
  | cp01p2 (d p : BitVec 2)
  /-- PS_0: scatter through segment 1 (41_permutation_rom.md R121). -/
  | ps0 (d : BitVec 2) (c : BitVec 4)
  /-- PS_1: scatter through segment 2 (41_permutation_rom.md R122). -/
  | ps1 (d : BitVec 2) (c : BitVec 4)
  /-- PS_2: scatter through segment 3 (41_permutation_rom.md R123). -/
  | ps2 (d : BitVec 2) (c : BitVec 4)
  /-- PS_3: scatter through segment 4 (41_permutation_rom.md R124). -/
  | ps3 (d : BitVec 2) (c : BitVec 4)
  /-- HD_CAPTURE, diff_mode bit 0 clear (43_block_transform.md R170). -/
  | hdCapture (d1 : BitVec 1) (p : BitVec 2) (c : BitVec 4)
  /-- HD_ACCUM, diff_mode bit 0 set (43_block_transform.md R169). -/
  | hdAccum (d1 : BitVec 1) (p : BitVec 2) (c : BitVec 4)
  /-- VD_ADD, every nonzero code (43_block_transform.md R172). -/
  | vdAdd (d p : BitVec 2) (c : BitVec 4)
  deriving DecidableEq, Repr

end Sys2Proof
end

