-- ==== Sys2Proof/WellFormed.lean ====
section
/-! DEFINITION. Which terms of `Instr` are instructions some word stands for. -/

namespace Sys2Proof

/-- A TC row other than XF_VERBATIM never applies to the whole code 0x00 ("when it matches no other TC row applies",
30_encoding.md R83, R91; 42_color_predictor_lut.md R142), so the term of such a row whose code would be 0x00 is ill-formed.
Every other term is well-formed. -/
def Instr.wf : Instr → Bool
  | .ctxLoad => true
  | .permBuild => true
  | .esbClear => true
  | .arrWrite _ => true
  | .blkXform _ => true
  | .blkEmit => true
  | .xfVerbatim => true
  | .cpId0 d p => !(d == 0 && p == 0)
  | .cpId1 _ _ => true
  | .cpId2 _ _ => true
  | .cpId3 _ _ => true
  | .cpId4 _ _ => true
  | .cp1p0 _ _ => true
  | .cp2p0 _ _ => true
  | .cp12p0 _ _ => true
  | .cpId8 _ _ => true
  | .cp0p1 _ _ => true
  | .cp2p1 _ _ => true
  | .cp02p1 _ _ => true
  | .cpId12 _ _ => true
  | .cp0p2 _ _ => true
  | .cp1p2 _ _ => true
  | .cp01p2 _ _ => true
  | .ps0 d c => !(d == 0 && c == 0)
  | .ps1 _ _ => true
  | .ps2 _ _ => true
  | .ps3 _ _ => true
  | .hdCapture d1 p c => !(d1 == 0 && p == 0 && c == 0)
  | .hdAccum _ _ _ => true
  | .vdAdd d p c => !(d == 0 && p == 0 && c == 0)

end Sys2Proof
end

