-- ==== Sys2Proof/Decode.lean ====
section
/-! DEFINITION. The two encodings of 30_encoding.md: the transformer code's fields, the command word, the row each sub-unit
reads in a code; the decoder, total, rejecting by name; the encoder, written from the same tables. -/

namespace Sys2Proof

/-- `diff_mode`, code bits 7:6 (R81). -/
def diffMode (code : Byte) : BitVec 2 := code.extractLsb' 6 2

/-- `perm_selector`, code bits 5:4 (R81). -/
def permSelector (code : Byte) : BitVec 2 := code.extractLsb' 4 2

/-- `color_op`, code bits 3:0 (R81). -/
def colorOp (code : Byte) : BitVec 4 := code.extractLsb' 0 4

/-- `diff_mode` bit 0, code bit 6: accumulate when set, capture when clear (R82). -/
def accumulates (code : Byte) : Bool := code.getLsbD 6

/-- `diff_mode` bit 1, code bit 7 (R82). -/
def diffHigh (code : Byte) : BitVec 1 := code.extractLsb' 7 1

/-- A transformer code from its three fields: `diff_mode:2 | perm_selector:2 | color_op:4` (R81). -/
def codeOf (d p : BitVec 2) (c : BitVec 4) : Byte := d ++ p ++ c

/-- The opcode of a command word, bits 11:8 (R84). -/
def opcodeOf (w : BitVec 12) : BitVec 4 := w.extractLsb' 8 4

/-- The operand of a command word, bits 7:0 (R84). -/
def operandOf (w : BitVec 12) : Byte := w.extractLsb' 0 8

/-- A command word from opcode and operand (R84). -/
def commandOf (op : BitVec 4) (b : Byte) : BitVec 12 := op ++ b

/-- Why a command word is no instruction (30_encoding.md R88): both causes are the spec's fault `IllegalCommand`, taken by
`Machine.takeIllegalCommand`. -/
inductive Reject where
  /-- Opcode `0b0000` or `0b0111` to `0b1111`. -/
  | reservedOpcode (op : BitVec 4)
  /-- A nonzero operand on CTX_LOAD, PERM_BUILD, ESB_CLEAR or BLK_EMIT. -/
  | nonzeroOperand (op : BitVec 4)
  deriving DecidableEq, Repr

/-- An operandless command: its operand must be 0x00 (R84, R88). -/
def decodeBare (i : Instr) (w : BitVec 12) : Except Reject Instr :=
  if operandOf w = 0 then .ok i else .error (.nonzeroOperand (opcodeOf w))

/-- The command decoder (R84, R88). -/
def decodeCommand (w : BitVec 12) : Except Reject Instr :=
  match (opcodeOf w).toNat with
  | 1 => decodeBare .ctxLoad w
  | 2 => decodeBare .permBuild w
  | 3 => decodeBare .esbClear w
  | 4 => .ok (.arrWrite (operandOf w))
  | 5 => .ok (.blkXform (operandOf w))
  | 6 => decodeBare .blkEmit w
  | _ => .error (.reservedOpcode (opcodeOf w))

/-- The row of the colour predictor table a nonzero code selects (R82, R91). -/
def decodeColor (code : Byte) : Instr :=
  match (colorOp code).toNat with
  | 0 => .cpId0 (diffMode code) (permSelector code)
  | 1 => .cpId1 (diffMode code) (permSelector code)
  | 2 => .cpId2 (diffMode code) (permSelector code)
  | 3 => .cpId3 (diffMode code) (permSelector code)
  | 4 => .cpId4 (diffMode code) (permSelector code)
  | 5 => .cp1p0 (diffMode code) (permSelector code)
  | 6 => .cp2p0 (diffMode code) (permSelector code)
  | 7 => .cp12p0 (diffMode code) (permSelector code)
  | 8 => .cpId8 (diffMode code) (permSelector code)
  | 9 => .cp0p1 (diffMode code) (permSelector code)
  | 10 => .cp2p1 (diffMode code) (permSelector code)
  | 11 => .cp02p1 (diffMode code) (permSelector code)
  | 12 => .cpId12 (diffMode code) (permSelector code)
  | 13 => .cp0p2 (diffMode code) (permSelector code)
  | 14 => .cp1p2 (diffMode code) (permSelector code)
  | _ => .cp01p2 (diffMode code) (permSelector code)

/-- The scatter row a nonzero code selects (R82, R91). -/
def decodeSelector (code : Byte) : Instr :=
  match (permSelector code).toNat with
  | 0 => .ps0 (diffMode code) (colorOp code)
  | 1 => .ps1 (diffMode code) (colorOp code)
  | 2 => .ps2 (diffMode code) (colorOp code)
  | _ => .ps3 (diffMode code) (colorOp code)

/-- The horizontal row a nonzero code selects (R82, R91). -/
def decodeHorizontal (code : Byte) : Instr :=
  if accumulates code then .hdAccum (diffHigh code) (permSelector code) (colorOp code)
  else .hdCapture (diffHigh code) (permSelector code) (colorOp code)

/-- The row a sub-unit reads in a transformer code: XF_VERBATIM for the whole code 0x00 whatever the sub-unit (R83), else the
sub-unit's own row (R91). -/
def decodeRow (u : SubUnit) (code : Byte) : Instr :=
  if code = 0 then .xfVerbatim
  else match u with
    | .psel => decodeSelector code
    | .cpl => decodeColor code
    | .hdp => decodeHorizontal code
    | .vdp => .vdAdd (diffMode code) (permSelector code) (colorOp code)

/-- The rows BLK_XFORM performs for a code, in order (R91). -/
def rowsOf (code : Byte) : List Instr :=
  if code = 0 then [.xfVerbatim]
  else [decodeRow .psel code, decodeRow .cpl code, decodeRow .hdp code, decodeRow .vdp code]

/-- The decoder: total on whatever stands at the port. -/
def decode : PortWord → Except Reject Instr
  | .command w => decodeCommand w
  | .row u code => .ok (decodeRow u code)

/-- The sub-unit that reads a code presented WITHOUT a sub-unit, as the opcode table's 8-bit rows are: the one whose field is the
first nonzero of color_op, perm_selector, diff_mode bit 0, else the vertical predictor (DESIGN CHOICE, log 7: a code matches a row
of each sub-unit, R91, and no order among them is the spec's). -/
def leadUnit (code : Byte) : SubUnit :=
  if colorOp code ≠ 0 then .cpl
  else if permSelector code ≠ 0 then .psel
  else if accumulates code then .hdp
  else .vdp

/-- The port word that a row of the opcode table stands for: `nbits = 8` is a transformer code, 12 bits (16 in whole bytes) a
command word whose unused high bits are 0. -/
def tableWord (nbits w : Nat) : Option PortWord :=
  if nbits = 8 then
    if w < 256 then some (.row (leadUnit (BitVec.ofNat 8 w)) (BitVec.ofNat 8 w)) else none
  else if nbits = 12 ∨ nbits = 16 then
    if w < 4096 then some (.command (BitVec.ofNat 12 w)) else none
  else none

/-- The instruction the decoder reads from a word of the opcode table. -/
def decodeTableWord (nbits w : Nat) : Option Instr :=
  match tableWord nbits w with
  | none => none
  | some it =>
    match decode it with
    | .ok i => some i
    | .error _ => none

/-- The encoder (R81, R84): the port word an instruction stands for, written from the same tables. -/
def encode : Instr → PortWord
  | .ctxLoad => .command (commandOf 1 0)
  | .permBuild => .command (commandOf 2 0)
  | .esbClear => .command (commandOf 3 0)
  | .arrWrite b => .command (commandOf 4 b)
  | .blkXform code => .command (commandOf 5 code)
  | .blkEmit => .command (commandOf 6 0)
  | .xfVerbatim => .row .psel 0
  | .cpId0 d p => .row .cpl (codeOf d p 0)
  | .cpId1 d p => .row .cpl (codeOf d p 1)
  | .cpId2 d p => .row .cpl (codeOf d p 2)
  | .cpId3 d p => .row .cpl (codeOf d p 3)
  | .cpId4 d p => .row .cpl (codeOf d p 4)
  | .cp1p0 d p => .row .cpl (codeOf d p 5)
  | .cp2p0 d p => .row .cpl (codeOf d p 6)
  | .cp12p0 d p => .row .cpl (codeOf d p 7)
  | .cpId8 d p => .row .cpl (codeOf d p 8)
  | .cp0p1 d p => .row .cpl (codeOf d p 9)
  | .cp2p1 d p => .row .cpl (codeOf d p 10)
  | .cp02p1 d p => .row .cpl (codeOf d p 11)
  | .cpId12 d p => .row .cpl (codeOf d p 12)
  | .cp0p2 d p => .row .cpl (codeOf d p 13)
  | .cp1p2 d p => .row .cpl (codeOf d p 14)
  | .cp01p2 d p => .row .cpl (codeOf d p 15)
  | .ps0 d c => .row .psel (codeOf d 0 c)
  | .ps1 d c => .row .psel (codeOf d 1 c)
  | .ps2 d c => .row .psel (codeOf d 2 c)
  | .ps3 d c => .row .psel (codeOf d 3 c)
  | .hdCapture d1 p c => .row .hdp (codeOf (d1 ++ 0#1) p c)
  | .hdAccum d1 p c => .row .hdp (codeOf (d1 ++ 1#1) p c)
  | .vdAdd d p c => .row .vdp (codeOf d p c)

end Sys2Proof
end

