-- ==== Sys2Proof/Machine/State.lean ====
section
/-! DEFINITION. The state of the machine as plain data: everything 10_state.md gives the BTE, what stands on its ports, the
host sequencer's variables, and the model's own two bookkeeping fields. The state after reset. -/

namespace Sys2Proof.Machine

/-- Why a step stops. The spec's own faults are no stops: they are recorded in STATUS, ERR and ERR_INFO and the machine goes on
(60_exceptions.md R240). These two are stuck states. -/
inductive Fault where
  /-- Raised by `step` when a CTX_LOAD whose front-end read was never answered is in progress and the reset pin is not asserted:
  "the command never ends and no further command is accepted" (60_exceptions.md R244). Safe: nothing is claimed past it (log 9). -/
  | stuckInCtxLoad
  /-- Raised by `step` when the host sequencer's own front-end call is never answered ("All entropy reads block the calling
  thread", 60_exceptions.md R244). Safe (log 9). -/
  | hostBlocked
  deriving DecidableEq, Repr

/-- Why an instruction has no meaning. -/
inductive Refusal where
  /-- The instruction is not modelled yet; raised by `exec` only, and by no arm of it now. Safe. -/
  | notModelled (mnemonic : String)
  deriving DecidableEq, Repr

/-- The outcome of a step of this machine. -/
abbrev Outcome (σ : Type) := Host.Outcome σ Fault Refusal

/-- The spec's fault kinds (60_exceptions.md R230). -/
inductive FaultKind where
  | corruptData
  | unsupportedBitDepth
  | unsupportedVersion
  | notSupported
  | illegalCode
  | sequenceFault
  | illegalCommand
  | resourceLimit
  deriving DecidableEq, Repr

/-- STATUS, its seven flags (10_state.md R26); bit 7 reads 0 and is stored nowhere. The byte is `Status.word`. -/
structure Status where
  ctxValid : Bool
  permValid : Bool
  esbValid : Bool
  arrFull : Bool
  boutValid : Bool
  done : Bool
  fault : Bool
  deriving DecidableEq, Repr

/-- The header port (10_state.md R21). -/
structure Header where
  fmtFamily : BitVec 2
  fmtAlpha : BitVec 1
  depth : Nat
  width : Nat
  height : Nat
  degree : Nat
  deriving DecidableEq, Repr

/-- The context registers `CTX.*` (10_state.md R22, R23, R24). -/
structure Context where
  version : Byte
  opTable : Byte
  encodeType : Byte
  bitCount : Byte
  fmtFamily : BitVec 2
  fmtAlpha : BitVec 1
  depth : Nat
  width : Nat
  height : Nat
  degree : Nat
  /-- `C` -/
  channels : Nat
  /-- `S` -/
  blockSize : Nat
  /-- `A` -/
  blockArea : Nat
  /-- `N` -/
  blockSamples : Nat
  /-- `T` -/
  blockStride : Nat
  /-- `WB` -/
  widthBlocks : Nat
  /-- `HB` -/
  heightBlocks : Nat
  deriving DecidableEq, Repr

/-- A buffer of bytes: the elements something has written, by address, rising (20_memory.md R60). -/
abbrev ByteMemory := List Host.Cell

/-- The buffer `PERM`, whose elements are indices (10_state.md R30). -/
abbrev IndexMemory := List (Nat × Nat)

/-- The entropy front-end as an oracle (45_host_sequencer.md R200; log 6). `script` holds known answers still to come, `none` a
read that is never answered; past its end call number `calls` gets a free value. `rawBits` counts the raw bits consumed,
`resets` the resets requested. -/
structure FrontEnd where
  script : List (Option Nat)
  calls : Nat
  rawBits : Nat
  resets : Nat
  deriving DecidableEq, Repr

/-- The entropy-architecture selector, the host's alone (45_host_sequencer.md R201). -/
inductive Arch where
  | gamma
  | huffman
  | other
  deriving DecidableEq, Repr

/-- One decode call the host is asked for: the header it drives onto the port, and the architecture (45_host_sequencer.md R210). -/
structure Job where
  hdr : Header
  arch : Arch
  deriving DecidableEq, Repr

/-- Where the host program `Decode` stands (45_host_sequencer.md R210, R211). -/
inductive Phase where
  | idle
  | loaded
  | built
  | cleared
  | sync
  | block
  | decode
  | write
  | transform
  | emit
  | crop
  | finished
  | failed
  deriving DecidableEq, Repr

/-- A failure of a decode call as the host reports it: a number and a detail in the numbering of 60_exceptions.md R230. -/
structure Failure where
  number : BitVec 4
  info : Byte
  deriving DecidableEq, Repr

/-- The host sequencer's variables (45_host_sequencer.md R203 to R215). -/
structure Sequencer where
  jobs : List Job
  phase : Phase
  arch : Arch
  /-- Blocks handed to the BTE so far in this decode call: the host's loop variables `(bx, by)` in row-major order. -/
  block : Nat
  /-- The bulk prefetch buffer of transformer codes (R208). -/
  codes : List Byte
  /-- The transformer code of the current block (R211). -/
  code : Byte
  /-- The bytes decoded for the current block (R211). -/
  buf : List Byte
  failure : Option Failure
  /-- `OUT`, the cropper's output (R214, R215). -/
  out : List Byte
  deriving DecidableEq, Repr

/-- The state of the machine. -/
structure State where
  /-- The instance's parameters (00_scope.md R8); constant. -/
  cfg : Params
  status : Status
  err : BitVec 4
  errInfo : Byte
  ctx : Context
  /-- `BX` -/
  blkX : Nat
  /-- `BY` -/
  blkY : Nat
  arrp : Nat
  perm : IndexMemory
  arr : ByteMemory
  bout : ByteMemory
  pcol : ByteMemory
  prow : ByteMemory
  canvas : ByteMemory
  /-- What the header port carries (10_state.md R21). -/
  hdr : Header
  fe : FrontEnd
  /-- The words at the command port, the next one first (10_state.md R38 (d)). -/
  port : List PortWord
  /-- The reset pin (10_state.md R38 (a)). -/
  rst : Bool
  /-- The model's own: a CTX_LOAD that waits for ever is in progress (60_exceptions.md R244; log 9). -/
  stuck : Bool
  /-- The model's own: the counter that names free values (log 4). -/
  freeCtr : Nat
  seq : Sequencer
  deriving DecidableEq, Repr

/-- `status` replaced, every other field kept. -/
def State.setStatus (s : State) (v : Status) : State := { s with status := v }

/-- `err` replaced, every other field kept. -/
def State.setErr (s : State) (v : BitVec 4) : State := { s with err := v }

/-- `errInfo` replaced, every other field kept. -/
def State.setErrInfo (s : State) (v : Byte) : State := { s with errInfo := v }

/-- `ctx` replaced, every other field kept. -/
def State.setCtx (s : State) (v : Context) : State := { s with ctx := v }

/-- `blkX` replaced, every other field kept. -/
def State.setBlkX (s : State) (v : Nat) : State := { s with blkX := v }

/-- `blkY` replaced, every other field kept. -/
def State.setBlkY (s : State) (v : Nat) : State := { s with blkY := v }

/-- `arrp` replaced, every other field kept. -/
def State.setArrp (s : State) (v : Nat) : State := { s with arrp := v }

/-- `perm` replaced, every other field kept. -/
def State.setPerm (s : State) (v : IndexMemory) : State := { s with perm := v }

/-- `arr` replaced, every other field kept. -/
def State.setArr (s : State) (v : ByteMemory) : State := { s with arr := v }

/-- `bout` replaced, every other field kept. -/
def State.setBout (s : State) (v : ByteMemory) : State := { s with bout := v }

/-- `pcol` replaced, every other field kept. -/
def State.setPcol (s : State) (v : ByteMemory) : State := { s with pcol := v }

/-- `prow` replaced, every other field kept. -/
def State.setProw (s : State) (v : ByteMemory) : State := { s with prow := v }

/-- `canvas` replaced, every other field kept. -/
def State.setCanvas (s : State) (v : ByteMemory) : State := { s with canvas := v }

/-- `hdr` replaced, every other field kept. -/
def State.setHdr (s : State) (v : Header) : State := { s with hdr := v }

/-- `fe` replaced, every other field kept. -/
def State.setFe (s : State) (v : FrontEnd) : State := { s with fe := v }

/-- `port` replaced, every other field kept. -/
def State.setPort (s : State) (v : List PortWord) : State := { s with port := v }

/-- `rst` replaced, every other field kept. -/
def State.setRst (s : State) (v : Bool) : State := { s with rst := v }

/-- `stuck` replaced, every other field kept. -/
def State.setStuck (s : State) (v : Bool) : State := { s with stuck := v }

/-- `freeCtr` replaced, every other field kept. -/
def State.setFreeCtr (s : State) (v : Nat) : State := { s with freeCtr := v }

/-- `seq` replaced, every other field kept. -/
def State.setSeq (s : State) (v : Sequencer) : State := { s with seq := v }

/-- STATUS after reset: 0x00 (10_state.md R39). -/
def Status.reset : Status where
  ctxValid := false
  permValid := false
  esbValid := false
  arrFull := false
  boutValid := false
  done := false
  fault := false

/-- The header port before anything drives it (DESIGN CHOICE, log 5: an input). -/
def Header.reset : Header where
  fmtFamily := 0
  fmtAlpha := 0
  depth := 0
  width := 0
  height := 0
  degree := 0

/-- The context registers after reset (DESIGN CHOICE, unsafe, log 2: R39 gives no value). -/
def Context.reset : Context where
  version := 0
  opTable := 0
  encodeType := 0
  bitCount := 0
  fmtFamily := 0
  fmtAlpha := 0
  depth := 0
  width := 0
  height := 0
  degree := 0
  channels := 0
  blockSize := 0
  blockArea := 0
  blockSamples := 0
  blockStride := 0
  widthBlocks := 0
  heightBlocks := 0

/-- The front-end before its first call: no answer scripted (log 6). -/
def FrontEnd.reset : FrontEnd where
  script := []
  calls := 0
  rawBits := 0
  resets := 0

/-- The host before its first decode call (DESIGN CHOICE, log 8). -/
def Sequencer.reset : Sequencer where
  jobs := []
  phase := .idle
  arch := .gamma
  block := 0
  codes := []
  code := 0
  buf := []
  failure := none
  out := []

/-- The machine right after reset (10_state.md R39, 70_reset_and_hazards.md R260): flags, error registers, block counter and
arrange pointer 0, no buffer element written; the registers R39 leaves unspecified hold the values of log 2. -/
def State.reset : State where
  cfg := Params.default
  status := Status.reset
  err := 0
  errInfo := 0
  ctx := Context.reset
  blkX := 0
  blkY := 0
  arrp := 0
  perm := []
  arr := []
  bout := []
  pcol := []
  prow := []
  canvas := []
  hdr := Header.reset
  fe := FrontEnd.reset
  port := []
  rst := false
  stuck := false
  freeCtr := 0
  seq := Sequencer.reset

end Sys2Proof.Machine
end

