-- ==== Sys2Proof/Machine/Ops.lean ====
section
/-! DEFINITION. The shared operations: sample addition, counted loops, the buffers, the front-end's calls, taking a fault and
leaving the faulted state, the gate every command passes. -/

namespace Sys2Proof.Machine

/-- `a +8 b`: addition of two samples modulo 256 (00_scope.md R11). -/
def add8 (a b : Byte) : Byte := a + b

/-- `for i in 0 .. n-1: x <- body i x`, in ascending order of `i` (00_scope.md R13). -/
def forUp {α : Type} : Nat → (Nat → α → α) → α → α
  | 0, _, x => x
  | n + 1, body, x => body n (forUp n body x)

/-- The element at an address, if something has written it (10_state.md R39: an unwritten element holds no value; log 3). -/
def Memory.read {α : Type} : List (Nat × α) → Nat → Option α
  | [], _ => none
  | (b, w) :: m, a => if b = a then some w else Memory.read m a

/-- One element written, addresses kept rising (20_memory.md R64: a plain store of one element). -/
def Memory.write {α : Type} : List (Nat × α) → Nat → α → List (Nat × α)
  | [], a, v => [(a, v)]
  | (b, w) :: m, a, v =>
    if a < b then (a, v) :: (b, w) :: m
    else if a = b then (a, v) :: m
    else (b, w) :: Memory.write m a v

/-- The canonical form of a buffer: addresses strictly rising. An unlisted address reads as `none` and a listed one never does,
so no entry equals what an unlisted address reads as. -/
abbrev Memory.wf {α : Type} (m : List (Nat × α)) : Prop := m.Pairwise (fun x y => x.1 < y.1)

/-- The address spaces (20_memory.md R60). -/
inductive Space where
  | reg
  | perm
  | arr
  | bout
  | pcol
  | prow
  | canvas
  deriving DecidableEq, Repr

/-- The space's number on the observation port (20_memory.md R60). -/
def Space.number : Space → Nat
  | .reg => 0
  | .perm => 1
  | .arr => 2
  | .bout => 3
  | .pcol => 4
  | .prow => 5
  | .canvas => 6

/-- `MemRead` of a byte space: the byte written there, else the free value of log 3. -/
def byteAt (k : Nat) (sp : Space) (m : ByteMemory) (a : Nat) : Byte :=
  (Memory.read m a).getD (Config.unwrittenByte k sp.number a)

/-- `MemRead(PERM, a)`. -/
def State.permAt (s : State) (a : Nat) : Nat := (Memory.read s.perm a).getD (Config.unwrittenIndex s.freeCtr a)

/-- `MemRead(ARR, a)`. -/
def State.arrAt (s : State) (a : Nat) : Byte := byteAt s.freeCtr .arr s.arr a

/-- `MemRead(BOUT, a)` when the buffer holds `m`. -/
def State.boutIn (s : State) (m : ByteMemory) (a : Nat) : Byte := byteAt s.freeCtr .bout m a

/-- `MemRead(PCOL, a)` when the buffer holds `m`. -/
def State.pcolIn (s : State) (m : ByteMemory) (a : Nat) : Byte := byteAt s.freeCtr .pcol m a

/-- `MemRead(PROW, a)` when the buffer holds `m`. -/
def State.prowIn (s : State) (m : ByteMemory) (a : Nat) : Byte := byteAt s.freeCtr .prow m a

/-- The fault's number in `ERR` (60_exceptions.md R230). -/
def FaultKind.number : FaultKind → BitVec 4
  | .corruptData => 1
  | .unsupportedBitDepth => 2
  | .unsupportedVersion => 3
  | .notSupported => 4
  | .illegalCode => 5
  | .sequenceFault => 6
  | .illegalCommand => 7
  | .resourceLimit => 8

/-- Fault entry, `raise Kind(info)` (60_exceptions.md R240): the first fault of a decode call is recorded, nothing else changes. -/
def takeFault (kind : FaultKind) (info : Byte) (s : State) : State :=
  if s.status.fault then s
  else ((s.setErr kind.number).setErrInfo info).setStatus { s.status with fault := true }

/-- The way out of the faulted state that is a command (60_exceptions.md R242): the first line of CTX_LOAD's pseudocode,
40_context_validator.md R100. -/
def beginCall (s : State) : State :=
  (((((s.setStatus Status.reset).setErr 0).setErrInfo 0).setArrp 0).setBlkX 0).setBlkY 0

/-- The reset pin (70_reset_and_hazards.md R260): the BTE's state becomes that of reset, from any state; what the outside drives
stays. Registers R260 leaves unspecified take the named reset values (log 2), unwritten elements fresh free values (log 4). -/
def applyReset (s : State) : State :=
  { s with
    status := Status.reset
    err := 0
    errInfo := 0
    ctx := Context.reset
    blkX := 0
    blkY := 0
    arrp := 0
    perm := []
    arr := []
    bout := []
    pcol := []
    prow := []
    canvas := []
    rst := false
    stuck := false
    freeCtr := s.freeCtr + 1 }

/-- A command word the decoder rejects (60_exceptions.md R237): `IllegalCommand`, its detail the opcode, with bit 7 set when the
cause is a nonzero operand (R230); ignored in the faulted state (R241). -/
def takeIllegalCommand (r : Reject) (s : State) : State :=
  match r with
  | .reservedOpcode op => takeFault .illegalCommand (op.setWidth 8) s
  | .nonzeroOperand op => takeFault .illegalCommand (0x80#8 ||| op.setWidth 8) s

/-- The gate of every command but CTX_LOAD (60_exceptions.md R239, R241, R236): ignored in the faulted state, `SequenceFault` with
the opcode when its precondition on STATUS does not hold, else its effect. -/
def runCommand (opcode : BitVec 4) (ready : Bool) (effect : State) (s : State) : Outcome State :=
  if s.status.fault then .next s
  else if ready then .next effect
  else .next (takeFault .sequenceFault (opcode.setWidth 8) s)

/-- One call of the front-end: the scripted answer, or past the script's end the free value of this call; `none` is a call that is
never answered (45_host_sequencer.md R200; 60_exceptions.md R244, R245; log 6). -/
def FrontEnd.call (fe : FrontEnd) : Option Nat × FrontEnd :=
  match fe.script with
  | [] => (some (Config.feAnswer fe.calls), { fe with calls := fe.calls + 1 })
  | a :: rest => (a, { fe with script := rest, calls := fe.calls + 1 })

/-- `FeReadBits(n)`: some value in `[0, 2^n)` (45_host_sequencer.md R200). -/
def FrontEnd.readBits (n : Nat) (fe : FrontEnd) : Option Nat × FrontEnd :=
  match fe.call with
  | (none, f) => (none, f)
  | (some v, f) => (some (v % 2 ^ n), { f with rawBits := f.rawBits + n })

/-- `FeSymbol()`, and one byte of `FeDecode`: some byte (45_host_sequencer.md R200). -/
def FrontEnd.symbol (fe : FrontEnd) : Option Byte × FrontEnd :=
  match fe.call with
  | (none, f) => (none, f)
  | (some v, f) => (some (BitVec.ofNat 8 v), f)

/-- `FeDecode(len)`: some sequence of `len` bytes (45_host_sequencer.md R200). -/
def FrontEnd.decode : Nat → FrontEnd → Option (List Byte) × FrontEnd
  | 0, fe => (some [], fe)
  | n + 1, fe =>
    match fe.symbol with
    | (none, f) => (none, f)
    | (some b, f) =>
      match FrontEnd.decode n f with
      | (none, g) => (none, g)
      | (some bs, g) => (some (b :: bs), g)

/-- `FeReset()` (45_host_sequencer.md R200). -/
def FrontEnd.resync (fe : FrontEnd) : FrontEnd := { fe with calls := fe.calls + 1, resets := fe.resets + 1 }

end Sys2Proof.Machine
end

