-- ==== Sys2Proof/Machine/Operands.lean ====
section
/-! DEFINITION. Operand forms: which transformer codes are legal, the effective addresses of the buffers, the header port as
sampled. -/

namespace Sys2Proof.Machine

/-- The seven identity values of `color_op` (30_encoding.md R89; 42_color_predictor_lut.md R142). -/
def identityColor (c : BitVec 4) : Bool :=
  c == 0 || c == 1 || c == 2 || c == 3 || c == 4 || c == 8 || c == 12

/-- A transformer code is legal: three planes or an identity colour op (43_block_transform.md R163). -/
def legalCode (channels : Nat) (code : Byte) : Bool :=
  decide (3 ≤ channels) || identityColor (colorOp code)

/-- Sample `(c, y, x)` of the planar block: `c*A + y*S + x` (00_scope.md R12). -/
def planarAddr (g : Context) (c y x : Nat) : Nat := c * g.blockArea + y * g.blockSize + x

/-- Sample `x` of logical row `r`: `r*S + x` (00_scope.md R12). -/
def rowAddr (g : Context) (r x : Nat) : Nat := r * g.blockSize + x

/-- Entry `i` of segment `p` of the permutation table: `p*N + i` (20_memory.md R60). -/
def permAddr (g : Context) (p i : Nat) : Nat := p * g.blockSamples + i

/-- Column state of logical row `r` of the block at block row `by`: `BY*T + r` (20_memory.md R65). -/
def pcolAddr (g : Context) (blkY r : Nat) : Nat := blkY * g.blockStride + r

/-- Row state of channel `c`, column `x` of the block at block column `bx`: `BX*T + c*S + x` (20_memory.md R65). -/
def prowAddr (g : Context) (blkX c x : Nat) : Nat := blkX * g.blockStride + c * g.blockSize + x

/-- Canvas width in pixels, `CW = WB*S` (20_memory.md R66). -/
def canvasWidth (g : Context) : Nat := g.widthBlocks * g.blockSize

/-- Byte `c` of the canvas pixel at row `py`, column `px`: `(py*CW + px)*C + c` (20_memory.md R66). -/
def canvasAddr (g : Context) (py px c : Nat) : Nat := (py * canvasWidth g + px) * g.channels + c

/-- Where sample `(c, y, x)` of the block at `(bx, by)` goes (20_memory.md R66, 44_frame_assembler.md R190). -/
def emitAddr (g : Context) (blkX blkY c y x : Nat) : Nat :=
  canvasAddr g (blkY * g.blockSize + y) (blkX * g.blockSize + x) c

/-- A port of `w` wires carries a value below `2^w` (00_scope.md R8); `none` is unbounded. -/
def onWires (w : Option Nat) (v : Nat) : Nat :=
  match w with
  | none => v
  | some k => v % 2 ^ k

/-- `HdrSample()` (10_state.md R21). -/
def sampleHeader (cfg : Params) (h : Header) : Header :=
  { h with
    depth := onWires cfg.depthW h.depth
    width := onWires cfg.dimW h.width
    height := onWires cfg.dimW h.height
    degree := onWires cfg.degW h.degree }

/-- A capacity parameter admits a value (00_scope.md R8). -/
def within (limit : Option Nat) (v : Nat) : Bool :=
  match limit with
  | none => true
  | some m => decide (v ≤ m)

end Sys2Proof.Machine
end

