-- ==== Sys2Proof/Machine/Flags.lean ====
section
/-! DEFINITION. STATUS: the byte it reads as, the precondition of each command, and what each command does to the flags. -/

namespace Sys2Proof.Machine

/-- The byte STATUS reads as; bit 7 is 0 (10_state.md R26). -/
def Status.word (f : Status) : Byte :=
  0#1 ++ BitVec.ofBool f.fault ++ BitVec.ofBool f.done ++ BitVec.ofBool f.boutValid ++ BitVec.ofBool f.arrFull
    ++ BitVec.ofBool f.esbValid ++ BitVec.ofBool f.permValid ++ BitVec.ofBool f.ctxValid

/-- PERM_BUILD requires CTX_VALID (60_exceptions.md R236). -/
def Status.readyPermBuild (f : Status) : Bool := f.ctxValid

/-- ESB_CLEAR requires CTX_VALID and not ESB_VALID (60_exceptions.md R236). -/
def Status.readyEsbClear (f : Status) : Bool := f.ctxValid && !f.esbValid

/-- ARR_WRITE requires CTX_VALID, not ARR_FULL, not BOUT_VALID, not DONE (60_exceptions.md R236). -/
def Status.readyArrWrite (f : Status) : Bool := f.ctxValid && !f.arrFull && !f.boutValid && !f.done

/-- BLK_XFORM requires CTX_VALID, PERM_VALID, ESB_VALID, ARR_FULL, not BOUT_VALID, not DONE (60_exceptions.md R236). -/
def Status.readyBlkXform (f : Status) : Bool :=
  f.ctxValid && f.permValid && f.esbValid && f.arrFull && !f.boutValid && !f.done

/-- BLK_EMIT requires BOUT_VALID (60_exceptions.md R236). -/
def Status.readyBlkEmit (f : Status) : Bool := f.boutValid

/-- STATUS after a CTX_LOAD that succeeded: CTX_VALID, and DONE when the grid is empty (40_context_validator.md R111). -/
def Status.afterLoad (emptyGrid : Bool) : Status := { Status.reset with ctxValid := true, done := emptyGrid }

/-- PERM_BUILD sets PERM_VALID (41_permutation_rom.md R120). -/
def Status.afterBuild (f : Status) : Status := { f with permValid := true }

/-- ESB_CLEAR sets ESB_VALID (43_block_transform.md R160). -/
def Status.afterClear (f : Status) : Status := { f with esbValid := true }

/-- ARR_WRITE sets ARR_FULL with the last byte (43_block_transform.md R161). -/
def Status.afterWrite (f : Status) (last : Bool) : Status := { f with arrFull := f.arrFull || last }

/-- BLK_XFORM clears ARR_FULL and sets BOUT_VALID (43_block_transform.md R176). -/
def Status.afterTransform (f : Status) : Status := { f with arrFull := false, boutValid := true }

/-- BLK_EMIT clears BOUT_VALID and sets DONE after the last block (44_frame_assembler.md R190, R192). -/
def Status.afterEmit (f : Status) (last : Bool) : Status := { f with boutValid := false, done := f.done || last }

end Sys2Proof.Machine
end

