-- ==== Sys2Proof/Machine/Permutation.lean ====
section
/-! DEFINITION. permutation_rom: PERM_BUILD and the four segments (41_permutation_rom.md); the permutation selector: the scatter
of a block through a segment (43_block_transform.md R165), rows PS_0 to PS_3. -/

namespace Sys2Proof.Machine

/-- `PERM[k] <- v ; k <- k + 1` (41_permutation_rom.md R120). -/
def pushIndex (v : Nat) (acc : IndexMemory × Nat) : IndexMemory × Nat := (Memory.write acc.1 acc.2 v, acc.2 + 1)

/-- Loop nest of segments 1 and 2: channel outermost, row, column innermost (R121, R122). -/
def channelMajor (g : Context) (index : Nat → Nat → Nat → Nat) (acc : IndexMemory × Nat) : IndexMemory × Nat :=
  forUp g.channels (fun c => forUp g.blockSize fun y => forUp g.blockSize fun x => pushIndex (index c y x)) acc

/-- Loop nest of segments 3 and 4: row outermost, column, channel innermost (R123, R124). -/
def pixelMajor (g : Context) (index : Nat → Nat → Nat → Nat) (acc : IndexMemory × Nat) : IndexMemory × Nat :=
  forUp g.blockSize (fun y => forUp g.blockSize fun x => forUp g.channels fun c => pushIndex (index c y x)) acc

/-- `c*A + y*S + x` (R121, R123). -/
def plainIndex (g : Context) (c y x : Nat) : Nat := c * g.blockArea + y * g.blockSize + x

/-- `c*A + y + x*S` (R122, R124). -/
def transposedIndex (g : Context) (c y x : Nat) : Nat := c * g.blockArea + y + x * g.blockSize

/-- The table PERM_BUILD writes: four segments one after another (R120). -/
def buildPerm (g : Context) (perm : IndexMemory) : IndexMemory :=
  (pixelMajor g (transposedIndex g) (pixelMajor g (plainIndex g)
    (channelMajor g (transposedIndex g) (channelMajor g (plainIndex g) (perm, 0))))).1

/-- PERM_BUILD's effect (R120). -/
def permBuilt (s : State) : State := (s.setPerm (buildPerm s.ctx s.perm)).setStatus s.status.afterBuild

/-- PERM_BUILD (R120). -/
def execPermBuild (s : State) : Outcome State :=
  runCommand 2 s.status.readyPermBuild (permBuilt s) s

/-- The scatter: `for i in 0 .. N-1: BOUT[PERM[p*N + i]] <- ARR[i]` (43_block_transform.md R165). -/
def scatter (p : Nat) (s : State) : State :=
  s.setBout (forUp s.ctx.blockSamples (fun i m => Memory.write m (s.permAt (permAddr s.ctx p i)) (s.arrAt i)) s.bout)

/-- A row of the opcode table run alone: the part of BLK_XFORM `code` that one sub-unit does (30_encoding.md R91). Ignored in the
faulted state (60_exceptions.md R241); a code that is not legal takes `IllegalCode` before any write (43_block_transform.md R163;
42_color_predictor_lut.md R158). The other preconditions of BLK_XFORM are not asked of a row (DESIGN CHOICE, log 7). -/
def runRow (code : Byte) (effect : State) (s : State) : Outcome State :=
  if s.status.fault then .next s
  else if legalCode s.ctx.channels code then .next effect
  else .next (takeFault .illegalCode code s)

/-- PS_0: scatter through segment 1 (R121). -/
def execPs0 (d : BitVec 2) (c : BitVec 4) (s : State) : Outcome State := runRow (codeOf d 0 c) (scatter 0 s) s

/-- PS_1: scatter through segment 2 (R122). -/
def execPs1 (d : BitVec 2) (c : BitVec 4) (s : State) : Outcome State := runRow (codeOf d 1 c) (scatter 1 s) s

/-- PS_2: scatter through segment 3 (R123). -/
def execPs2 (d : BitVec 2) (c : BitVec 4) (s : State) : Outcome State := runRow (codeOf d 2 c) (scatter 2 s) s

/-- PS_3: scatter through segment 4 (R124). -/
def execPs3 (d : BitVec 2) (c : BitVec 4) (s : State) : Outcome State := runRow (codeOf d 3 c) (scatter 3 s) s

end Sys2Proof.Machine
end

