-- ==== Sys2Proof/Machine/Color.lean ====
section
/-! DEFINITION. color_predictor_lut: the sixteen colour ops (42_color_predictor_lut.md). -/

namespace Sys2Proof.Machine

/-- `plane_k[i]` is `BOUT[k*A + i]` (00_scope.md R12). -/
def planeAddr (g : Context) (k i : Nat) : Nat := k * g.blockArea + i

/-- `for i in 0 .. A-1: BOUT[t*A + i] <- BOUT[t*A + i] +8 BOUT[b*A + i]` (R140). -/
def addPlane (target base : Nat) (s : State) : State :=
  s.setBout (forUp s.ctx.blockArea (fun i m =>
    Memory.write m (planeAddr s.ctx target i)
      (add8 (s.boutIn m (planeAddr s.ctx target i)) (s.boutIn m (planeAddr s.ctx base i)))) s.bout)

/-- The dual-target form: the base sample is read into `b` before either target is written (R141). -/
def addPlanes (target₁ target₂ base : Nat) (s : State) : State :=
  s.setBout (forUp s.ctx.blockArea (fun i m =>
    let b := s.boutIn m (planeAddr s.ctx base i)
    let m₁ := Memory.write m (planeAddr s.ctx target₁ i) (add8 (s.boutIn m (planeAddr s.ctx target₁ i)) b)
    Memory.write m₁ (planeAddr s.ctx target₂ i) (add8 (s.boutIn m₁ (planeAddr s.ctx target₂ i)) b)) s.bout)

/-- color_op 0: identity: BOUT is not changed (R142). -/
def colorId0 (s : State) : State := s

/-- CP_ID0 (R142). -/
def execCpId0 (d p : BitVec 2) (s : State) : Outcome State := runRow (codeOf d p 0) (colorId0 s) s

/-- color_op 1: identity: BOUT is not changed (R143). -/
def colorId1 (s : State) : State := s

/-- CP_ID1 (R143). -/
def execCpId1 (d p : BitVec 2) (s : State) : Outcome State := runRow (codeOf d p 1) (colorId1 s) s

/-- color_op 2: identity: BOUT is not changed (R144). -/
def colorId2 (s : State) : State := s

/-- CP_ID2 (R144). -/
def execCpId2 (d p : BitVec 2) (s : State) : Outcome State := runRow (codeOf d p 2) (colorId2 s) s

/-- color_op 3: identity: BOUT is not changed (R145). -/
def colorId3 (s : State) : State := s

/-- CP_ID3 (R145). -/
def execCpId3 (d p : BitVec 2) (s : State) : Outcome State := runRow (codeOf d p 3) (colorId3 s) s

/-- color_op 4: identity: BOUT is not changed (R146). -/
def colorId4 (s : State) : State := s

/-- CP_ID4 (R146). -/
def execCpId4 (d p : BitVec 2) (s : State) : Outcome State := runRow (codeOf d p 4) (colorId4 s) s

/-- color_op 5: plane1 += plane0 (R147). -/
def color1p0 (s : State) : State := addPlane 1 0 s

/-- CP_1P0 (R147). -/
def execCp1p0 (d p : BitVec 2) (s : State) : Outcome State := runRow (codeOf d p 5) (color1p0 s) s

/-- color_op 6: plane2 += plane0 (R148). -/
def color2p0 (s : State) : State := addPlane 2 0 s

/-- CP_2P0 (R148). -/
def execCp2p0 (d p : BitVec 2) (s : State) : Outcome State := runRow (codeOf d p 6) (color2p0 s) s

/-- color_op 7: plane1 += plane0; plane2 += plane0 (R149). -/
def color12p0 (s : State) : State := addPlanes 1 2 0 s

/-- CP_12P0 (R149). -/
def execCp12p0 (d p : BitVec 2) (s : State) : Outcome State := runRow (codeOf d p 7) (color12p0 s) s

/-- color_op 8: identity: BOUT is not changed (R150). -/
def colorId8 (s : State) : State := s

/-- CP_ID8 (R150). -/
def execCpId8 (d p : BitVec 2) (s : State) : Outcome State := runRow (codeOf d p 8) (colorId8 s) s

/-- color_op 9: plane0 += plane1 (R151). -/
def color0p1 (s : State) : State := addPlane 0 1 s

/-- CP_0P1 (R151). -/
def execCp0p1 (d p : BitVec 2) (s : State) : Outcome State := runRow (codeOf d p 9) (color0p1 s) s

/-- color_op 10: plane2 += plane1 (R152). -/
def color2p1 (s : State) : State := addPlane 2 1 s

/-- CP_2P1 (R152). -/
def execCp2p1 (d p : BitVec 2) (s : State) : Outcome State := runRow (codeOf d p 10) (color2p1 s) s

/-- color_op 11: plane0 += plane1; plane2 += plane1 (R153). -/
def color02p1 (s : State) : State := addPlanes 0 2 1 s

/-- CP_02P1 (R153). -/
def execCp02p1 (d p : BitVec 2) (s : State) : Outcome State := runRow (codeOf d p 11) (color02p1 s) s

/-- color_op 12: identity: BOUT is not changed (R154). -/
def colorId12 (s : State) : State := s

/-- CP_ID12 (R154). -/
def execCpId12 (d p : BitVec 2) (s : State) : Outcome State := runRow (codeOf d p 12) (colorId12 s) s

/-- color_op 13: plane0 += plane2 (R155). -/
def color0p2 (s : State) : State := addPlane 0 2 s

/-- CP_0P2 (R155). -/
def execCp0p2 (d p : BitVec 2) (s : State) : Outcome State := runRow (codeOf d p 13) (color0p2 s) s

/-- color_op 14: plane1 += plane2 (R156). -/
def color1p2 (s : State) : State := addPlane 1 2 s

/-- CP_1P2 (R156). -/
def execCp1p2 (d p : BitVec 2) (s : State) : Outcome State := runRow (codeOf d p 14) (color1p2 s) s

/-- color_op 15: plane0 += plane2; plane1 += plane2 (R157). -/
def color01p2 (s : State) : State := addPlanes 0 1 2 s

/-- CP_01P2 (R157). -/
def execCp01p2 (d p : BitVec 2) (s : State) : Outcome State := runRow (codeOf d p 15) (color01p2 s) s

/-- The entry of the table a `color_op` selects (R140: a closed 16-way selection). -/
def applyColor (c : BitVec 4) (s : State) : State :=
  match c.toNat with
  | 0 => colorId0 s
  | 1 => colorId1 s
  | 2 => colorId2 s
  | 3 => colorId3 s
  | 4 => colorId4 s
  | 5 => color1p0 s
  | 6 => color2p0 s
  | 7 => color12p0 s
  | 8 => colorId8 s
  | 9 => color0p1 s
  | 10 => color2p1 s
  | 11 => color02p1 s
  | 12 => colorId12 s
  | 13 => color0p2 s
  | 14 => color1p2 s
  | _ => color01p2 s

end Sys2Proof.Machine
end

