-- ==== Sys2Proof/Machine/Transform.lean ====
section
/-! DEFINITION. The core: ESB_CLEAR, ARR_WRITE, the horizontal and the vertical predictor with the edge-state buffer, BLK_XFORM
(43_block_transform.md). -/

namespace Sys2Proof.Machine

/-- `for a in 0 .. n-1: m[a] <- 0` (R160). -/
def clearBytes (n : Nat) (m : ByteMemory) : ByteMemory := forUp n (fun a m => Memory.write m a 0) m

/-- ESB_CLEAR's effect (R160). -/
def esbCleared (s : State) : State :=
  ((s.setPcol (clearBytes (s.ctx.heightBlocks * s.ctx.blockStride) s.pcol)).setProw
    (clearBytes (s.ctx.widthBlocks * s.ctx.blockStride) s.prow)).setStatus s.status.afterClear

/-- ESB_CLEAR (R160). -/
def execEsbClear (s : State) : Outcome State :=
  runCommand 3 s.status.readyEsbClear (esbCleared s) s

/-- ARR_WRITE's effect (R161). -/
def sampleWritten (b : Byte) (s : State) : State :=
  ((s.setArr (Memory.write s.arr s.arrp b)).setArrp (s.arrp + 1)).setStatus
    (s.status.afterWrite (s.arrp + 1 == s.ctx.blockSamples))

/-- ARR_WRITE b (R161). -/
def execArrWrite (b : Byte) (s : State) : Outcome State :=
  runCommand 4 s.status.readyArrWrite (sampleWritten b s) s

/-- The accumulate branch on one logical row (R169): the running value, seeded from the column state, goes into every sample and
at last back into the column state. -/
def accumulateRow (s : State) (r : Nat) (acc : ByteMemory × ByteMemory) : ByteMemory × ByteMemory :=
  let swept := forUp s.ctx.blockSize (fun x (mr : ByteMemory × Byte) =>
      let run := add8 mr.2 (s.boutIn mr.1 (rowAddr s.ctx r x))
      (Memory.write mr.1 (rowAddr s.ctx r x) run, run))
    (acc.1, s.pcolIn acc.2 (pcolAddr s.ctx s.blkY r))
  (swept.1, Memory.write acc.2 (pcolAddr s.ctx s.blkY r) swept.2)

/-- The accumulate branch (R168, R169). -/
def horizontalAccumulate (s : State) : State :=
  let acc := forUp s.ctx.blockStride (accumulateRow s) (s.bout, s.pcol)
  (s.setBout acc.1).setPcol acc.2

/-- The capture branch (R168, R170): the column state takes the last sample of each row; BOUT stays. -/
def horizontalCapture (s : State) : State :=
  s.setPcol (forUp s.ctx.blockStride (fun r m =>
    Memory.write m (pcolAddr s.ctx s.blkY r) (s.boutIn s.bout (rowAddr s.ctx r (s.ctx.blockSize - 1)))) s.pcol)

/-- HD_ACCUM (R169). -/
def execHdAccum (d1 : BitVec 1) (p : BitVec 2) (c : BitVec 4) (s : State) : Outcome State :=
  runRow (codeOf (d1 ++ 1#1) p c) (horizontalAccumulate s) s

/-- HD_CAPTURE (R170). -/
def execHdCapture (d1 : BitVec 1) (p : BitVec 2) (c : BitVec 4) (s : State) : Outcome State :=
  runRow (codeOf (d1 ++ 0#1) p c) (horizontalCapture s) s

/-- The sample added at `(c, y, x)` (R172, R173): the row state's in the first row, and in every row when the pass is not chained;
else the sample above, already updated. -/
def verticalAddend (s : State) (bout prow : ByteMemory) (c y x : Nat) : Byte :=
  if y = 0 ∨ s.cfg.vpredChained = false then s.prowIn prow (prowAddr s.ctx s.blkX c x)
  else s.boutIn bout (planarAddr s.ctx c (y - 1) x)

/-- The vertical pass on one channel (R172), and its row-state update (R174). -/
def verticalChannel (s : State) (c : Nat) (acc : ByteMemory × ByteMemory) : ByteMemory × ByteMemory :=
  let bout := forUp s.ctx.blockSize (fun y => forUp s.ctx.blockSize fun x m =>
      Memory.write m (planarAddr s.ctx c y x)
        (add8 (s.boutIn m (planarAddr s.ctx c y x)) (verticalAddend s m acc.2 c y x)))
    acc.1
  let prow := forUp s.ctx.blockSize (fun x m =>
      Memory.write m (prowAddr s.ctx s.blkX c x) (s.boutIn bout (planarAddr s.ctx c (s.ctx.blockSize - 1) x)))
    acc.2
  (bout, prow)

/-- The vertical pass (R172 to R174). -/
def vertical (s : State) : State :=
  let acc := forUp s.ctx.channels (verticalChannel s) (s.bout, s.prow)
  (s.setBout acc.1).setProw acc.2

/-- VD_ADD (R172). -/
def execVdAdd (d p : BitVec 2) (c : BitVec 4) (s : State) : Outcome State := runRow (codeOf d p c) (vertical s) s

/-- XF_VERBATIM: the scatter through segment 1 and nothing else (R166). -/
def execXfVerbatim (s : State) : Outcome State := runRow 0 (scatter 0 s) s

/-- Step 5: the branch `diff_mode` bit 0 selects (R168). -/
def horizontal (code : Byte) (s : State) : State :=
  if accumulates code then horizontalAccumulate s else horizontalCapture s

/-- Steps 2 to 6 of BLK_XFORM (R162, R164 to R175). -/
def transform (code : Byte) (s : State) : State :=
  if code = 0 then scatter 0 s
  else vertical (horizontal code (applyColor (colorOp code) (scatter (permSelector code).toNat s)))

/-- Completion: ARR_FULL cleared, ARRP 0, BOUT_VALID set (R176). -/
def completeTransform (s : State) : State := (s.setArrp 0).setStatus s.status.afterTransform

/-- BLK_XFORM's effect: the legality check before any write (R163), then the transform and its completion (R162). -/
def blockTransformed (code : Byte) (s : State) : State :=
  if legalCode s.ctx.channels code then completeTransform (transform code s)
  else takeFault .illegalCode code s

/-- BLK_XFORM code (R162). -/
def execBlkXform (code : Byte) (s : State) : Outcome State :=
  runCommand 5 s.status.readyBlkXform (blockTransformed code s) s

end Sys2Proof.Machine
end

