-- ==== Sys2Proof/Machine/Assembler.lean ====
section
/-! DEFINITION. frame_assembler: BLK_EMIT and the block counter (44_frame_assembler.md). -/

namespace Sys2Proof.Machine

/-- The planar block into the interleaved canvas (R190). -/
def emitBlock (s : State) : State :=
  s.setCanvas (forUp s.ctx.channels (fun c => forUp s.ctx.blockSize fun y => forUp s.ctx.blockSize fun x m =>
    Memory.write m (emitAddr s.ctx s.blkX s.blkY c y x) (s.boutIn s.bout (planarAddr s.ctx c y x))) s.canvas)

/-- The next value of `BX` (R192). -/
def nextBlkX (s : State) : Nat := if s.blkX + 1 < s.ctx.widthBlocks then s.blkX + 1 else 0

/-- The next value of `BY` (R192). -/
def nextBlkY (s : State) : Nat := if s.blkX + 1 < s.ctx.widthBlocks then s.blkY else s.blkY + 1

/-- The block counter's advance, row-major; DONE when the new `BY` is `HB` (R192). -/
def advance (s : State) : State :=
  ((s.setBlkX (nextBlkX s)).setBlkY (nextBlkY s)).setStatus
    (s.status.afterEmit (nextBlkY s == s.ctx.heightBlocks))

/-- BLK_EMIT (R190). -/
def execBlkEmit (s : State) : Outcome State :=
  runCommand 6 s.status.readyBlkEmit (advance (emitBlock s)) s

end Sys2Proof.Machine
end

