-- ==== Sys2Proof/Machine/Observe.lean ====
section
/-! DEFINITION. The observation port (20_memory.md R70): a function of the state, so a read has no side effect. -/

namespace Sys2Proof.Machine

/-- The twenty-two registers of space 0 (R70); `none` past them. -/
def registerAt (s : State) (i : Nat) : Option Nat :=
  match i with
  | 0 => some s.status.word.toNat
  | 1 => some s.err.toNat
  | 2 => some s.errInfo.toNat
  | 3 => some s.ctx.version.toNat
  | 4 => some s.ctx.opTable.toNat
  | 5 => some s.ctx.encodeType.toNat
  | 6 => some s.ctx.bitCount.toNat
  | 7 => some (s.ctx.fmtFamily.toNat + 4 * s.ctx.fmtAlpha.toNat)
  | 8 => some s.ctx.depth
  | 9 => some s.ctx.width
  | 10 => some s.ctx.height
  | 11 => some s.ctx.degree
  | 12 => some s.ctx.channels
  | 13 => some s.ctx.blockSize
  | 14 => some s.ctx.blockArea
  | 15 => some s.ctx.blockSamples
  | 16 => some s.ctx.blockStride
  | 17 => some s.ctx.widthBlocks
  | 18 => some s.ctx.heightBlocks
  | 19 => some s.blkX
  | 20 => some s.blkY
  | 21 => some s.arrp
  | _ => none

/-- An element of a space within its current extent (R60). -/
def inExtent {α : Type} (m : List (Nat × α)) (extent i : Nat) : Option α :=
  if i < extent then Memory.read m i else none

/-- The bytes of a byte space as numbers. -/
def byteInExtent (m : ByteMemory) (extent i : Nat) : Option Nat := (inExtent m extent i).map BitVec.toNat

/-- What the port gives where the spec gives a value: an element written, inside the extent the context sets (R60, R67). -/
def observed (s : State) (space i : Nat) : Option Nat :=
  match space with
  | 0 => registerAt s i
  | 1 => inExtent s.perm (4 * s.ctx.blockSamples) i
  | 2 => byteInExtent s.arr s.ctx.blockSamples i
  | 3 => byteInExtent s.bout s.ctx.blockSamples i
  | 4 => byteInExtent s.pcol (s.ctx.heightBlocks * s.ctx.blockStride) i
  | 5 => byteInExtent s.prow (s.ctx.widthBlocks * s.ctx.blockStride) i
  | 6 => byteInExtent s.canvas
      (s.ctx.widthBlocks * s.ctx.blockSize * s.ctx.heightBlocks * s.ctx.blockSize * s.ctx.channels) i
  | _ => none

/-- The observation port (R70); a free value where the spec gives none (93 U4; log 10). -/
def observe (s : State) (space : BitVec 3) (i : Nat) : Nat :=
  (observed s space.toNat i).getD (Config.unspecifiedRead s.freeCtr space.toNat i)

end Sys2Proof.Machine
end

