-- ==== Sys2Proof/Machine/Sequencer.lean ====
section
/-! DEFINITION. The surroundings: the host sequencer as an agent (45_host_sequencer.md). It moves when the command port is empty;
one move is one line of the host program `Decode` (R210, R211), which issues commands by placing their words on the port. -/

namespace Sys2Proof.Machine

/-- `bulk`: bit 0 of CTX.ENCODE_TYPE (R202). -/
def bulkMode (s : State) : Bool := s.ctx.encodeType.getLsbD 0

/-- `NotSupported`, raised by the host only (60_exceptions.md R230, R234). -/
def notSupported : Failure := ⟨FaultKind.notSupported.number, 0⟩

/-- `CorruptData` for a nonzero synchronisation bit, raised by the host only (60_exceptions.md R230). -/
def badSyncBit : Failure := ⟨FaultKind.corruptData.number, 4⟩

/-- What a host procedure that calls the front-end comes to: blocked in a call that is never answered, a failure, or a result; the
last two with the front-end as its calls left it. -/
inductive HostResult (α : Type) where
  | blocked
  | fails (f : Failure) (fe : FrontEnd)
  | gives (v : α) (fe : FrontEnd)
  deriving Repr

/-- The Huffman-or-gamma rule (R205, R206). -/
def readCode (arch : Arch) (fe : FrontEnd) : HostResult Byte :=
  match arch with
  | .huffman =>
    match fe.symbol with
    | (none, _) => .blocked
    | (some b, f) => .gives b f
  | .gamma =>
    match fe.readBits 4 with
    | (none, _) => .blocked
    | (some v, f) => .gives (0xC0#8 ||| BitVec.ofNat 8 v) f.resync
  | .other => .fails notSupported fe

/-- The fixed code of a one-channel block (R203). -/
def fixedCode (s : State) : Byte := if s.ctx.fmtFamily = 1 then 0xC0 else 0x00

/-- The front-end after the conditional reset of a one-channel block (R203, R207). -/
def fixedReset (s : State) : FrontEnd :=
  if s.seq.arch = .gamma ∧ bulkMode s = false then s.fe.resync else s.fe

/-- `Supply()` (R203 to R206). With an empty prefetch buffer, which R208 excludes, the bulk path takes no step. -/
def supply (s : State) : HostResult Byte :=
  if s.ctx.channels < 3 then .gives (fixedCode s) (fixedReset s)
  else if bulkMode s then
    match s.seq.codes with
    | [] => .blocked
    | c :: _ => .gives c s.fe
  else readCode s.seq.arch s.fe

/-- The prefetch buffer after `Supply()`: its first code is popped on the bulk path (R204). -/
def codesAfterSupply (s : State) : List Byte :=
  if s.ctx.channels < 3 then s.seq.codes else if bulkMode s then s.seq.codes.tail else s.seq.codes

/-- `Prefetch()` of `n` codes (R208). -/
def prefetch (arch : Arch) : Nat → FrontEnd → HostResult (List Byte)
  | 0, fe => .gives [] fe
  | n + 1, fe =>
    match readCode arch fe with
    | .blocked => .blocked
    | .fails e f => .fails e f
    | .gives c f =>
      match prefetch arch n f with
      | .blocked => .blocked
      | .fails e g => .fails e g
      | .gives cs g => .gives (c :: cs) g

/-- `Sync()` (R209). -/
def syncStream (s : State) : HostResult Unit :=
  match s.fe.readBits 1 with
  | (none, _) => .blocked
  | (some b, f) =>
    if b ≠ 0 then .fails badSyncBit f
    else match s.seq.arch with
      | .gamma => .gives () (if bulkMode s then f.resync else f)
      | .huffman => .gives () f.resync
      | .other => .fails notSupported f

/-- `Crop()` (R214): the top-left `W` by `H` pixels of the canvas, read through the observation port. -/
def cropped (s : State) : List Byte :=
  (List.range s.ctx.height).flatMap fun y =>
    (List.range s.ctx.width).flatMap fun x =>
      (List.range s.ctx.channels).map fun c => BitVec.ofNat 8 (observe s 6 (canvasAddr s.ctx y x c))

/-- The port word of an instruction the host issues (30_encoding.md R84). -/
def issue (i : Instr) (s : State) : State := s.setPort (s.port ++ [encode i])

/-- The host goes on to a phase. -/
def goTo (p : Phase) (s : State) : State := s.setSeq { s.seq with phase := p }

/-- The host gives the decode call up (R212): no more commands of it, no output. -/
def giveUp (f : Failure) (s : State) : State := s.setSeq { s.seq with phase := .failed, failure := some f }

/-- The start of a decode call: drive the header port, issue CTX_LOAD (R210). -/
def startJob (j : Job) (rest : List Job) (s : State) : State :=
  issue .ctxLoad ((s.setHdr j.hdr).setSeq
    { jobs := rest, phase := .loaded, arch := j.arch, block := 0, codes := [], code := 0, buf := [], failure := none, out := [] })

/-- Between decode calls: start the next one, or wait. -/
def nextJob (s : State) : State :=
  match s.seq.jobs with
  | [] => s
  | j :: rest => startJob j rest s

/-- The failure the host reads from the status outputs (R210, R211: "fail with ERR"). -/
def reportedFault (s : State) : Failure := ⟨s.err, s.errInfo⟩

/-- One move of the host (R210, R211). -/
def hostTurn (s : State) : Outcome State :=
  match s.seq.phase with
  | .idle => .next (nextJob s)
  | .finished => .next (nextJob s)
  | .failed => .next (nextJob s)
  | .loaded =>
    if s.status.fault then .next (giveUp (reportedFault s) s) else .next (goTo .built (issue .permBuild s))
  | .built => .next (goTo .cleared (issue .esbClear s))
  | .cleared =>
    if bulkMode s ∧ 3 ≤ s.ctx.channels then
      match prefetch s.seq.arch (s.ctx.widthBlocks * s.ctx.heightBlocks) s.fe with
      | .blocked => .fault .hostBlocked
      | .fails e fe => .next (giveUp e (s.setFe fe))
      | .gives cs fe => .next (goTo .sync ((s.setFe fe).setSeq { s.seq with codes := cs }))
    else .next (goTo .sync s)
  | .sync =>
    match syncStream s with
    | .blocked => .fault .hostBlocked
    | .fails e fe => .next (giveUp e (s.setFe fe))
    | .gives _ fe => .next (goTo .block (s.setFe fe))
  | .block =>
    if s.seq.block < s.ctx.widthBlocks * s.ctx.heightBlocks then
      match supply s with
      | .blocked => .fault .hostBlocked
      | .fails e fe => .next (giveUp e (s.setFe fe))
      | .gives c fe => .next (goTo .decode ((s.setFe fe).setSeq { s.seq with code := c, codes := codesAfterSupply s }))
    else .next (goTo .crop s)
  | .decode =>
    match s.fe.decode s.ctx.blockSamples with
    | (none, _) => .fault .hostBlocked
    | (some bs, fe) => .next (goTo .write ((s.setFe fe).setSeq { s.seq with buf := bs }))
  | .write => .next (goTo .transform (s.setPort (s.port ++ s.seq.buf.map fun b => encode (.arrWrite b))))
  | .transform => .next (goTo .emit (issue (.blkXform s.seq.code) s))
  | .emit =>
    if s.status.fault then .next (giveUp (reportedFault s) s)
    else .next (goTo .block (issue .blkEmit (s.setSeq { s.seq with block := s.seq.block + 1 })))
  | .crop => .next (s.setSeq { s.seq with phase := .finished, out := cropped s })

end Sys2Proof.Machine
end

