-- ==== Sys2Proof/Machine/Fetch.lean ====
section
/-! DEFINITION. Whose turn it is, and the word the BTE takes from the command port (10_state.md R38; 70_reset_and_hazards.md
R260; 60_exceptions.md R244). -/

namespace Sys2Proof.Machine

/-- What the next step is. -/
inductive Turn where
  | reset
  | stuck
  | run (i : Instr)
  | reject (r : Reject)
  | host
  deriving DecidableEq, Repr

/-- The reset pin first (R260: from any state), then a stuck CTX_LOAD, then the next word at the command port, then the host. -/
def nextTurn (s : State) : Turn :=
  if s.rst then .reset
  else if s.stuck then .stuck
  else
    match s.port with
    | [] => .host
    | it :: _ =>
      match decode it with
      | .ok i => .run i
      | .error r => .reject r

/-- The state once the BTE has taken the word at the front of the port. -/
def takeWord (s : State) : State := s.setPort s.port.tail

/-- A word of the opcode table placed as the next word at the command port, with nothing in its way. -/
def placeWord (s : State) (nbits w : Nat) : State :=
  match tableWord nbits w with
  | none => s
  | some it => ((s.setPort (it :: s.port)).setRst false).setStuck false

end Sys2Proof.Machine
end

