-- ==== Sys2Proof/Machine/Validator.lean ====
section
/-! DEFINITION. decode_context_validator: CTX_LOAD (40_context_validator.md). -/

namespace Sys2Proof.Machine

/-- The four stream fields, in the order they are read (R101). -/
structure StreamFields where
  version : Byte
  opTable : Byte
  encodeType : Byte
  bitCount : Byte
  deriving DecidableEq, Repr

/-- The four reads of 8 raw bits (R101); `none` when one is never answered (60_exceptions.md R244). -/
def readFields (fe : FrontEnd) : Option StreamFields × FrontEnd :=
  match fe.readBits 8 with
  | (none, f1) => (none, f1)
  | (some v, f1) =>
    match f1.readBits 8 with
    | (none, f2) => (none, f2)
    | (some o, f2) =>
      match f2.readBits 8 with
      | (none, f3) => (none, f3)
      | (some e, f3) =>
        match f3.readBits 8 with
        | (none, f4) => (none, f4)
        | (some b, f4) =>
          (some
            { version := BitVec.ofNat 8 v
              opTable := BitVec.ofNat 8 o
              encodeType := BitVec.ofNat 8 e
              bitCount := BitVec.ofNat 8 b }, f4)

/-- The ten registers latched before any check (R101). -/
def latch (h : Header) (q : StreamFields) (c : Context) : Context :=
  { c with
    version := q.version
    opTable := q.opTable
    encodeType := q.encodeType
    bitCount := q.bitCount
    fmtFamily := h.fmtFamily
    fmtAlpha := h.fmtAlpha
    depth := h.depth
    width := h.width
    height := h.height
    degree := h.degree }

/-- Channel count (R102); `none` is an unknown pixel format (R103). Family 0 is RGB, 1 grayscale (30_encoding.md R87). -/
def channelCount (c : Context) : Option Nat :=
  if c.fmtFamily = 0 ∧ c.depth ≤ 8 then some 1
  else if c.fmtFamily = 0 ∧ c.fmtAlpha = 1 then some 4
  else if c.fmtFamily = 0 then some 3
  else if c.fmtFamily = 1 then some 1
  else none

/-- `op_table` is 0 and bits 7:1 of `encode_type` are 0 (R104). -/
def metadataOk (c : Context) : Bool := c.opTable == 0 && c.encodeType.extractLsb' 1 7 == 0

/-- The version and bit-count check (R105, R106): the fault it raises, if any. -/
def versionFault (c : Context) : Option (FaultKind × Byte) :=
  match c.version.toNat with
  | 1 => if c.bitCount = 0 then none else some (.unsupportedBitDepth, c.bitCount)
  | 8 => if c.bitCount = 8 then none else some (.unsupportedBitDepth, c.bitCount)
  | 16 => if c.bitCount = 8 ∧ c.encodeType = 0 then none else some (.unsupportedBitDepth, c.bitCount)
  | _ => some (.unsupportedVersion, c.version)

/-- `ceil(a / b)` for natural numbers (00_scope.md R11). -/
def ceilDiv (a b : Nat) : Nat := (a + b - 1) / b

/-- The seven derived registers (R109, R111). -/
def withGeometry (ch : Nat) (c : Context) : Context :=
  { c with
    channels := ch
    blockSize := 2 ^ c.degree
    blockArea := 2 ^ c.degree * 2 ^ c.degree
    blockSamples := 2 ^ c.degree * 2 ^ c.degree * ch
    blockStride := 2 ^ c.degree * ch
    widthBlocks := ceilDiv c.width (2 ^ c.degree)
    heightBlocks := ceilDiv c.height (2 ^ c.degree) }

/-- The capacity check (R110). -/
def capacityFault (cfg : Params) (c : Context) : Option (FaultKind × Byte) :=
  if within cfg.degMax c.degree then
    if within cfg.wbMax c.widthBlocks && within cfg.hbMax c.heightBlocks then none
    else some (.resourceLimit, 2)
  else some (.resourceLimit, 1)

/-- The checks in their order (R108), and on success the context with its geometry. -/
def checkContext (cfg : Params) (c : Context) : Except (FaultKind × Byte) Context :=
  match channelCount c with
  | none => .error (.corruptData, 1)
  | some ch =>
    if metadataOk c then
      match versionFault c with
      | some f => .error f
      | none =>
        if c.degree = 0 then .error (.corruptData, 3)
        else
          match capacityFault cfg (withGeometry ch c) with
          | some f => .error f
          | none => .ok (withGeometry ch c)
    else .error (.corruptData, 2)

/-- The seven derived registers after a CTX_LOAD that faulted: free values (10_state.md R24; log 4). The numbers are those of
20_memory.md R70. -/
def unspecifiedGeometry (k : Nat) (c : Context) : Context :=
  { c with
    channels := Config.unspecifiedReg k 12
    blockSize := Config.unspecifiedReg k 13
    blockArea := Config.unspecifiedReg k 14
    blockSamples := Config.unspecifiedReg k 15
    blockStride := Config.unspecifiedReg k 16
    widthBlocks := Config.unspecifiedReg k 17
    heightBlocks := Config.unspecifiedReg k 18 }

/-- Commit (R111) or the failure path (R112), on a state whose decode call has begun. -/
def finishLoad (latched : Context) (result : Except (FaultKind × Byte) Context) (s : State) : State :=
  match result with
  | .ok c => (s.setCtx c).setStatus (Status.afterLoad (c.widthBlocks == 0 || c.heightBlocks == 0))
  | .error (kind, info) =>
    takeFault kind info ((s.setCtx (unspecifiedGeometry s.freeCtr latched)).setFreeCtr (s.freeCtr + 1))

/-- The context registers as CTX_LOAD latches them (R101). -/
def latchedContext (s : State) (q : StreamFields) : Context := latch (sampleHeader s.cfg s.hdr) q s.ctx

/-- CTX_LOAD once its four reads are answered (R100). -/
def loadContext (q : StreamFields) (fe : FrontEnd) (s : State) : State :=
  finishLoad (latchedContext s q) (checkContext s.cfg (latchedContext s q)) ((beginCall s).setFe fe)

/-- CTX_LOAD (R100): accepted in every state. A read that is never answered leaves the BTE stuck (60_exceptions.md R244). -/
def execCtxLoad (s : State) : Outcome State :=
  match readFields s.fe with
  | (none, fe) => .next ((s.setFe fe).setStuck true)
  | (some q, fe) => .next (loadContext q fe s)

end Sys2Proof.Machine
end

