-- ==== Sys2Proof/Machine/Dispatch.lean ====
section
/-! DEFINITION. The dispatch: one arm per instruction. -/

namespace Sys2Proof.Machine

def exec (i : Instr) (s : State) : Host.Outcome State Fault Refusal :=
  match i with
  | .ctxLoad => Sys2Proof.Machine.execCtxLoad s
  | .permBuild => Sys2Proof.Machine.execPermBuild s
  | .esbClear => Sys2Proof.Machine.execEsbClear s
  | .arrWrite b => Sys2Proof.Machine.execArrWrite b s
  | .blkXform code => Sys2Proof.Machine.execBlkXform code s
  | .blkEmit => Sys2Proof.Machine.execBlkEmit s
  | .xfVerbatim => Sys2Proof.Machine.execXfVerbatim s
  | .cpId0 d p => Sys2Proof.Machine.execCpId0 d p s
  | .cpId1 d p => Sys2Proof.Machine.execCpId1 d p s
  | .cpId2 d p => Sys2Proof.Machine.execCpId2 d p s
  | .cpId3 d p => Sys2Proof.Machine.execCpId3 d p s
  | .cpId4 d p => Sys2Proof.Machine.execCpId4 d p s
  | .cp1p0 d p => Sys2Proof.Machine.execCp1p0 d p s
  | .cp2p0 d p => Sys2Proof.Machine.execCp2p0 d p s
  | .cp12p0 d p => Sys2Proof.Machine.execCp12p0 d p s
  | .cpId8 d p => Sys2Proof.Machine.execCpId8 d p s
  | .cp0p1 d p => Sys2Proof.Machine.execCp0p1 d p s
  | .cp2p1 d p => Sys2Proof.Machine.execCp2p1 d p s
  | .cp02p1 d p => Sys2Proof.Machine.execCp02p1 d p s
  | .cpId12 d p => Sys2Proof.Machine.execCpId12 d p s
  | .cp0p2 d p => Sys2Proof.Machine.execCp0p2 d p s
  | .cp1p2 d p => Sys2Proof.Machine.execCp1p2 d p s
  | .cp01p2 d p => Sys2Proof.Machine.execCp01p2 d p s
  | .ps0 d c => Sys2Proof.Machine.execPs0 d c s
  | .ps1 d c => Sys2Proof.Machine.execPs1 d c s
  | .ps2 d c => Sys2Proof.Machine.execPs2 d c s
  | .ps3 d c => Sys2Proof.Machine.execPs3 d c s
  | .hdCapture d1 p c => Sys2Proof.Machine.execHdCapture d1 p c s
  | .hdAccum d1 p c => Sys2Proof.Machine.execHdAccum d1 p c s
  | .vdAdd d p c => Sys2Proof.Machine.execVdAdd d p c s

end Sys2Proof.Machine
end

