-- ==== Sys2Proof/Machine/Step.lean ====
section
/-! DEFINITION. One step of the machine. -/

namespace Sys2Proof.Machine

/-- One step: a reset, one command of the BTE (70_reset_and_hazards.md R271: one step per command), or one move of the host. -/
def step (s : State) : Host.Outcome State Fault Refusal :=
  match nextTurn s with
  | .reset => .next (applyReset s)
  | .stuck => .fault .stuckInCtxLoad
  | .run i => exec i (takeWord s)
  | .reject r => .next (takeIllegalCommand r (takeWord s))
  | .host => hostTurn s

/-- `s` with a word of the opcode table standing where `step` takes its next word from: the front of the command port (log 8). -/
def State.withFetchWord (s : State) (nbits w : Nat) : State := placeWord s nbits w

end Sys2Proof.Machine
end

