-- ==== Sys2Proof/Safety.lean ====
section
/-! DEFINITION. What counts as a sound state, in the terms claims use: the canonical form of the buffers, the invariants of
10_state.md R40, the written elements of 70_reset_and_hazards.md R263, and the words in which the spec's results are stated. -/

namespace Sys2Proof.Machine

/-- The `+8` sum of the first `n` values of `f`: the running sums of 43_block_transform.md R169 and R172. -/
def sumTo (f : Nat → Byte) : Nat → Byte
  | 0 => 0
  | n + 1 => sumTo f n + f n

/-- The state a fault leaves that is the first of its decode call: number, detail and FAULT, nothing else (60_exceptions.md R240). -/
def faulted (s : State) (number : BitVec 4) (info : Byte) : State :=
  { s with err := number, errInfo := info, status := { s.status with fault := true } }

/-- A byte of BOUT as a datapath sees it. -/
def State.boutAt (s : State) (a : Nat) : Byte := s.boutIn s.bout a

/-- A byte of PCOL as a datapath sees it. -/
def State.pcolAt (s : State) (a : Nat) : Byte := s.pcolIn s.pcol a

/-- A byte of PROW as a datapath sees it. -/
def State.prowAt (s : State) (a : Nat) : Byte := s.prowIn s.prow a

/-- Every buffer in canonical form. -/
structure State.MemoryWf (s : State) : Prop where
  perm : Memory.wf s.perm
  arr : Memory.wf s.arr
  bout : Memory.wf s.bout
  pcol : Memory.wf s.pcol
  prow : Memory.wf s.prow
  canvas : Memory.wf s.canvas

/-- The derived registers are those of the header copies (40_context_validator.md R109, 00_scope.md R9). -/
structure Context.Geometry (g : Context) : Prop where
  channels : g.channels = 1 ∨ g.channels = 3 ∨ g.channels = 4
  degree : g.degree ≠ 0
  size : g.blockSize = 2 ^ g.degree
  area : g.blockArea = g.blockSize * g.blockSize
  samples : g.blockSamples = g.blockArea * g.channels
  stride : g.blockStride = g.blockSize * g.channels
  columns : g.widthBlocks = (g.width + g.blockSize - 1) / g.blockSize
  rows : g.heightBlocks = (g.height + g.blockSize - 1) / g.blockSize

/-- Segment `p` of PERM holds each of `0 .. N-1` exactly once, at written elements (41_permutation_rom.md R126). -/
structure State.SegmentBijective (s : State) (p : Nat) : Prop where
  inside : ∀ i, i < s.ctx.blockSamples → ∃ j, j < s.ctx.blockSamples ∧ Memory.read s.perm (permAddr s.ctx p i) = some j
  once : ∀ i j, i < s.ctx.blockSamples → j < s.ctx.blockSamples →
    Memory.read s.perm (permAddr s.ctx p i) = Memory.read s.perm (permAddr s.ctx p j) → i = j
  all : ∀ j, j < s.ctx.blockSamples → ∃ i, i < s.ctx.blockSamples ∧ Memory.read s.perm (permAddr s.ctx p i) = some j

/-- The invariants of 10_state.md R40, (a) to (f), with those of R24, R28 and R29 they rest on. -/
structure State.Inv (s : State) : Prop where
  /-- (a) -/
  faultHasNumber : s.status.fault = true → s.err ≠ 0
  noFaultNoNumber : s.status.fault = false → s.err = 0 ∧ s.errInfo = 0
  /-- (b) -/
  permNeedsContext : s.status.permValid = true → s.status.ctxValid = true
  esbNeedsContext : s.status.esbValid = true → s.status.ctxValid = true
  arrNeedsContext : s.status.arrFull = true → s.status.ctxValid = true
  boutNeedsContext : s.status.boutValid = true → s.status.ctxValid = true
  doneNeedsContext : s.status.done = true → s.status.ctxValid = true
  /-- (c), by R24 and R109 -/
  geometry : s.status.ctxValid = true → s.ctx.Geometry
  /-- (d) -/
  notBoth : ¬ (s.status.arrFull = true ∧ s.status.boutValid = true)
  /-- (e) -/
  counterInGrid : s.status.done = false → s.status.ctxValid = true →
    s.blkX < s.ctx.widthBlocks ∧ s.blkY < s.ctx.heightBlocks
  /-- (f) -/
  permBijective : s.status.permValid = true → ∀ p, p < 4 → s.SegmentBijective p
  /-- R29 -/
  arrpBound : s.status.ctxValid = true → s.arrp ≤ s.ctx.blockSamples
  arrFullIff : s.status.arrFull = true ↔
    s.arrp = s.ctx.blockSamples ∧ 0 < s.ctx.blockSamples ∧ s.status.ctxValid = true
  /-- R193: after DONE the flags of a block in progress are clear. -/
  doneNoBlock : s.status.done = true → s.status.arrFull = false ∧ s.status.boutValid = false

/-- What the flags promise of the buffers: the elements a command may read are written (70_reset_and_hazards.md R263). -/
structure State.Written (s : State) : Prop where
  arr : s.status.ctxValid = true → ∀ i, i < s.arrp → (Memory.read s.arr i).isSome
  bout : s.status.boutValid = true → ∀ i, i < s.ctx.blockSamples → (Memory.read s.bout i).isSome
  pcol : s.status.esbValid = true → ∀ a, a < s.ctx.heightBlocks * s.ctx.blockStride → (Memory.read s.pcol a).isSome
  prow : s.status.esbValid = true → ∀ a, a < s.ctx.widthBlocks * s.ctx.blockStride → (Memory.read s.prow a).isSome

/-- Two states that differ in buffer elements the flags do not vouch for and in nothing else: what is stale or unspecified since the
last CTX_LOAD (70_reset_and_hazards.md R261, R263), and the canvas, which no command reads (10_state.md R35). -/
structure State.AgreesLive (s t : State) : Prop where
  rest : t = { s with perm := t.perm, arr := t.arr, bout := t.bout, pcol := t.pcol, prow := t.prow, canvas := t.canvas }
  perm : s.status.permValid = true → ∀ a, a < 4 * s.ctx.blockSamples → Memory.read t.perm a = Memory.read s.perm a
  arr : ∀ a, a < s.arrp → Memory.read t.arr a = Memory.read s.arr a
  bout : s.status.boutValid = true → ∀ a, a < s.ctx.blockSamples → Memory.read t.bout a = Memory.read s.bout a
  pcol : s.status.esbValid = true → ∀ a, a < s.ctx.heightBlocks * s.ctx.blockStride →
    Memory.read t.pcol a = Memory.read s.pcol a
  prow : s.status.esbValid = true → ∀ a, a < s.ctx.widthBlocks * s.ctx.blockStride →
    Memory.read t.prow a = Memory.read s.prow a

/-- The conditions on STATUS under which BLK_XFORM runs (60_exceptions.md R236), in a state without a fault. -/
structure State.ReadyToTransform (s : State) : Prop where
  clear : s.status.fault = false
  context : s.status.ctxValid = true
  perm : s.status.permValid = true
  esb : s.status.esbValid = true
  arr : s.status.arrFull = true
  bout : s.status.boutValid = false
  notDone : s.status.done = false

/-- The transformer codes that are legal (30_encoding.md R89, 43_block_transform.md R163). -/
def LegalColor (channels : Nat) (c : BitVec 4) : Prop :=
  3 ≤ channels ∨ c ∈ ([0, 1, 2, 3, 4, 8, 12] : List (BitVec 4))

/-- The five combinations of version, bit count and encode type that pass (40_context_validator.md R105). -/
def legalTriples : List (Byte × Byte × Byte) := [(1, 0, 0), (1, 0, 1), (8, 8, 0), (8, 8, 1), (16, 8, 0)]

/-- STATUS after a transform (43_block_transform.md R176). -/
def State.transformedStatus (s : State) : Status := { s.status with arrFull := false, boutValid := true }

/-- CTX_LOAD ends in a fault of this number and detail (40_context_validator.md R112): the flags cleared but FAULT, the ten input
registers latched, the four front-end answers consumed, nothing else changed but the derived registers, which hold free values. -/
def LoadFails (s : State) (q : StreamFields) (fe : FrontEnd) (number : BitVec 4) (info : Byte) : Prop :=
  ∃ t, exec .ctxLoad s = .next t ∧
    t.ctx.version = q.version ∧ t.ctx.opTable = q.opTable ∧ t.ctx.encodeType = q.encodeType ∧ t.ctx.bitCount = q.bitCount ∧
    t.ctx.fmtFamily = s.hdr.fmtFamily ∧ t.ctx.fmtAlpha = s.hdr.fmtAlpha ∧
    t.ctx.depth = onWires s.cfg.depthW s.hdr.depth ∧ t.ctx.width = onWires s.cfg.dimW s.hdr.width ∧
    t.ctx.height = onWires s.cfg.dimW s.hdr.height ∧ t.ctx.degree = onWires s.cfg.degW s.hdr.degree ∧
    t = { s with
      status := { Status.reset with fault := true }
      err := number
      errInfo := info
      arrp := 0
      blkX := 0
      blkY := 0
      ctx := t.ctx
      fe := fe
      freeCtr := t.freeCtr }

/-- The front-end's answer to the read `j` reads from now, if that is call number `call`: the script's entry, past the script the free
value of that call (45_host_sequencer.md R200; log 6). `none` is a read that is never answered. -/
def FrontEnd.answer (fe : FrontEnd) (j call : Nat) : Option Nat := (fe.script[j]?).getD (some (Config.feAnswer call))

/-- The host's next move is blocked: in the prefetch, the synchronisation, the supplier or the decode of a block, by a front-end read
that is never answered (60_exceptions.md R244; log 9), or in the supplier by an empty prefetch buffer (log 8). -/
def State.HostBlocked (s : State) : Prop :=
  (s.seq.phase = .cleared ∧ bulkMode s = true ∧ 3 ≤ s.ctx.channels ∧ s.seq.arch ≠ .other ∧
    none ∈ s.fe.script.take (s.ctx.widthBlocks * s.ctx.heightBlocks)) ∨
  (s.seq.phase = .sync ∧ none ∈ s.fe.script.take 1) ∨
  (s.seq.phase = .block ∧ s.seq.block < s.ctx.widthBlocks * s.ctx.heightBlocks ∧ 3 ≤ s.ctx.channels ∧
    ((bulkMode s = false ∧ s.seq.arch ≠ .other ∧ none ∈ s.fe.script.take 1) ∨ (bulkMode s = true ∧ s.seq.codes = []))) ∨
  (s.seq.phase = .decode ∧ none ∈ s.fe.script.take s.ctx.blockSamples)

/-- The instructions of a list one after another, as long as each answers a next state. -/
def execAll : List Instr → State → Outcome State
  | [], s => .next s
  | i :: is, s =>
    match exec i s with
    | .next t => execAll is t
    | .fault f => .fault f
    | .refused r => .refused r

end Sys2Proof.Machine
end

