-- ==== Sys2Proof/Certificates/Slice0/Obligations.lean ====
section
/-! DEFINITION. The statements for the provers. Each names in its docstring the rules of spec/ it formalises; `log <n>` is
notes/assumptions/<n>.md. -/

open Sys2Proof Sys2Proof.Machine

/-! ## Encodings -/

/-- Every instruction some word stands for is read back from its own encoding, with every operand at every value (R81, R83, R84,
R91). -/
def Obligations.EncodeThenDecode : Prop :=
  ∀ i : Instr, i.wf = true → decode (encode i) = .ok i

/-- What a word decodes to encodes back to it: every command word that decodes, and every nonzero code at every sub-unit (R81, R84,
R91). The code 0x00 is one instruction, whatever sub-unit it is addressed to (R83). A code addressed to a sub-unit is log 7. -/
def Obligations.DecodedWordEncodesBack : Prop :=
  (∀ w i, decode (.command w) = .ok i → encode i = .command w ∧ i.wf = true) ∧
  (∀ u code, code ≠ 0 → encode (decodeRow u code) = .row u code ∧ (decodeRow u code).wf = true) ∧
  ∀ u, decodeRow u 0 = .xfVerbatim ∧ encode .xfVerbatim = .row .psel 0

/-- Words of 95_test_vectors.md section 2.1: commands, and the rows of codes 0xE5, 0x97, 0x80, 0x00. -/
def Obligations.SpecWordsDecode : Prop :=
  decode (.command 0x100) = .ok .ctxLoad ∧ decode (.command 0x200) = .ok .permBuild ∧
  decode (.command 0x300) = .ok .esbClear ∧ decode (.command 0x40A) = .ok (.arrWrite 10) ∧
  decode (.command 0x5C0) = .ok (.blkXform 0xC0) ∧ decode (.command 0x600) = .ok .blkEmit ∧
  decodeRow .psel 0xE5 = .ps2 3 5 ∧ decodeRow .cpl 0xE5 = .cp1p0 3 2 ∧
  decodeRow .hdp 0xE5 = .hdAccum 1 2 5 ∧ decodeRow .vdp 0xE5 = .vdAdd 3 2 5 ∧
  decodeRow .cpl 0x97 = .cp12p0 2 1 ∧ decodeRow .hdp 0x97 = .hdCapture 1 1 7 ∧
  decodeRow .hdp 0x80 = .hdCapture 1 0 0 ∧ ∀ u, decodeRow u 0x00 = .xfVerbatim

/-! ## Reset and the step -/

/-- What reset leaves, where R39 gives a value: zeros; and no buffer element holds a value. -/
def Obligations.ResetState : Prop :=
  State.reset.status.word = 0 ∧ State.reset.err = 0 ∧ State.reset.errInfo = 0 ∧ State.reset.blkX = 0 ∧
  State.reset.blkY = 0 ∧ State.reset.arrp = 0 ∧
  ∀ a, Memory.read State.reset.perm a = none ∧ Memory.read State.reset.arr a = none ∧
    Memory.read State.reset.bout a = none ∧ Memory.read State.reset.pcol a = none ∧
    Memory.read State.reset.prow a = none ∧ Memory.read State.reset.canvas a = none

/-- The reset pin, from any state, a stuck one included (R260); what the outside drives stays. That the pin is a pulse is the
model's choice (log 5). -/
def Obligations.ResetPinFromAnyState : Prop :=
  ∀ s : State, s.rst = true → ∃ t, step s = .next t ∧ t.status.word = 0 ∧ t.err = 0 ∧ t.errInfo = 0 ∧
    t.blkX = 0 ∧ t.blkY = 0 ∧ t.arrp = 0 ∧ t.stuck = false ∧ t.rst = false ∧
    (∀ a, Memory.read t.perm a = none ∧ Memory.read t.arr a = none ∧ Memory.read t.bout a = none ∧
      Memory.read t.pcol a = none ∧ Memory.read t.prow a = none ∧ Memory.read t.canvas a = none) ∧
    t.cfg = s.cfg ∧ t.hdr = s.hdr ∧ t.fe = s.fe ∧ t.port = s.port ∧ t.seq = s.seq

/-- One step takes the word at the front of the command port and runs the instruction it decodes to (R6, R68, R271). -/
def Obligations.StepRunsDecodedInstruction : Prop :=
  ∀ (s : State) (it : PortWord) (rest : List PortWord) (i : Instr), s.rst = false → s.stuck = false → s.port = it :: rest →
    decode it = .ok i → step s = exec i { s with port := rest }

/-- A command word with a reserved opcode, or with a nonzero operand on a command that takes none, takes IllegalCommand, before
any precondition, and does nothing else (R88, R237, R230). -/
def Obligations.ReservedWordsTakeIllegalCommand : Prop :=
  ∀ (s : State) (w : BitVec 12) (rest : List PortWord), s.rst = false → s.stuck = false → s.port = .command w :: rest →
    s.status.fault = false →
    ((opcodeOf w = 0 ∨ 7 ≤ (opcodeOf w).toNat) →
      step s = .next (faulted { s with port := rest } 7 ((opcodeOf w).setWidth 8))) ∧
    (opcodeOf w ∈ ([1, 2, 3, 6] : List (BitVec 4)) → operandOf w ≠ 0 →
      step s = .next (faulted { s with port := rest } 7 (0x80 ||| (opcodeOf w).setWidth 8)))

/-- In the faulted state every instruction but CTX_LOAD, and every rejected word, changes nothing (R241). -/
def Obligations.FaultedStateIgnoresAllButLoad : Prop :=
  (∀ (i : Instr) (s : State), s.status.fault = true → i ≠ .ctxLoad → exec i s = .next s) ∧
  (∀ (s : State) (it : PortWord) (rest : List PortWord) (r : Reject), s.status.fault = true → s.rst = false →
    s.stuck = false → s.port = it :: rest → decode it = .error r → step s = .next { s with port := rest })

/-- Every instruction answers a next state in every state: none stops the machine (R270, with the stuck CTX_LOAD of R244 as a
state of its own, log 9). -/
def Obligations.EveryInstructionAnswersNext : Prop :=
  ∀ (i : Instr) (s : State), ∃ t, exec i s = .next t

/-- When a step stops, and that it never refuses. It stops with a CTX_LOAD whose read was never answered (R244), or in a move of
the host that is blocked: a front-end call of its own that is never answered (R244), or an empty prefetch buffer (a choice of
log 8). The form of the two stops is log 9. -/
def Obligations.StepStopsOnlyWhenStuck : Prop :=
  ∀ s : State, (∀ r, step s ≠ .refused r) ∧
    ∀ f, step s = .fault f ↔ s.rst = false ∧
      ((f = .stuckInCtxLoad ∧ s.stuck = true) ∨
        (f = .hostBlocked ∧ s.stuck = false ∧ s.port = [] ∧ s.HostBlocked))

/-- A command out of sequence takes SequenceFault with its opcode and changes nothing else; a CTX_LOAD whose reads are answered
never ends in SequenceFault, whatever the flags are (R236). -/
def Obligations.SequenceFaultWhenNotReady : Prop :=
  (∀ (s : State) (q : StreamFields) (fe : FrontEnd), readFields s.fe = (some q, fe) →
    ∃ t, exec .ctxLoad s = .next t ∧ t.err ≠ 6) ∧
  ∀ (s : State) (b code : Byte), s.status.fault = false →
    (s.status.ctxValid = false → exec .permBuild s = .next (faulted s 6 2)) ∧
    (s.status.ctxValid = false ∨ s.status.esbValid = true → exec .esbClear s = .next (faulted s 6 3)) ∧
    (s.status.ctxValid = false ∨ s.status.arrFull = true ∨ s.status.boutValid = true ∨ s.status.done = true →
      exec (.arrWrite b) s = .next (faulted s 6 4)) ∧
    (s.status.ctxValid = false ∨ s.status.permValid = false ∨ s.status.esbValid = false ∨ s.status.arrFull = false ∨
        s.status.boutValid = true ∨ s.status.done = true →
      exec (.blkXform code) s = .next (faulted s 6 5)) ∧
    (s.status.boutValid = false → exec .blkEmit s = .next (faulted s 6 6))

/-- A code whose colour op names an absent plane takes IllegalCode with the code, before any write, in BLK_XFORM and in every row
of the code (R158, R163, R235; a row run alone is log 7). -/
def Obligations.AbsentPlaneTakesIllegalCode : Prop :=
  ∀ (s : State) (code : Byte), s.status.fault = false → ¬ LegalColor s.ctx.channels (colorOp code) →
    (∀ u, exec (decodeRow u code) s = .next (faulted s 5 code)) ∧
    (s.ReadyToTransform → exec (.blkXform code) s = .next (faulted s 5 code))

/-! ## CTX_LOAD -/

/-- The four reads of 8 raw bits, in the order version, op_table, encode_type, bit_count; 32 bits in all (R100, R101). -/
def Obligations.FourFieldsReadInOrder : Prop :=
  (∀ (fe : FrontEnd) (v o e b : Byte) (rest : List (Option Nat)),
    fe.script = some v.toNat :: some o.toNat :: some e.toNat :: some b.toNat :: rest →
    readFields fe = (some ⟨v, o, e, b⟩, { fe with script := rest, calls := fe.calls + 4, rawBits := fe.rawBits + 32 })) ∧
  (∀ fe : FrontEnd, fe.script = [] → ∃ q, readFields fe =
    (some q, { fe with calls := fe.calls + 4, rawBits := fe.rawBits + 32 }))

/-- The channel count, first match wins, and the unknown pixel format (R102, R103). -/
def Obligations.ChannelCountRule : Prop :=
  ∀ c : Context,
    (c.fmtFamily = 0 → c.depth ≤ 8 → channelCount c = some 1) ∧
    (c.fmtFamily = 0 → 8 < c.depth → c.fmtAlpha = 1 → channelCount c = some 4) ∧
    (c.fmtFamily = 0 → 8 < c.depth → c.fmtAlpha = 0 → channelCount c = some 3) ∧
    (c.fmtFamily = 1 → channelCount c = some 1) ∧
    (c.fmtFamily = 2 ∨ c.fmtFamily = 3 → channelCount c = none)

/-- A CTX_LOAD all of whose checks pass: every register it leaves, and nothing else changed (R100, R101, R105, R109, R111). -/
def Obligations.CtxLoadCommits : Prop :=
  ∀ (s : State) (q : StreamFields) (fe : FrontEnd) (ch : Nat) (h : Header) (size columns rows : Nat),
    readFields s.fe = (some q, fe) → h = sampleHeader s.cfg s.hdr → channelCount (latchedContext s q) = some ch →
    q.opTable = 0 → (q.version, q.bitCount, q.encodeType) ∈ legalTriples → h.degree ≠ 0 →
    size = 2 ^ h.degree → columns = (h.width + size - 1) / size → rows = (h.height + size - 1) / size →
    within s.cfg.degMax h.degree = true → within s.cfg.wbMax columns = true → within s.cfg.hbMax rows = true →
    exec .ctxLoad s = .next { s with
      status := { Status.reset with ctxValid := true, done := decide (columns = 0 ∨ rows = 0) }
      err := 0
      errInfo := 0
      arrp := 0
      blkX := 0
      blkY := 0
      fe := fe
      ctx := {
        version := q.version
        opTable := q.opTable
        encodeType := q.encodeType
        bitCount := q.bitCount
        fmtFamily := h.fmtFamily
        fmtAlpha := h.fmtAlpha
        depth := h.depth
        width := h.width
        height := h.height
        degree := h.degree
        channels := ch
        blockSize := size
        blockArea := size * size
        blockSamples := size * size * ch
        blockStride := size * ch
        widthBlocks := columns
        heightBlocks := rows } }

/-- The checks of CTX_LOAD in their order, each with the fault it raises when it is the first to fail (R103, R104, R105, R106,
R107, R108, R110, R112). -/
def Obligations.CtxLoadFailsInOrder : Prop :=
  ∀ (s : State) (q : StreamFields) (fe : FrontEnd) (h : Header), readFields s.fe = (some q, fe) →
    h = sampleHeader s.cfg s.hdr →
    (channelCount (latchedContext s q) = none → LoadFails s q fe 1 1) ∧
    (channelCount (latchedContext s q) ≠ none → q.opTable ≠ 0 ∨ q.encodeType.extractLsb' 1 7 ≠ 0 → LoadFails s q fe 1 2) ∧
    (channelCount (latchedContext s q) ≠ none → q.opTable = 0 → q.encodeType.extractLsb' 1 7 = 0 →
      (q.version ∉ ([1, 8, 16] : List Byte) → LoadFails s q fe 3 q.version) ∧
      (q.version ∈ ([1, 8, 16] : List Byte) → (q.version, q.bitCount, q.encodeType) ∉ legalTriples →
        LoadFails s q fe 2 q.bitCount) ∧
      ((q.version, q.bitCount, q.encodeType) ∈ legalTriples →
        (h.degree = 0 → LoadFails s q fe 1 3) ∧
        (h.degree ≠ 0 → within s.cfg.degMax h.degree = false → LoadFails s q fe 8 1) ∧
        (h.degree ≠ 0 → within s.cfg.degMax h.degree = true →
          within s.cfg.wbMax ((h.width + 2 ^ h.degree - 1) / 2 ^ h.degree) = false ∨
            within s.cfg.hbMax ((h.height + 2 ^ h.degree - 1) / 2 ^ h.degree) = false →
          LoadFails s q fe 8 2)))

/-- A context that passed came from one of the five legal combinations, a known family, a nonzero exponent (R104, R105, R107). -/
def Obligations.ValidContextIsOneOfFive : Prop :=
  ∀ (s t : State) (q : StreamFields) (fe : FrontEnd), readFields s.fe = (some q, fe) → exec .ctxLoad s = .next t →
    t.status.ctxValid = true →
    t.ctx.opTable = 0 ∧ (t.ctx.version, t.ctx.bitCount, t.ctx.encodeType) ∈ legalTriples ∧
    (t.ctx.fmtFamily = 0 ∨ t.ctx.fmtFamily = 1) ∧ t.ctx.degree ≠ 0 ∧ t.status.fault = false

/-- CTX_LOAD touches no buffer, parameter, port or host variable, whether it succeeds, faults or sticks (R112, R261). -/
def Obligations.CtxLoadFrame : Prop :=
  ∀ s t : State, exec .ctxLoad s = .next t →
    t.cfg = s.cfg ∧ t.perm = s.perm ∧ t.arr = s.arr ∧ t.bout = s.bout ∧ t.pcol = s.pcol ∧ t.prow = s.prow ∧
    t.canvas = s.canvas ∧ t.hdr = s.hdr ∧ t.port = s.port ∧ t.rst = s.rst ∧ t.seq = s.seq

/-- A CTX_LOAD whose read is never answered ends nowhere: no flag is set, no further word is taken, and the reset pin leaves the
state (R244, R260; the form is log 9). -/
def Obligations.UnansweredReadSticks : Prop :=
  ∀ (s : State) (fe : FrontEnd), readFields s.fe = (none, fe) →
    exec .ctxLoad s = .next { s with fe := fe, stuck := true } ∧
    step { s with fe := fe, stuck := true, rst := false } = .fault .stuckInCtxLoad ∧
    ∃ t, step { s with fe := fe, stuck := true, rst := true } = .next t ∧ t.stuck = false

/-! ## PERM_BUILD, ESB_CLEAR, ARR_WRITE -/

/-- PERM_BUILD writes the four segments in the closed forms of R121 to R124, sets PERM_VALID, and changes nothing else (R120). The
loop order of segment 2 is the spec's own reading (R128). -/
def Obligations.PermBuildFillsSegments : Prop :=
  ∀ s : State, s.status.fault = false → s.status.ctxValid = true →
    s.ctx.blockArea = s.ctx.blockSize * s.ctx.blockSize → s.ctx.blockSamples = s.ctx.blockArea * s.ctx.channels →
    ∃ t, exec .permBuild s = .next t ∧
      (∀ c y x, c < s.ctx.channels → y < s.ctx.blockSize → x < s.ctx.blockSize →
        let N := s.ctx.blockSamples
        let planar := c * s.ctx.blockArea + y * s.ctx.blockSize + x
        let transposed := c * s.ctx.blockArea + x * s.ctx.blockSize + y
        let pixel := (y * s.ctx.blockSize + x) * s.ctx.channels + c
        Memory.read t.perm planar = some planar ∧ Memory.read t.perm (N + planar) = some transposed ∧
        Memory.read t.perm (2 * N + pixel) = some planar ∧ Memory.read t.perm (3 * N + pixel) = some transposed) ∧
      (∀ a, 4 * s.ctx.blockSamples ≤ a → Memory.read t.perm a = Memory.read s.perm a) ∧
      t = { s with perm := t.perm, status := { s.status with permValid := true } }

/-- After PERM_BUILD each of the four segments is a bijection on `0 .. N-1` (R126). -/
def Obligations.PermSegmentsAreBijections : Prop :=
  ∀ s : State, s.status.fault = false → s.status.ctxValid = true → s.ctx.Geometry →
    ∃ t, exec .permBuild s = .next t ∧ ∀ p, p < 4 → t.SegmentBijective p

/-- Segment 4 is segment 3 followed by segment 2; segment 2 is its own inverse; with one channel segments 3 and 4 repeat 1 and 2
(R122, R127). -/
def Obligations.PermSegmentRelations : Prop :=
  ∀ s : State, s.status.fault = false → s.status.ctxValid = true → s.ctx.Geometry →
    ∃ t, exec .permBuild s = .next t ∧ ∀ k, k < s.ctx.blockSamples →
      t.permAt (3 * s.ctx.blockSamples + k) =
        t.permAt (s.ctx.blockSamples + t.permAt (2 * s.ctx.blockSamples + k)) ∧
      t.permAt (s.ctx.blockSamples + t.permAt (s.ctx.blockSamples + k)) = k ∧
      (s.ctx.channels = 1 → t.permAt (2 * s.ctx.blockSamples + k) = t.permAt k ∧
        t.permAt (3 * s.ctx.blockSamples + k) = t.permAt (s.ctx.blockSamples + k))

/-- ESB_CLEAR sets every byte of both edge-state buffers to 0 and ESB_VALID, and changes nothing else (R160). -/
def Obligations.EsbClearZeroesEdgeState : Prop :=
  ∀ s : State, s.status.fault = false → s.status.ctxValid = true → s.status.esbValid = false →
    ∃ t, exec .esbClear s = .next t ∧
      (∀ a, Memory.read t.pcol a =
        if a < s.ctx.heightBlocks * s.ctx.blockStride then some 0 else Memory.read s.pcol a) ∧
      (∀ a, Memory.read t.prow a =
        if a < s.ctx.widthBlocks * s.ctx.blockStride then some 0 else Memory.read s.prow a) ∧
      t = { s with pcol := t.pcol, prow := t.prow, status := { s.status with esbValid := true } }

/-- ARR_WRITE puts its byte at ARRP, advances ARRP, sets ARR_FULL with the last byte of the block, and changes nothing else
(R161). -/
def Obligations.ArrWriteAppendsByte : Prop :=
  ∀ (s : State) (b : Byte), s.status.fault = false → s.status.ctxValid = true → s.status.arrFull = false →
    s.status.boutValid = false → s.status.done = false →
    ∃ t, exec (.arrWrite b) s = .next t ∧
      (∀ a, Memory.read t.arr a = if a = s.arrp then some b else Memory.read s.arr a) ∧
      t = { s with
        arr := t.arr
        arrp := s.arrp + 1
        status := { s.status with arrFull := decide (s.arrp + 1 = s.ctx.blockSamples) } }

/-! ## The rows of a transformer code, and BLK_XFORM -/

/-- The scatter rows, XF_VERBATIM among them: source sample `i` goes where entry `i` of the row's segment says; nothing else
changes (R121, R122, R123, R124, R129, R165, R166). The segment's bijection is the invariant R40 (f). A row run alone is log 7. -/
def Obligations.ScatterRowsFollowSegment : Prop :=
  ∀ (s : State) (d : BitVec 2) (c : BitVec 4) (i : Instr) (p : Nat),
    (i, p) ∈ ([(.ps0 d c, 0), (.ps1 d c, 1), (.ps2 d c, 2), (.ps3 d c, 3), (.xfVerbatim, 0)] : List (Instr × Nat)) →
    s.status.fault = false → LegalColor s.ctx.channels c → s.SegmentBijective p →
    ∃ t, exec i s = .next t ∧
      (∀ k j, k < s.ctx.blockSamples → Memory.read s.perm (p * s.ctx.blockSamples + k) = some j →
        Memory.read t.bout j = some (s.arrAt k)) ∧
      (∀ a, s.ctx.blockSamples ≤ a → Memory.read t.bout a = Memory.read s.bout a) ∧
      t = { s with bout := t.bout }

/-- The seven identity colour ops change nothing, whatever the number of channels, and take no fault (R142 to R146, R150, R154). A
row run alone is log 7. -/
def Obligations.IdentityColorRows : Prop :=
  ∀ (s : State) (d p : BitVec 2) (i : Instr),
    i ∈ ([.cpId0 d p, .cpId1 d p, .cpId2 d p, .cpId3 d p, .cpId4 d p, .cpId8 d p, .cpId12 d p] : List Instr) →
    exec i s = .next s

/-- The six single-target colour ops: the base plane is added, modulo 256, into the target plane, and nothing else changes; with
fewer than three channels, IllegalCode (R147, R148, R151, R152, R155, R156). A row run alone is log 7. -/
def Obligations.SingleTargetColorRows : Prop :=
  ∀ (s : State) (d p : BitVec 2) (i : Instr) (target base : Nat),
    (i, target, base) ∈ ([(.cp1p0 d p, 1, 0), (.cp2p0 d p, 2, 0), (.cp0p1 d p, 0, 1), (.cp2p1 d p, 2, 1),
      (.cp0p2 d p, 0, 2), (.cp1p2 d p, 1, 2)] : List (Instr × Nat × Nat)) →
    s.status.fault = false →
    (3 ≤ s.ctx.channels → ∃ t, exec i s = .next t ∧
      (∀ k, k < s.ctx.blockArea → Memory.read t.bout (target * s.ctx.blockArea + k) =
        some (s.boutAt (target * s.ctx.blockArea + k) + s.boutAt (base * s.ctx.blockArea + k))) ∧
      (∀ a, ¬ (target * s.ctx.blockArea ≤ a ∧ a < target * s.ctx.blockArea + s.ctx.blockArea) →
        Memory.read t.bout a = Memory.read s.bout a) ∧
      t = { s with bout := t.bout }) ∧
    (s.ctx.channels < 3 → ∃ code, encode i = .row .cpl code ∧ exec i s = .next (faulted s 5 code))

/-- The three dual-target colour ops: both targets receive the ORIGINAL sample of the base plane, and nothing else changes; with
fewer than three channels, IllegalCode (R141, R149, R153, R157). A row run alone is log 7. -/
def Obligations.DualTargetColorRows : Prop :=
  ∀ (s : State) (d p : BitVec 2) (i : Instr) (target₁ target₂ base : Nat),
    (i, target₁, target₂, base) ∈ ([(.cp12p0 d p, 1, 2, 0), (.cp02p1 d p, 0, 2, 1), (.cp01p2 d p, 0, 1, 2)] :
      List (Instr × Nat × Nat × Nat)) →
    s.status.fault = false →
    (3 ≤ s.ctx.channels → ∃ t, exec i s = .next t ∧
      (∀ k, k < s.ctx.blockArea →
        Memory.read t.bout (target₁ * s.ctx.blockArea + k) =
          some (s.boutAt (target₁ * s.ctx.blockArea + k) + s.boutAt (base * s.ctx.blockArea + k)) ∧
        Memory.read t.bout (target₂ * s.ctx.blockArea + k) =
          some (s.boutAt (target₂ * s.ctx.blockArea + k) + s.boutAt (base * s.ctx.blockArea + k))) ∧
      (∀ a, ¬ (target₁ * s.ctx.blockArea ≤ a ∧ a < target₁ * s.ctx.blockArea + s.ctx.blockArea) →
        ¬ (target₂ * s.ctx.blockArea ≤ a ∧ a < target₂ * s.ctx.blockArea + s.ctx.blockArea) →
        Memory.read t.bout a = Memory.read s.bout a) ∧
      t = { s with bout := t.bout }) ∧
    (s.ctx.channels < 3 → ∃ code, encode i = .row .cpl code ∧ exec i s = .next (faulted s 5 code))

/-- The colour row of every code leaves the fourth plane unchanged (R159). A row run alone is log 7. -/
def Obligations.FourthPlanePassesColorOps : Prop :=
  ∀ (s : State) (code : Byte) (a : Nat), code ≠ 0 → 3 * s.ctx.blockArea ≤ a →
    ∃ t, exec (decodeRow .cpl code) s = .next t ∧ Memory.read t.bout a = Memory.read s.bout a

/-- HD_ACCUM: every sample becomes the sum of the seed and its row up to itself; the column state takes the final running value;
nothing else changes (R168, R169). A row run alone is log 7. -/
def Obligations.AccumulateRow : Prop :=
  ∀ (s : State) (d1 : BitVec 1) (p : BitVec 2) (c : BitVec 4), s.status.fault = false → LegalColor s.ctx.channels c →
    ∃ t, exec (.hdAccum d1 p c) s = .next t ∧
      (∀ r x, r < s.ctx.blockStride → x < s.ctx.blockSize →
        Memory.read t.bout (r * s.ctx.blockSize + x) =
          some (s.pcolAt (s.blkY * s.ctx.blockStride + r) +
            sumTo (fun j => s.boutAt (r * s.ctx.blockSize + j)) (x + 1))) ∧
      (∀ r, r < s.ctx.blockStride → Memory.read t.pcol (s.blkY * s.ctx.blockStride + r) =
        some (s.pcolAt (s.blkY * s.ctx.blockStride + r) +
          sumTo (fun j => s.boutAt (r * s.ctx.blockSize + j)) s.ctx.blockSize)) ∧
      (∀ a, s.ctx.blockStride * s.ctx.blockSize ≤ a → Memory.read t.bout a = Memory.read s.bout a) ∧
      (∀ a, ¬ (s.blkY * s.ctx.blockStride ≤ a ∧ a < s.blkY * s.ctx.blockStride + s.ctx.blockStride) →
        Memory.read t.pcol a = Memory.read s.pcol a) ∧
      t = { s with bout := t.bout, pcol := t.pcol }

/-- HD_CAPTURE: BOUT stays; the column state takes the last sample of each row; nothing else changes (R168, R170). A row run
alone is log 7. -/
def Obligations.CaptureRow : Prop :=
  ∀ (s : State) (d1 : BitVec 1) (p : BitVec 2) (c : BitVec 4), s.status.fault = false → LegalColor s.ctx.channels c →
    ∃ t, exec (.hdCapture d1 p c) s = .next t ∧
      (∀ r, r < s.ctx.blockStride → Memory.read t.pcol (s.blkY * s.ctx.blockStride + r) =
        some (s.boutAt (r * s.ctx.blockSize + (s.ctx.blockSize - 1)))) ∧
      (∀ a, ¬ (s.blkY * s.ctx.blockStride ≤ a ∧ a < s.blkY * s.ctx.blockStride + s.ctx.blockStride) →
        Memory.read t.pcol a = Memory.read s.pcol a) ∧
      t = { s with pcol := t.pcol }

/-- In both branches the column state ends equal to the last sample of each row as BOUT holds it: what R171 says of step 5 of
BLK_XFORM, for the two rows of that step run alone (log 7). -/
def Obligations.ColumnStateIsRightEdge : Prop :=
  ∀ (s : State) (d1 : BitVec 1) (p : BitVec 2) (c : BitVec 4) (i : Instr),
    i ∈ ([.hdAccum d1 p c, .hdCapture d1 p c] : List Instr) → s.status.fault = false → LegalColor s.ctx.channels c →
    0 < s.ctx.blockSize →
    ∃ t, exec i s = .next t ∧ ∀ r, r < s.ctx.blockStride →
      t.pcolAt (s.blkY * s.ctx.blockStride + r) = t.boutAt (r * s.ctx.blockSize + (s.ctx.blockSize - 1))

/-- VD_ADD, chained: every sample becomes the sum of the row state and its column down to itself; the row state takes the last row;
nothing else changes (R172, R174, and reading A of R173). A row run alone is log 7. -/
def Obligations.VerticalChained : Prop :=
  ∀ (s : State) (d p : BitVec 2) (c : BitVec 4), s.status.fault = false → LegalColor s.ctx.channels c →
    s.cfg.vpredChained = true → s.ctx.blockArea = s.ctx.blockSize * s.ctx.blockSize →
    ∃ t, exec (.vdAdd d p c) s = .next t ∧
      (∀ ch y x, ch < s.ctx.channels → y < s.ctx.blockSize → x < s.ctx.blockSize →
        Memory.read t.bout (ch * s.ctx.blockArea + y * s.ctx.blockSize + x) =
          some (s.prowAt (s.blkX * s.ctx.blockStride + ch * s.ctx.blockSize + x) +
            sumTo (fun j => s.boutAt (ch * s.ctx.blockArea + j * s.ctx.blockSize + x)) (y + 1))) ∧
      (∀ ch x, ch < s.ctx.channels → x < s.ctx.blockSize →
        Memory.read t.prow (s.blkX * s.ctx.blockStride + ch * s.ctx.blockSize + x) =
          some (s.prowAt (s.blkX * s.ctx.blockStride + ch * s.ctx.blockSize + x) +
            sumTo (fun j => s.boutAt (ch * s.ctx.blockArea + j * s.ctx.blockSize + x)) s.ctx.blockSize)) ∧
      (∀ a, s.ctx.channels * s.ctx.blockArea ≤ a → Memory.read t.bout a = Memory.read s.bout a) ∧
      (∀ a, ¬ (s.blkX * s.ctx.blockStride ≤ a ∧
          a < s.blkX * s.ctx.blockStride + s.ctx.channels * s.ctx.blockSize) →
        Memory.read t.prow a = Memory.read s.prow a) ∧
      t = { s with bout := t.bout, prow := t.prow }

/-- VD_ADD, not chained: the same row state is added to every row; the row state takes the last row; nothing else changes (reading
B of R173, with R172 and R174). A row run alone is log 7. -/
def Obligations.VerticalUnchained : Prop :=
  ∀ (s : State) (d p : BitVec 2) (c : BitVec 4), s.status.fault = false → LegalColor s.ctx.channels c →
    s.cfg.vpredChained = false → s.ctx.blockArea = s.ctx.blockSize * s.ctx.blockSize →
    ∃ t, exec (.vdAdd d p c) s = .next t ∧
      (∀ ch y x, ch < s.ctx.channels → y < s.ctx.blockSize → x < s.ctx.blockSize →
        Memory.read t.bout (ch * s.ctx.blockArea + y * s.ctx.blockSize + x) =
          some (s.boutAt (ch * s.ctx.blockArea + y * s.ctx.blockSize + x) +
            s.prowAt (s.blkX * s.ctx.blockStride + ch * s.ctx.blockSize + x))) ∧
      (∀ ch x, ch < s.ctx.channels → x < s.ctx.blockSize →
        Memory.read t.prow (s.blkX * s.ctx.blockStride + ch * s.ctx.blockSize + x) =
          some (s.boutAt (ch * s.ctx.blockArea + (s.ctx.blockSize - 1) * s.ctx.blockSize + x) +
            s.prowAt (s.blkX * s.ctx.blockStride + ch * s.ctx.blockSize + x))) ∧
      (∀ a, s.ctx.channels * s.ctx.blockArea ≤ a → Memory.read t.bout a = Memory.read s.bout a) ∧
      (∀ a, ¬ (s.blkX * s.ctx.blockStride ≤ a ∧
          a < s.blkX * s.ctx.blockStride + s.ctx.channels * s.ctx.blockSize) →
        Memory.read t.prow a = Memory.read s.prow a) ∧
      t = { s with bout := t.bout, prow := t.prow }

/-- BLK_XFORM is the rows of its code one after another, then the completion (R91, R162, R166, R175, R176). That a row is an
instruction of its own is log 7. -/
def Obligations.TransformIsItsRowsInOrder : Prop :=
  ∀ (s : State) (code : Byte), s.ReadyToTransform → LegalColor s.ctx.channels (colorOp code) →
    ∃ t, execAll (rowsOf code) s = .next t ∧
      exec (.blkXform code) s = .next { t with status := s.transformedStatus, arrp := 0 }

/-- What BLK_XFORM writes and what it does not: all of BOUT, the two edge-state slots of its block, the flags and ARRP (R162). The
geometry and the bijections are the invariants R40 (c) and (f). -/
def Obligations.TransformFrame : Prop :=
  ∀ (s : State) (code : Byte), s.ReadyToTransform → LegalColor s.ctx.channels (colorOp code) → s.ctx.Geometry →
    (∀ p, p < 4 → s.SegmentBijective p) →
    ∃ t, exec (.blkXform code) s = .next t ∧
      (∀ a, a < s.ctx.blockSamples → (Memory.read t.bout a).isSome) ∧
      (∀ a, s.ctx.blockSamples ≤ a → Memory.read t.bout a = Memory.read s.bout a) ∧
      (∀ a, ¬ (s.blkY * s.ctx.blockStride ≤ a ∧ a < s.blkY * s.ctx.blockStride + s.ctx.blockStride) →
        Memory.read t.pcol a = Memory.read s.pcol a) ∧
      (∀ a, ¬ (s.blkX * s.ctx.blockStride ≤ a ∧ a < s.blkX * s.ctx.blockStride + s.ctx.blockStride) →
        Memory.read t.prow a = Memory.read s.prow a) ∧
      t = { s with bout := t.bout, pcol := t.pcol, prow := t.prow, arrp := 0, status := s.transformedStatus }

/-- A verbatim block: the scatter, the flags, and nothing else; the edge state is neither consumed nor refreshed (R166, R176). -/
def Obligations.VerbatimBlockKeepsEdgeState : Prop :=
  ∀ s : State, s.ReadyToTransform → s.SegmentBijective 0 →
    ∃ t, exec (.blkXform 0) s = .next t ∧
      (∀ k j, k < s.ctx.blockSamples → Memory.read s.perm k = some j → Memory.read t.bout j = some (s.arrAt k)) ∧
      (∀ a, s.ctx.blockSamples ≤ a → Memory.read t.bout a = Memory.read s.bout a) ∧
      t = { s with bout := t.bout, arrp := 0, status := s.transformedStatus }

/-- `diff_mode` bit 1 selects nothing: codes that differ only in it, both nonzero, have the same effect (R82, R179 (c)). -/
def Obligations.DiffModeHighBitHasNoEffect : Prop :=
  ∀ (s : State) (code : Byte), code &&& 0x7F ≠ 0 → LegalColor s.ctx.channels (colorOp code) →
    exec (.blkXform (code ||| 0x80)) s = exec (.blkXform code) s

/-- A one-channel block with the grayscale code 0xC0: each sample becomes the row state of its column plus, for each row down to its
own, the column state of that row and the row's samples up to its own column (R165, R169, R172 together). The first segment is the
identity by R121. -/
def Obligations.GrayBlockIsDoubleRunningSum : Prop :=
  ∀ s : State, s.ReadyToTransform → s.ctx.Geometry → s.ctx.channels = 1 → s.cfg.vpredChained = true →
    (∀ k, k < s.ctx.blockSamples → Memory.read s.perm k = some k) →
    ∃ t, exec (.blkXform 0xC0) s = .next t ∧ ∀ y x, y < s.ctx.blockSize → x < s.ctx.blockSize →
      Memory.read t.bout (y * s.ctx.blockSize + x) =
        some (s.prowAt (s.blkX * s.ctx.blockStride + x) +
          sumTo (fun j => s.pcolAt (s.blkY * s.ctx.blockStride + j) +
            sumTo (fun k => s.arrAt (j * s.ctx.blockSize + k)) (x + 1)) (y + 1))

/-! ## BLK_EMIT -/

/-- BLK_EMIT puts every sample of BOUT at its canvas byte, clears BOUT_VALID, advances the block counter in row-major order, sets
DONE after the last block, and changes nothing else (R66, R190, R192). That the block is inside the grid is the invariant
R40 (e). -/
def Obligations.EmitScattersBlockAndAdvances : Prop :=
  ∀ s : State, s.status.fault = false → s.status.boutValid = true → s.blkX < s.ctx.widthBlocks →
    ∃ t, exec .blkEmit s = .next t ∧
      (∀ c y x, c < s.ctx.channels → y < s.ctx.blockSize → x < s.ctx.blockSize →
        Memory.read t.canvas (((s.blkY * s.ctx.blockSize + y) * (s.ctx.widthBlocks * s.ctx.blockSize) +
            (s.blkX * s.ctx.blockSize + x)) * s.ctx.channels + c) =
          some (s.boutAt (c * s.ctx.blockArea + y * s.ctx.blockSize + x))) ∧
      (∀ a, (∀ c y x, c < s.ctx.channels → y < s.ctx.blockSize → x < s.ctx.blockSize →
          ((s.blkY * s.ctx.blockSize + y) * (s.ctx.widthBlocks * s.ctx.blockSize) +
            (s.blkX * s.ctx.blockSize + x)) * s.ctx.channels + c ≠ a) →
        Memory.read t.canvas a = Memory.read s.canvas a) ∧
      t.blkX = (if s.blkX + 1 < s.ctx.widthBlocks then s.blkX + 1 else 0) ∧
      t.blkY = (if s.blkX + 1 < s.ctx.widthBlocks then s.blkY else s.blkY + 1) ∧
      t = { s with
        canvas := t.canvas
        blkX := t.blkX
        blkY := t.blkY
        status := { s.status with boutValid := false, done := s.status.done || decide (t.blkY = s.ctx.heightBlocks) } }

/-! ## Rules of the whole machine -/

/-- No command but CTX_LOAD writes a context register, and CTX_LOAD begins a new decode call (R25). -/
def Obligations.OnlyLoadWritesContext : Prop :=
  (∀ (i : Instr) (s t : State), i ≠ .ctxLoad → exec i s = .next t → t.ctx = s.ctx) ∧
  (∀ (s t : State) (q : StreamFields) (fe : FrontEnd), readFields s.fe = (some q, fe) → exec .ctxLoad s = .next t →
    t.arrp = 0 ∧ t.blkX = 0 ∧ t.blkY = 0 ∧ t.status.permValid = false ∧ t.status.esbValid = false ∧
    t.status.arrFull = false ∧ t.status.boutValid = false)

/-- The block counter is written by CTX_LOAD and BLK_EMIT only (R28). -/
def Obligations.OnlyEmitAdvancesCounter : Prop :=
  ∀ (i : Instr) (s t : State), i ≠ .ctxLoad → i ≠ .blkEmit → exec i s = .next t → t.blkX = s.blkX ∧ t.blkY = s.blkY

/-- Who writes which buffer (the table of R60): PERM only PERM_BUILD, ARR only ARR_WRITE, CANVAS only BLK_EMIT, the edge state only
ESB_CLEAR, BLK_XFORM and its rows, BOUT only BLK_XFORM and its rows. -/
def Obligations.BufferWriters : Prop :=
  ∀ (i : Instr) (s t : State), exec i s = .next t →
    (i ≠ .permBuild → t.perm = s.perm) ∧ ((∀ b, i ≠ .arrWrite b) → t.arr = s.arr) ∧ (i ≠ .blkEmit → t.canvas = s.canvas) ∧
    (i ∈ ([.ctxLoad, .permBuild, .blkEmit] : List Instr) ∨ (∃ b, i = .arrWrite b) → t.pcol = s.pcol ∧ t.prow = s.prow) ∧
    (i ∈ ([.ctxLoad, .permBuild, .esbClear, .blkEmit] : List Instr) ∨ (∃ b, i = .arrWrite b) → t.bout = s.bout)

/-- No step changes the instance's parameters (R8). -/
def Obligations.StepKeepsParameters : Prop :=
  ∀ s t : State, step s = .next t → t.cfg = s.cfg

/-! ## Invariants -/

/-- Reset meets the invariants (R40), the promise of the flags (R263), and holds its buffers in canonical form. -/
def Obligations.ResetMeetsInvariants : Prop :=
  State.reset.Inv ∧ State.reset.Written ∧ State.reset.MemoryWf

/-- Every step, of the BTE, of the host or of the reset pin, keeps the invariants R40 (a) to (f), from every state that meets
them. -/
def Obligations.StepKeepsInvariants : Prop :=
  ∀ s t : State, s.Inv → step s = .next t → t.Inv

/-- Every step keeps every buffer in canonical form (20_memory.md R60, R64; the form is the model's, log 3). -/
def Obligations.StepKeepsMemoryWf : Prop :=
  ∀ s t : State, s.MemoryWf → step s = .next t → t.MemoryWf

/-- Every step keeps what the flags promise: the elements a command may read are written (R263). -/
def Obligations.StepKeepsWritten : Prop :=
  ∀ s t : State, s.Inv → s.Written → step s = .next t → t.Written

/-- No command's result depends on an element nothing has written: under the invariants, a command does the same whatever the
free values of unwritten elements are, which the counter names (R37, R263; log 3). CTX_LOAD apart, which reads no buffer. -/
def Obligations.CommandsSeeNoUnwrittenElement : Prop :=
  ∀ (s t : State) (i : Instr) (k : Nat), s.Inv → s.Written →
    (i = .permBuild ∨ i = .esbClear ∨ (∃ b, i = .arrWrite b) ∨ (∃ code, i = .blkXform code) ∨ i = .blkEmit) →
    exec i s = .next t → exec i { s with freeCtr := k } = .next { t with freeCtr := k }

/-- Nothing of one decode call reaches the next: from two states that agree but for stale elements, a command leaves two states that
agree but for stale elements, and the bytes it puts on the canvas are the same (R261, R263). -/
def Obligations.StaleElementsReachNoResult : Prop :=
  ∀ (s t s' : State) (i : Instr), s.Inv → s.AgreesLive t →
    (i = .ctxLoad ∨ i = .permBuild ∨ i = .esbClear ∨ (∃ b, i = .arrWrite b) ∨ (∃ code, i = .blkXform code) ∨ i = .blkEmit) →
    exec i s = .next s' → ∃ t', exec i t = .next t' ∧ s'.AgreesLive t' ∧
      ∀ a, Memory.read t'.canvas a = Memory.read s'.canvas a ∨
        (Memory.read s'.canvas a = Memory.read s.canvas a ∧ Memory.read t'.canvas a = Memory.read t.canvas a)

/-! ## The observation port -/

/-- The register numbers of space 0 (R70). That the context registers read as stored before the first CTX_LOAD, when R70 gives them no
value, is the model's choice (log 10, with log 2). -/
def Obligations.ObservationRegisters : Prop :=
  ∀ s : State,
    observe s 0 0 = s.status.word.toNat ∧ observe s 0 1 = s.err.toNat ∧ observe s 0 2 = s.errInfo.toNat ∧
    observe s 0 3 = s.ctx.version.toNat ∧ observe s 0 4 = s.ctx.opTable.toNat ∧ observe s 0 5 = s.ctx.encodeType.toNat ∧
    observe s 0 6 = s.ctx.bitCount.toNat ∧ observe s 0 7 = s.ctx.fmtFamily.toNat + 4 * s.ctx.fmtAlpha.toNat ∧
    observe s 0 8 = s.ctx.depth ∧ observe s 0 9 = s.ctx.width ∧ observe s 0 10 = s.ctx.height ∧
    observe s 0 11 = s.ctx.degree ∧ observe s 0 12 = s.ctx.channels ∧ observe s 0 13 = s.ctx.blockSize ∧
    observe s 0 14 = s.ctx.blockArea ∧ observe s 0 15 = s.ctx.blockSamples ∧ observe s 0 16 = s.ctx.blockStride ∧
    observe s 0 17 = s.ctx.widthBlocks ∧ observe s 0 18 = s.ctx.heightBlocks ∧ observe s 0 19 = s.blkX ∧
    observe s 0 20 = s.blkY ∧ observe s 0 21 = s.arrp

/-- A written element inside its space's extent is what the port gives, space by space (R60, R70). That an element left by an
earlier decode call, whose value the spec leaves open (93 U2, U13), reads as stored is the model's choice (log 10). -/
def Obligations.ObservationElements : Prop :=
  ∀ (s : State) (a : Nat),
    (∀ v, a < 4 * s.ctx.blockSamples → Memory.read s.perm a = some v → observe s 1 a = v) ∧
    (∀ v, a < s.ctx.blockSamples → Memory.read s.arr a = some v → observe s 2 a = v.toNat) ∧
    (∀ v, a < s.ctx.blockSamples → Memory.read s.bout a = some v → observe s 3 a = v.toNat) ∧
    (∀ v, a < s.ctx.heightBlocks * s.ctx.blockStride → Memory.read s.pcol a = some v → observe s 4 a = v.toNat) ∧
    (∀ v, a < s.ctx.widthBlocks * s.ctx.blockStride → Memory.read s.prow a = some v → observe s 5 a = v.toNat) ∧
    (∀ v, a < s.ctx.widthBlocks * s.ctx.blockSize * s.ctx.heightBlocks * s.ctx.blockSize * s.ctx.channels →
      Memory.read s.canvas a = some v → observe s 6 a = v.toNat)

/-! ## The surroundings -/

/-- The grayscale and indexed path of the supplier: a fixed code, and a front-end reset exactly when the architecture is gamma and
bit 0 of encode_type is clear (R203, R207). -/
def Obligations.SupplierFixedCode : Prop :=
  ∀ s : State, s.ctx.channels < 3 →
    supply s = .gives (if s.ctx.fmtFamily = 1 then 0xC0 else 0x00)
      (if s.seq.arch = .gamma ∧ s.ctx.encodeType.getLsbD 0 = false then s.fe.resync else s.fe)

/-- The supplier with three channels or more. Not bulk: gamma gives four raw bits OR 0xC0, so codes 0xC0 to 0xCF, then a reset;
Huffman gives one symbol, no reset; any other architecture fails `NotSupported`; the prefetch buffer stays. Bulk: the head of the
prefetch buffer, which is popped, with no front-end call (R204, R205, R206). -/
def Obligations.SupplierMultiChannelCode : Prop :=
  ∀ s : State, 3 ≤ s.ctx.channels →
    (s.ctx.encodeType.getLsbD 0 = false →
      codesAfterSupply s = s.seq.codes ∧
      (∀ v f, s.seq.arch = .gamma → s.fe.readBits 4 = (some v, f) →
        ∃ code, supply s = .gives code f.resync ∧ code = 0xC0#8 ||| BitVec.ofNat 8 v ∧ code &&& 0xF0 = 0xC0 ∧ v < 16) ∧
      (∀ code f, s.seq.arch = .huffman → s.fe.symbol = (some code, f) → supply s = .gives code f) ∧
      (s.seq.arch = .other → supply s = .fails ⟨4, 0⟩ s.fe)) ∧
    (s.ctx.encodeType.getLsbD 0 = true →
      ∀ c rest, s.seq.codes = c :: rest → supply s = .gives c s.fe ∧ codesAfterSupply s = rest)

/-- The bulk prefetch (R208). Gamma: the codes are the answers to the next reads in order, cut to four bits, OR 0xC0, each read
followed by a reset. Huffman: they are the answers to the next symbol calls in order. Any other architecture fails `NotSupported`
unless no code is asked for. A read never answered blocks it (R244). The host asks for `WB*HB` codes, in bulk mode with three
channels or more. The answers are those of the oracle of log 6. -/
def Obligations.PrefetchReadsOneCodePerBlock : Prop :=
  (∀ (fe : FrontEnd) (vs : List Nat), (∀ j v, vs[j]? = some v → fe.answer j (fe.calls + 2 * j) = some v) →
    prefetch .gamma vs.length fe = .gives (vs.map fun v => 0xC0#8 ||| BitVec.ofNat 8 (v % 16))
      { script := fe.script.drop vs.length, calls := fe.calls + 2 * vs.length, rawBits := fe.rawBits + 4 * vs.length,
        resets := fe.resets + vs.length }) ∧
  (∀ (fe : FrontEnd) (vs : List Nat), (∀ j v, vs[j]? = some v → fe.answer j (fe.calls + j) = some v) →
    prefetch .huffman vs.length fe = .gives (vs.map (BitVec.ofNat 8))
      { fe with script := fe.script.drop vs.length, calls := fe.calls + vs.length }) ∧
  (∀ (fe : FrontEnd) (n : Nat), prefetch .other n fe = if n = 0 then .gives [] fe else .fails ⟨4, 0⟩ fe) ∧
  (∀ (arch : Arch) (fe : FrontEnd) (n : Nat), arch ≠ .other → none ∈ fe.script.take n → prefetch arch n fe = .blocked) ∧
  ∀ (s : State) (codes : List Byte) (g : FrontEnd), s.seq.phase = .cleared → 3 ≤ s.ctx.channels →
    s.ctx.encodeType.getLsbD 0 = true → prefetch s.seq.arch (s.ctx.widthBlocks * s.ctx.heightBlocks) s.fe = .gives codes g →
    hostTurn s = .next { s with fe := g, seq := { s.seq with phase := .sync, codes := codes } } ∧
      codes.length = s.ctx.widthBlocks * s.ctx.heightBlocks

/-- The stream synchronisation: the bit is tested before the architecture is looked at (R209). -/
def Obligations.SyncTestsBitFirst : Prop :=
  ∀ (s : State) (b : Nat) (f : FrontEnd), s.fe.readBits 1 = (some b, f) →
    (b ≠ 0 → syncStream s = .fails ⟨1, 4⟩ f) ∧
    (b = 0 → s.seq.arch = .other → syncStream s = .fails ⟨4, 0⟩ f) ∧
    (b = 0 → s.seq.arch = .huffman → syncStream s = .gives () f.resync) ∧
    (b = 0 → s.seq.arch = .gamma → s.ctx.encodeType.getLsbD 0 = true → syncStream s = .gives () f.resync) ∧
    (b = 0 → s.seq.arch = .gamma → s.ctx.encodeType.getLsbD 0 = false → syncStream s = .gives () f)

/-- The cropper keeps the top-left `W` by `H` pixels of the canvas, channels interleaved (R214, R215). -/
def Obligations.CropKeepsTopLeft : Prop :=
  ∀ s : State, (cropped s).length = s.ctx.width * s.ctx.height * s.ctx.channels ∧
    ∀ y x c, y < s.ctx.height → x < s.ctx.width → c < s.ctx.channels →
      (cropped s)[(y * s.ctx.width + x) * s.ctx.channels + c]? =
        some (BitVec.ofNat 8 (observe s 6 ((y * (s.ctx.widthBlocks * s.ctx.blockSize) + x) * s.ctx.channels + c)))

/-- The host issues commands only: every word it leaves at the port decodes to one of the six (R210, R211, R216). -/
def Obligations.HostIssuesOnlyCommands : Prop :=
  ∀ s t : State, s.port = [] → hostTurn s = .next t →
    ∀ it ∈ t.port, ∃ w i, it = .command w ∧ decode it = .ok i

/-- The host reaches the BTE only through its ports: whatever it does, every register and buffer stays (00_scope.md R5 (b),
10_state.md R38, 93 U22). The host as an agent of the step is log 8. -/
def Obligations.HostTouchesOnlyPorts : Prop :=
  ∀ s t : State, hostTurn s = .next t → t = { s with hdr := t.hdr, fe := t.fe, port := t.port, seq := t.seq }

/-- The order of one decode call, move by move, with the words each move leaves at the port and the front-end calls it makes
(R210, R211, R212, R268). A move is made when the port is empty; one line of the program a move is the model's (log 8). -/
def Obligations.HostProgramOrder : Prop :=
  ∀ s : State, s.rst = false → s.stuck = false → s.port = [] →
    (s.seq.phase ∈ ([.idle, .finished, .failed] : List Phase) →
      (s.seq.jobs = [] → step s = .next s) ∧
      (∀ j rest, s.seq.jobs = j :: rest → step s = .next { s with
        hdr := j.hdr
        port := [.command 0x100]
        seq := { jobs := rest, phase := .loaded, arch := j.arch, block := 0, codes := [], code := 0, buf := [],
                 failure := none, out := [] } })) ∧
    (s.seq.phase = .loaded → s.status.fault = false →
      step s = .next { s with port := [.command 0x200], seq := { s.seq with phase := .built } }) ∧
    (s.seq.phase ∈ ([.loaded, .emit] : List Phase) → s.status.fault = true →
      step s = .next { s with seq := { s.seq with phase := .failed, failure := some ⟨s.err, s.errInfo⟩ } }) ∧
    (s.seq.phase = .built → step s = .next { s with port := [.command 0x300], seq := { s.seq with phase := .cleared } }) ∧
    (s.seq.phase = .cleared → s.ctx.channels < 3 ∨ s.ctx.encodeType.getLsbD 0 = false →
      step s = .next { s with seq := { s.seq with phase := .sync } }) ∧
    (s.seq.phase = .cleared → 3 ≤ s.ctx.channels → s.ctx.encodeType.getLsbD 0 = true →
      (∀ codes g, prefetch s.seq.arch (s.ctx.widthBlocks * s.ctx.heightBlocks) s.fe = .gives codes g →
        step s = .next { s with fe := g, seq := { s.seq with phase := .sync, codes := codes } }) ∧
      (∀ e g, prefetch s.seq.arch (s.ctx.widthBlocks * s.ctx.heightBlocks) s.fe = .fails e g →
        step s = .next { s with fe := g, seq := { s.seq with phase := .failed, failure := some e } })) ∧
    (s.seq.phase = .sync →
      (∀ g, syncStream s = .gives () g → step s = .next { s with fe := g, seq := { s.seq with phase := .block } }) ∧
      (∀ e g, syncStream s = .fails e g →
        step s = .next { s with fe := g, seq := { s.seq with phase := .failed, failure := some e } })) ∧
    (s.seq.phase = .block → s.ctx.widthBlocks * s.ctx.heightBlocks ≤ s.seq.block →
      step s = .next { s with seq := { s.seq with phase := .crop } }) ∧
    (s.seq.phase = .block → s.seq.block < s.ctx.widthBlocks * s.ctx.heightBlocks →
      (∀ c g, supply s = .gives c g → step s = .next { s with
        fe := g
        seq := { s.seq with phase := .decode, code := c, codes := codesAfterSupply s } }) ∧
      (∀ e g, supply s = .fails e g →
        step s = .next { s with fe := g, seq := { s.seq with phase := .failed, failure := some e } })) ∧
    (s.seq.phase = .decode → ∀ vs : List Nat, vs.length = s.ctx.blockSamples →
      (∀ j v, vs[j]? = some v → s.fe.answer j (s.fe.calls + j) = some v) →
      step s = .next { s with
        fe := { s.fe with script := s.fe.script.drop vs.length, calls := s.fe.calls + vs.length }
        seq := { s.seq with phase := .write, buf := vs.map (BitVec.ofNat 8) } }) ∧
    (s.seq.phase = .write → step s = .next { s with
      port := s.seq.buf.map fun b => .command (commandOf 4 b)
      seq := { s.seq with phase := .transform } }) ∧
    (s.seq.phase = .transform → step s = .next { s with
      port := [.command (commandOf 5 s.seq.code)]
      seq := { s.seq with phase := .emit } }) ∧
    (s.seq.phase = .emit → s.status.fault = false → step s = .next { s with
      port := [.command 0x600]
      seq := { s.seq with phase := .block, block := s.seq.block + 1 } }) ∧
    (s.seq.phase = .crop → step s = .next { s with seq := { s.seq with phase := .finished, out := cropped s } })
end

