-- ==== Sys2Proof/Laws/Addresses.lean ====
section
/-! SUPPORT. Effective addresses: distinct elements have distinct addresses, inside their spaces (20_memory.md R63, R65, R66). -/

namespace Sys2Proof.Machine

/-- A quotient and remainder are unique. -/
theorem pair_inj {n a b c d : Nat} (hb : b < n) (hd : d < n) (h : a * n + b = c * n + d) : a = c ∧ b = d := by
  have hn : 0 < n := by omega
  have h1 : (a * n + b) / n = a := by
    rw [Nat.mul_comm, Nat.mul_add_div hn, Nat.div_eq_of_lt hb, Nat.add_zero]
  have h2 : (c * n + d) / n = c := by
    rw [Nat.mul_comm, Nat.mul_add_div hn, Nat.div_eq_of_lt hd, Nat.add_zero]
  have hac : a = c := by rw [← h1, ← h2, h]
  subst hac
  exact ⟨rfl, by omega⟩

theorem pair_lt {n m a b : Nat} (ha : a < m) (hb : b < n) : a * n + b < m * n := by
  have h : (a + 1) * n ≤ m * n := Nat.mul_le_mul_right n ha
  have e : (a + 1) * n = a * n + n := Nat.succ_mul a n
  omega

/-- Distinct samples of a block have distinct addresses, when planes are `S*S` long. -/
theorem planarAddr_inj {g : Context} (hA : g.blockArea = g.blockSize * g.blockSize) {c y x c' y' x' : Nat}
    (hy : y < g.blockSize) (hx : x < g.blockSize) (hy' : y' < g.blockSize) (hx' : x' < g.blockSize)
    (h : planarAddr g c y x = planarAddr g c' y' x') : c = c' ∧ y = y' ∧ x = x' := by
  unfold planarAddr at h
  rw [hA, Nat.add_assoc, Nat.add_assoc] at h
  obtain ⟨hc, hr⟩ := pair_inj (pair_lt hy hx) (pair_lt hy' hx') h
  exact ⟨hc, pair_inj hx hx' hr⟩

theorem planarAddr_lt {g : Context} (hA : g.blockArea = g.blockSize * g.blockSize) {n c y x : Nat} (hc : c < n)
    (hy : y < g.blockSize) (hx : x < g.blockSize) : planarAddr g c y x < n * g.blockArea := by
  unfold planarAddr
  have h := pair_lt hy hx
  rw [← hA] at h
  have := pair_lt (n := g.blockArea) hc h
  omega

theorem rowAddr_inj {g : Context} {r x r' x' : Nat} (hx : x < g.blockSize) (hx' : x' < g.blockSize)
    (h : rowAddr g r x = rowAddr g r' x') : r = r' ∧ x = x' :=
  pair_inj hx hx' h

theorem prowAddr_inj {g : Context} {b c x c' x' : Nat} (hx : x < g.blockSize) (hx' : x' < g.blockSize)
    (h : prowAddr g b c x = prowAddr g b c' x') : c = c' ∧ x = x' := by
  unfold prowAddr at h
  exact pair_inj hx hx' (by omega)

theorem pcolAddr_inj {g : Context} {b r r' : Nat} (h : pcolAddr g b r = pcolAddr g b r') : r = r' := by
  unfold pcolAddr at h
  omega

/-- Distinct samples of a block go to distinct canvas bytes (44_frame_assembler.md R190), for a block inside the grid. -/
theorem emitAddr_inj {g : Context} {bx bY c y x c' y' x' : Nat} (hbx : bx < g.widthBlocks)
    (hc : c < g.channels) (hc' : c' < g.channels) (hx : x < g.blockSize) (hx' : x' < g.blockSize)
    (h : emitAddr g bx bY c y x = emitAddr g bx bY c' y' x') : c = c' ∧ y = y' ∧ x = x' := by
  unfold emitAddr canvasAddr at h
  obtain ⟨h1, h2⟩ := pair_inj hc hc' h
  obtain ⟨h3, h4⟩ := pair_inj (n := canvasWidth g) (pair_lt hbx hx) (pair_lt hbx hx') h1
  exact ⟨h2, by omega, by omega⟩

/-- Every address of a block inside the grid is inside the canvas (20_memory.md R66). -/
theorem emitAddr_lt {g : Context} {bx bY c y x : Nat} (hbx : bx < g.widthBlocks) (hby : bY < g.heightBlocks)
    (hc : c < g.channels) (hy : y < g.blockSize) (hx : x < g.blockSize) :
    emitAddr g bx bY c y x < g.heightBlocks * g.blockSize * canvasWidth g * g.channels :=
  pair_lt (pair_lt (pair_lt hby hy) (pair_lt hbx hx)) hc

end Sys2Proof.Machine
end

