-- ==== Sys2Proof/Laws/Memory.lean ====
section
/-! SUPPORT. The laws of the buffers: a read after a write, the canonical form, and buffers in canonical form with equal reads
are equal. -/

namespace Sys2Proof.Machine

theorem Memory.read_write_same {α : Type} (m : List (Nat × α)) (a : Nat) (v : α) :
    Memory.read (Memory.write m a v) a = some v := by
  induction m with
  | nil => simp [Memory.write, Memory.read]
  | cons e m ih =>
    obtain ⟨b, w⟩ := e
    simp only [Memory.write]
    split
    · simp [Memory.read]
    · split
      · simp [Memory.read]
      · rename_i h
        simp [Memory.read, Ne.symm h, ih]

theorem Memory.read_write_ne {α : Type} (m : List (Nat × α)) {a c : Nat} (v : α) (h : c ≠ a) :
    Memory.read (Memory.write m a v) c = Memory.read m c := by
  induction m with
  | nil => simp [Memory.write, Memory.read, Ne.symm h]
  | cons e m ih =>
    obtain ⟨b, w⟩ := e
    simp only [Memory.write]
    split
    · simp [Memory.read, Ne.symm h]
    · split
      · rename_i h2
        subst h2
        simp [Memory.read, Ne.symm h]
      · simp [Memory.read, ih]

theorem Memory.read_write {α : Type} (m : List (Nat × α)) (a c : Nat) (v : α) :
    Memory.read (Memory.write m a v) c = if c = a then some v else Memory.read m c := by
  split
  · rename_i h
    rw [h, Memory.read_write_same]
  · rename_i h
    exact Memory.read_write_ne m v h

/-- A write never unwrites an element. -/
theorem Memory.isSome_write {α : Type} (m : List (Nat × α)) (a c : Nat) (v : α) (h : (Memory.read m c).isSome) :
    (Memory.read (Memory.write m a v) c).isSome := by
  rw [Memory.read_write]
  split
  · rfl
  · exact h

theorem Memory.wf_nil {α : Type} : Memory.wf ([] : List (Nat × α)) := List.Pairwise.nil

/-- The addresses a write leaves listed: the old ones and its own. -/
theorem Memory.mem_write {α : Type} (m : List (Nat × α)) (a : Nat) (v : α) (e : Nat × α)
    (h : e ∈ Memory.write m a v) : e = (a, v) ∨ e ∈ m := by
  induction m with
  | nil => simpa [Memory.write] using h
  | cons f m ih =>
    obtain ⟨b, w⟩ := f
    simp only [Memory.write] at h
    split at h
    · simpa using h
    · split at h
      · rcases List.mem_cons.mp h with h | h
        · exact .inl h
        · exact .inr (List.mem_cons_of_mem _ h)
      · rcases List.mem_cons.mp h with h | h
        · exact .inr (by simp [h])
        · rcases ih h with h | h
          · exact .inl h
          · exact .inr (List.mem_cons_of_mem _ h)

/-- Every write keeps the canonical form. -/
theorem Memory.wf_write {α : Type} {m : List (Nat × α)} (h : Memory.wf m) (a : Nat) (v : α) :
    Memory.wf (Memory.write m a v) := by
  induction m with
  | nil => simp [Memory.write, Memory.wf]
  | cons e m ih =>
    obtain ⟨b, w⟩ := e
    have hb := List.pairwise_cons.mp h
    simp only [Memory.write]
    split
    · rename_i hab
      refine List.pairwise_cons.mpr ⟨?_, h⟩
      intro f hf
      rcases List.mem_cons.mp hf with rfl | hf
      · exact hab
      · exact Nat.lt_trans hab (hb.1 f hf)
    · split
      · rename_i hab
        subst hab
        exact List.pairwise_cons.mpr ⟨hb.1, hb.2⟩
      · rename_i h1 h2
        refine List.pairwise_cons.mpr ⟨?_, ih hb.2⟩
        intro f hf
        rcases Memory.mem_write m a v f hf with rfl | hf
        · show b < a
          omega
        · exact hb.1 f hf

theorem Memory.read_eq_none_of_lt {α : Type} {m : List (Nat × α)} {a : Nat} (h : ∀ e ∈ m, a < e.1) :
    Memory.read m a = none := by
  induction m with
  | nil => rfl
  | cons e m ih =>
    obtain ⟨b, w⟩ := e
    have hb : a < b := h (b, w) (List.mem_cons_self ..)
    have : ¬ b = a := by omega
    simp [Memory.read, this, ih fun f hf => h f (List.mem_cons_of_mem _ hf)]

/-- Two buffers in canonical form that read alike everywhere are the same data. -/
theorem Memory.eq_of_read_eq {α : Type} {m n : List (Nat × α)} (hm : Memory.wf m) (hn : Memory.wf n)
    (h : ∀ a, Memory.read m a = Memory.read n a) : m = n := by
  induction m generalizing n with
  | nil =>
    cases n with
    | nil => rfl
    | cons f n =>
      have := h f.1
      simp [Memory.read] at this
  | cons e m ih =>
    obtain ⟨b, w⟩ := e
    have hb := List.pairwise_cons.mp hm
    cases n with
    | nil =>
      have := h b
      simp [Memory.read] at this
    | cons f n =>
      obtain ⟨c, z⟩ := f
      have hc := List.pairwise_cons.mp hn
      have hbc : b = c := by
        rcases Nat.lt_trichotomy b c with hlt | heq | hgt
        · have := h b
          rw [Memory.read_eq_none_of_lt (m := (c, z) :: n) (a := b) (by
            intro g hg
            rcases List.mem_cons.mp hg with rfl | hg
            · exact hlt
            · exact Nat.lt_trans hlt (hc.1 g hg))] at this
          simp [Memory.read] at this
        · exact heq
        · have := h c
          rw [Memory.read_eq_none_of_lt (m := (b, w) :: m) (a := c) (by
            intro g hg
            rcases List.mem_cons.mp hg with rfl | hg
            · exact hgt
            · exact Nat.lt_trans hgt (hb.1 g hg))] at this
          simp [Memory.read] at this
      subst hbc
      have hwz : w = z := by
        have := h b
        simpa [Memory.read] using this
      subst hwz
      have hmn : m = n := by
        apply ih hb.2 hc.2
        intro a
        by_cases ha : b = a
        · subst ha
          rw [Memory.read_eq_none_of_lt hb.1, Memory.read_eq_none_of_lt hc.1]
        · have := h a
          simpa [Memory.read, ha] using this
      rw [hmn]

/-- Reading a written element gives no free value. -/
theorem byteAt_of_read {k : Nat} {sp : Space} {m : ByteMemory} {a : Nat} {b : Byte} (h : Memory.read m a = some b) :
    byteAt k sp m a = b := by
  simp [byteAt, h]

/-- What a datapath sees at an element depends only on whether and what it reads there. -/
theorem byteAt_congr {k : Nat} {sp : Space} {m n : ByteMemory} {a : Nat} (h : Memory.read m a = Memory.read n a) :
    byteAt k sp m a = byteAt k sp n a := by
  simp [byteAt, h]

/-- At a written element the counter that names free values does not matter. -/
theorem byteAt_counter {k l : Nat} {sp : Space} {m : ByteMemory} {a : Nat} (h : (Memory.read m a).isSome) :
    byteAt k sp m a = byteAt l sp m a := by
  obtain ⟨b, hb⟩ := Option.isSome_iff_exists.mp h
  simp [byteAt, hb]

end Sys2Proof.Machine
end

