-- ==== Sys2Proof/Laws/Loops.lean ====
section
/-! SUPPORT. The laws of the counted loop: induction along it, and what a loop of writes leaves in a buffer. -/

namespace Sys2Proof.Machine

@[simp] theorem forUp_zero {α : Type} (body : Nat → α → α) (x : α) : forUp 0 body x = x := rfl

@[simp] theorem forUp_succ {α : Type} (n : Nat) (body : Nat → α → α) (x : α) :
    forUp (n + 1) body x = body n (forUp n body x) := rfl

/-- Induction along a loop: a property indexed by the iterations done. -/
theorem forUp_induct {α : Type} (P : Nat → α → Prop) {n : Nat} {body : Nat → α → α} {x : α} (h0 : P 0 x)
    (hs : ∀ i, i < n → ∀ y, P i y → P (i + 1) (body i y)) : P n (forUp n body x) := by
  induction n with
  | zero => exact h0
  | succ n ih => exact hs n (Nat.lt_succ_self n) _ (ih fun i hi => hs i (Nat.lt_succ_of_lt hi))

/-- A property every iteration keeps holds after the loop. -/
theorem forUp_keeps {α : Type} (P : α → Prop) {n : Nat} {body : Nat → α → α} {x : α} (h0 : P x)
    (hs : ∀ i, i < n → ∀ y, P y → P (body i y)) : P (forUp n body x) :=
  forUp_induct (fun _ => P) h0 hs

/-- Two loops that do the same in every iteration end alike, where the iterations keep a property the bodies rely on. -/
theorem forUp_congr_on {α : Type} (P : Nat → α → Prop) {n : Nat} {f g : Nat → α → α} {x : α} (h0 : P 0 x)
    (hs : ∀ i, i < n → ∀ y, P i y → P (i + 1) (f i y)) (h : ∀ i, i < n → ∀ y, P i y → f i y = g i y) :
    forUp n f x = forUp n g x := by
  induction n with
  | zero => rfl
  | succ n ih =>
    have hP : P n (forUp n f x) := forUp_induct P h0 fun i hi => hs i (Nat.lt_succ_of_lt hi)
    have e : forUp n f x = forUp n g x :=
      ih (fun i hi => hs i (Nat.lt_succ_of_lt hi)) (fun i hi => h i (Nat.lt_succ_of_lt hi))
    rw [forUp_succ, forUp_succ, ← e]
    exact h n (Nat.lt_succ_self n) _ hP

theorem forUp_congr {α : Type} {n : Nat} {f g : Nat → α → α} {x : α} (h : ∀ i, i < n → ∀ y, f i y = g i y) :
    forUp n f x = forUp n g x :=
  forUp_congr_on (fun _ _ => True) trivial (fun _ _ _ _ => trivial) fun i hi y _ => h i hi y

/-- Writing keeps the canonical form through a loop. -/
theorem wf_forUp_write {α : Type} {n : Nat} {f : Nat → List (Nat × α) → Nat} {v : Nat → List (Nat × α) → α}
    {m : List (Nat × α)} (h : Memory.wf m) : Memory.wf (forUp n (fun i m => Memory.write m (f i m) (v i m)) m) :=
  forUp_keeps Memory.wf h fun _ _ _ hy => Memory.wf_write hy _ _

/-- An address no iteration writes reads as before the loop. -/
theorem read_forUp_write_other {α : Type} {n : Nat} {f : Nat → Nat} {v : Nat → List (Nat × α) → α} {m : List (Nat × α)}
    {a : Nat} (h : ∀ i, i < n → f i ≠ a) :
    Memory.read (forUp n (fun i m => Memory.write m (f i) (v i m)) m) a = Memory.read m a :=
  forUp_keeps (fun y => Memory.read y a = Memory.read m a) rfl fun i hi y hy => by
    rw [Memory.read_write_ne _ _ (h i hi).symm, hy]

/-- After a loop of writes to distinct addresses each address holds its iteration's value, where the value an iteration writes
does not depend on what the loop has written so far. -/
theorem read_forUp_write {α : Type} {n : Nat} {f : Nat → Nat} {v : Nat → α} {m : List (Nat × α)}
    (inj : ∀ i j, i < n → j < n → f i = f j → i = j) {i : Nat} (hi : i < n) :
    Memory.read (forUp n (fun i m => Memory.write m (f i) (v i)) m) (f i) = some (v i) := by
  induction n with
  | zero => omega
  | succ n ih =>
    rw [forUp_succ, Memory.read_write]
    split
    · rename_i h
      have := inj i n hi (Nat.lt_succ_self n) h
      rw [this]
    · rename_i h
      have hin : i < n := by
        rcases Nat.lt_succ_iff_lt_or_eq.mp hi with h1 | h1
        · exact h1
        · exact absurd (by rw [h1]) h
      exact ih (fun a b ha hb => inj a b (Nat.lt_succ_of_lt ha) (Nat.lt_succ_of_lt hb)) hin

/-- Every address a loop writes is written. -/
theorem isSome_forUp_write {α : Type} {n : Nat} {f : Nat → Nat} {v : Nat → List (Nat × α) → α} {m : List (Nat × α)}
    {a : Nat} (h : (∃ i, i < n ∧ f i = a) ∨ (Memory.read m a).isSome) :
    (Memory.read (forUp n (fun i m => Memory.write m (f i) (v i m)) m) a).isSome := by
  induction n with
  | zero =>
    rcases h with ⟨i, hi, _⟩ | h
    · omega
    · exact h
  | succ n ih =>
    rw [forUp_succ, Memory.read_write]
    split
    · rfl
    · rename_i hne
      apply ih
      rcases h with ⟨i, hi, rfl⟩ | h
      · refine .inl ⟨i, ?_, rfl⟩
        rcases Nat.lt_succ_iff_lt_or_eq.mp hi with h1 | h1
        · exact h1
        · exact absurd (by rw [h1]) hne
      · exact .inr h

/-- A loop nested in a loop is one loop over the pairs, the inner index running fastest. -/
theorem forUp_nested {α : Type} (a b : Nat) (body : Nat → Nat → α → α) (x : α) :
    forUp a (fun i => forUp b (body i)) x = forUp (a * b) (fun k => body (k / b) (k % b)) x := by
  have split : ∀ n k (f : Nat → α → α) (y : α), forUp (n + k) f y = forUp k (fun i => f (n + i)) (forUp n f y) := by
    intro n k f y
    induction k with
    | zero => rfl
    | succ k ih => rw [← Nat.add_assoc, forUp_succ, forUp_succ, ih]
  induction a with
  | zero => simp
  | succ a ih =>
    rw [forUp_succ, ih, Nat.succ_mul, split]
    apply forUp_congr
    intro i hi y
    have hb : 0 < b := by omega
    rw [Nat.mul_comm a b, Nat.mul_add_div hb, Nat.div_eq_of_lt hi, Nat.mul_add_mod, Nat.mod_eq_of_lt hi, Nat.add_zero]

end Sys2Proof.Machine
end

