-- ==== Sys2Proof/Laws/State.lean ====
section
/-! SUPPORT. One lemma per field per update of State, so that no proof unfolds a record update. -/

namespace Sys2Proof.Machine

@[simp] theorem State.setStatus_cfg (s : State) (v : Status) : (s.setStatus v).cfg = s.cfg := rfl
@[simp] theorem State.setStatus_status (s : State) (v : Status) : (s.setStatus v).status = v := rfl
@[simp] theorem State.setStatus_err (s : State) (v : Status) : (s.setStatus v).err = s.err := rfl
@[simp] theorem State.setStatus_errInfo (s : State) (v : Status) : (s.setStatus v).errInfo = s.errInfo := rfl
@[simp] theorem State.setStatus_ctx (s : State) (v : Status) : (s.setStatus v).ctx = s.ctx := rfl
@[simp] theorem State.setStatus_blkX (s : State) (v : Status) : (s.setStatus v).blkX = s.blkX := rfl
@[simp] theorem State.setStatus_blkY (s : State) (v : Status) : (s.setStatus v).blkY = s.blkY := rfl
@[simp] theorem State.setStatus_arrp (s : State) (v : Status) : (s.setStatus v).arrp = s.arrp := rfl
@[simp] theorem State.setStatus_perm (s : State) (v : Status) : (s.setStatus v).perm = s.perm := rfl
@[simp] theorem State.setStatus_arr (s : State) (v : Status) : (s.setStatus v).arr = s.arr := rfl
@[simp] theorem State.setStatus_bout (s : State) (v : Status) : (s.setStatus v).bout = s.bout := rfl
@[simp] theorem State.setStatus_pcol (s : State) (v : Status) : (s.setStatus v).pcol = s.pcol := rfl
@[simp] theorem State.setStatus_prow (s : State) (v : Status) : (s.setStatus v).prow = s.prow := rfl
@[simp] theorem State.setStatus_canvas (s : State) (v : Status) : (s.setStatus v).canvas = s.canvas := rfl
@[simp] theorem State.setStatus_hdr (s : State) (v : Status) : (s.setStatus v).hdr = s.hdr := rfl
@[simp] theorem State.setStatus_fe (s : State) (v : Status) : (s.setStatus v).fe = s.fe := rfl
@[simp] theorem State.setStatus_port (s : State) (v : Status) : (s.setStatus v).port = s.port := rfl
@[simp] theorem State.setStatus_rst (s : State) (v : Status) : (s.setStatus v).rst = s.rst := rfl
@[simp] theorem State.setStatus_stuck (s : State) (v : Status) : (s.setStatus v).stuck = s.stuck := rfl
@[simp] theorem State.setStatus_freeCtr (s : State) (v : Status) : (s.setStatus v).freeCtr = s.freeCtr := rfl
@[simp] theorem State.setStatus_seq (s : State) (v : Status) : (s.setStatus v).seq = s.seq := rfl

@[simp] theorem State.setErr_cfg (s : State) (v : BitVec 4) : (s.setErr v).cfg = s.cfg := rfl
@[simp] theorem State.setErr_status (s : State) (v : BitVec 4) : (s.setErr v).status = s.status := rfl
@[simp] theorem State.setErr_err (s : State) (v : BitVec 4) : (s.setErr v).err = v := rfl
@[simp] theorem State.setErr_errInfo (s : State) (v : BitVec 4) : (s.setErr v).errInfo = s.errInfo := rfl
@[simp] theorem State.setErr_ctx (s : State) (v : BitVec 4) : (s.setErr v).ctx = s.ctx := rfl
@[simp] theorem State.setErr_blkX (s : State) (v : BitVec 4) : (s.setErr v).blkX = s.blkX := rfl
@[simp] theorem State.setErr_blkY (s : State) (v : BitVec 4) : (s.setErr v).blkY = s.blkY := rfl
@[simp] theorem State.setErr_arrp (s : State) (v : BitVec 4) : (s.setErr v).arrp = s.arrp := rfl
@[simp] theorem State.setErr_perm (s : State) (v : BitVec 4) : (s.setErr v).perm = s.perm := rfl
@[simp] theorem State.setErr_arr (s : State) (v : BitVec 4) : (s.setErr v).arr = s.arr := rfl
@[simp] theorem State.setErr_bout (s : State) (v : BitVec 4) : (s.setErr v).bout = s.bout := rfl
@[simp] theorem State.setErr_pcol (s : State) (v : BitVec 4) : (s.setErr v).pcol = s.pcol := rfl
@[simp] theorem State.setErr_prow (s : State) (v : BitVec 4) : (s.setErr v).prow = s.prow := rfl
@[simp] theorem State.setErr_canvas (s : State) (v : BitVec 4) : (s.setErr v).canvas = s.canvas := rfl
@[simp] theorem State.setErr_hdr (s : State) (v : BitVec 4) : (s.setErr v).hdr = s.hdr := rfl
@[simp] theorem State.setErr_fe (s : State) (v : BitVec 4) : (s.setErr v).fe = s.fe := rfl
@[simp] theorem State.setErr_port (s : State) (v : BitVec 4) : (s.setErr v).port = s.port := rfl
@[simp] theorem State.setErr_rst (s : State) (v : BitVec 4) : (s.setErr v).rst = s.rst := rfl
@[simp] theorem State.setErr_stuck (s : State) (v : BitVec 4) : (s.setErr v).stuck = s.stuck := rfl
@[simp] theorem State.setErr_freeCtr (s : State) (v : BitVec 4) : (s.setErr v).freeCtr = s.freeCtr := rfl
@[simp] theorem State.setErr_seq (s : State) (v : BitVec 4) : (s.setErr v).seq = s.seq := rfl

@[simp] theorem State.setErrInfo_cfg (s : State) (v : Byte) : (s.setErrInfo v).cfg = s.cfg := rfl
@[simp] theorem State.setErrInfo_status (s : State) (v : Byte) : (s.setErrInfo v).status = s.status := rfl
@[simp] theorem State.setErrInfo_err (s : State) (v : Byte) : (s.setErrInfo v).err = s.err := rfl
@[simp] theorem State.setErrInfo_errInfo (s : State) (v : Byte) : (s.setErrInfo v).errInfo = v := rfl
@[simp] theorem State.setErrInfo_ctx (s : State) (v : Byte) : (s.setErrInfo v).ctx = s.ctx := rfl
@[simp] theorem State.setErrInfo_blkX (s : State) (v : Byte) : (s.setErrInfo v).blkX = s.blkX := rfl
@[simp] theorem State.setErrInfo_blkY (s : State) (v : Byte) : (s.setErrInfo v).blkY = s.blkY := rfl
@[simp] theorem State.setErrInfo_arrp (s : State) (v : Byte) : (s.setErrInfo v).arrp = s.arrp := rfl
@[simp] theorem State.setErrInfo_perm (s : State) (v : Byte) : (s.setErrInfo v).perm = s.perm := rfl
@[simp] theorem State.setErrInfo_arr (s : State) (v : Byte) : (s.setErrInfo v).arr = s.arr := rfl
@[simp] theorem State.setErrInfo_bout (s : State) (v : Byte) : (s.setErrInfo v).bout = s.bout := rfl
@[simp] theorem State.setErrInfo_pcol (s : State) (v : Byte) : (s.setErrInfo v).pcol = s.pcol := rfl
@[simp] theorem State.setErrInfo_prow (s : State) (v : Byte) : (s.setErrInfo v).prow = s.prow := rfl
@[simp] theorem State.setErrInfo_canvas (s : State) (v : Byte) : (s.setErrInfo v).canvas = s.canvas := rfl
@[simp] theorem State.setErrInfo_hdr (s : State) (v : Byte) : (s.setErrInfo v).hdr = s.hdr := rfl
@[simp] theorem State.setErrInfo_fe (s : State) (v : Byte) : (s.setErrInfo v).fe = s.fe := rfl
@[simp] theorem State.setErrInfo_port (s : State) (v : Byte) : (s.setErrInfo v).port = s.port := rfl
@[simp] theorem State.setErrInfo_rst (s : State) (v : Byte) : (s.setErrInfo v).rst = s.rst := rfl
@[simp] theorem State.setErrInfo_stuck (s : State) (v : Byte) : (s.setErrInfo v).stuck = s.stuck := rfl
@[simp] theorem State.setErrInfo_freeCtr (s : State) (v : Byte) : (s.setErrInfo v).freeCtr = s.freeCtr := rfl
@[simp] theorem State.setErrInfo_seq (s : State) (v : Byte) : (s.setErrInfo v).seq = s.seq := rfl

@[simp] theorem State.setCtx_cfg (s : State) (v : Context) : (s.setCtx v).cfg = s.cfg := rfl
@[simp] theorem State.setCtx_status (s : State) (v : Context) : (s.setCtx v).status = s.status := rfl
@[simp] theorem State.setCtx_err (s : State) (v : Context) : (s.setCtx v).err = s.err := rfl
@[simp] theorem State.setCtx_errInfo (s : State) (v : Context) : (s.setCtx v).errInfo = s.errInfo := rfl
@[simp] theorem State.setCtx_ctx (s : State) (v : Context) : (s.setCtx v).ctx = v := rfl
@[simp] theorem State.setCtx_blkX (s : State) (v : Context) : (s.setCtx v).blkX = s.blkX := rfl
@[simp] theorem State.setCtx_blkY (s : State) (v : Context) : (s.setCtx v).blkY = s.blkY := rfl
@[simp] theorem State.setCtx_arrp (s : State) (v : Context) : (s.setCtx v).arrp = s.arrp := rfl
@[simp] theorem State.setCtx_perm (s : State) (v : Context) : (s.setCtx v).perm = s.perm := rfl
@[simp] theorem State.setCtx_arr (s : State) (v : Context) : (s.setCtx v).arr = s.arr := rfl
@[simp] theorem State.setCtx_bout (s : State) (v : Context) : (s.setCtx v).bout = s.bout := rfl
@[simp] theorem State.setCtx_pcol (s : State) (v : Context) : (s.setCtx v).pcol = s.pcol := rfl
@[simp] theorem State.setCtx_prow (s : State) (v : Context) : (s.setCtx v).prow = s.prow := rfl
@[simp] theorem State.setCtx_canvas (s : State) (v : Context) : (s.setCtx v).canvas = s.canvas := rfl
@[simp] theorem State.setCtx_hdr (s : State) (v : Context) : (s.setCtx v).hdr = s.hdr := rfl
@[simp] theorem State.setCtx_fe (s : State) (v : Context) : (s.setCtx v).fe = s.fe := rfl
@[simp] theorem State.setCtx_port (s : State) (v : Context) : (s.setCtx v).port = s.port := rfl
@[simp] theorem State.setCtx_rst (s : State) (v : Context) : (s.setCtx v).rst = s.rst := rfl
@[simp] theorem State.setCtx_stuck (s : State) (v : Context) : (s.setCtx v).stuck = s.stuck := rfl
@[simp] theorem State.setCtx_freeCtr (s : State) (v : Context) : (s.setCtx v).freeCtr = s.freeCtr := rfl
@[simp] theorem State.setCtx_seq (s : State) (v : Context) : (s.setCtx v).seq = s.seq := rfl

@[simp] theorem State.setBlkX_cfg (s : State) (v : Nat) : (s.setBlkX v).cfg = s.cfg := rfl
@[simp] theorem State.setBlkX_status (s : State) (v : Nat) : (s.setBlkX v).status = s.status := rfl
@[simp] theorem State.setBlkX_err (s : State) (v : Nat) : (s.setBlkX v).err = s.err := rfl
@[simp] theorem State.setBlkX_errInfo (s : State) (v : Nat) : (s.setBlkX v).errInfo = s.errInfo := rfl
@[simp] theorem State.setBlkX_ctx (s : State) (v : Nat) : (s.setBlkX v).ctx = s.ctx := rfl
@[simp] theorem State.setBlkX_blkX (s : State) (v : Nat) : (s.setBlkX v).blkX = v := rfl
@[simp] theorem State.setBlkX_blkY (s : State) (v : Nat) : (s.setBlkX v).blkY = s.blkY := rfl
@[simp] theorem State.setBlkX_arrp (s : State) (v : Nat) : (s.setBlkX v).arrp = s.arrp := rfl
@[simp] theorem State.setBlkX_perm (s : State) (v : Nat) : (s.setBlkX v).perm = s.perm := rfl
@[simp] theorem State.setBlkX_arr (s : State) (v : Nat) : (s.setBlkX v).arr = s.arr := rfl
@[simp] theorem State.setBlkX_bout (s : State) (v : Nat) : (s.setBlkX v).bout = s.bout := rfl
@[simp] theorem State.setBlkX_pcol (s : State) (v : Nat) : (s.setBlkX v).pcol = s.pcol := rfl
@[simp] theorem State.setBlkX_prow (s : State) (v : Nat) : (s.setBlkX v).prow = s.prow := rfl
@[simp] theorem State.setBlkX_canvas (s : State) (v : Nat) : (s.setBlkX v).canvas = s.canvas := rfl
@[simp] theorem State.setBlkX_hdr (s : State) (v : Nat) : (s.setBlkX v).hdr = s.hdr := rfl
@[simp] theorem State.setBlkX_fe (s : State) (v : Nat) : (s.setBlkX v).fe = s.fe := rfl
@[simp] theorem State.setBlkX_port (s : State) (v : Nat) : (s.setBlkX v).port = s.port := rfl
@[simp] theorem State.setBlkX_rst (s : State) (v : Nat) : (s.setBlkX v).rst = s.rst := rfl
@[simp] theorem State.setBlkX_stuck (s : State) (v : Nat) : (s.setBlkX v).stuck = s.stuck := rfl
@[simp] theorem State.setBlkX_freeCtr (s : State) (v : Nat) : (s.setBlkX v).freeCtr = s.freeCtr := rfl
@[simp] theorem State.setBlkX_seq (s : State) (v : Nat) : (s.setBlkX v).seq = s.seq := rfl

@[simp] theorem State.setBlkY_cfg (s : State) (v : Nat) : (s.setBlkY v).cfg = s.cfg := rfl
@[simp] theorem State.setBlkY_status (s : State) (v : Nat) : (s.setBlkY v).status = s.status := rfl
@[simp] theorem State.setBlkY_err (s : State) (v : Nat) : (s.setBlkY v).err = s.err := rfl
@[simp] theorem State.setBlkY_errInfo (s : State) (v : Nat) : (s.setBlkY v).errInfo = s.errInfo := rfl
@[simp] theorem State.setBlkY_ctx (s : State) (v : Nat) : (s.setBlkY v).ctx = s.ctx := rfl
@[simp] theorem State.setBlkY_blkX (s : State) (v : Nat) : (s.setBlkY v).blkX = s.blkX := rfl
@[simp] theorem State.setBlkY_blkY (s : State) (v : Nat) : (s.setBlkY v).blkY = v := rfl
@[simp] theorem State.setBlkY_arrp (s : State) (v : Nat) : (s.setBlkY v).arrp = s.arrp := rfl
@[simp] theorem State.setBlkY_perm (s : State) (v : Nat) : (s.setBlkY v).perm = s.perm := rfl
@[simp] theorem State.setBlkY_arr (s : State) (v : Nat) : (s.setBlkY v).arr = s.arr := rfl
@[simp] theorem State.setBlkY_bout (s : State) (v : Nat) : (s.setBlkY v).bout = s.bout := rfl
@[simp] theorem State.setBlkY_pcol (s : State) (v : Nat) : (s.setBlkY v).pcol = s.pcol := rfl
@[simp] theorem State.setBlkY_prow (s : State) (v : Nat) : (s.setBlkY v).prow = s.prow := rfl
@[simp] theorem State.setBlkY_canvas (s : State) (v : Nat) : (s.setBlkY v).canvas = s.canvas := rfl
@[simp] theorem State.setBlkY_hdr (s : State) (v : Nat) : (s.setBlkY v).hdr = s.hdr := rfl
@[simp] theorem State.setBlkY_fe (s : State) (v : Nat) : (s.setBlkY v).fe = s.fe := rfl
@[simp] theorem State.setBlkY_port (s : State) (v : Nat) : (s.setBlkY v).port = s.port := rfl
@[simp] theorem State.setBlkY_rst (s : State) (v : Nat) : (s.setBlkY v).rst = s.rst := rfl
@[simp] theorem State.setBlkY_stuck (s : State) (v : Nat) : (s.setBlkY v).stuck = s.stuck := rfl
@[simp] theorem State.setBlkY_freeCtr (s : State) (v : Nat) : (s.setBlkY v).freeCtr = s.freeCtr := rfl
@[simp] theorem State.setBlkY_seq (s : State) (v : Nat) : (s.setBlkY v).seq = s.seq := rfl

@[simp] theorem State.setArrp_cfg (s : State) (v : Nat) : (s.setArrp v).cfg = s.cfg := rfl
@[simp] theorem State.setArrp_status (s : State) (v : Nat) : (s.setArrp v).status = s.status := rfl
@[simp] theorem State.setArrp_err (s : State) (v : Nat) : (s.setArrp v).err = s.err := rfl
@[simp] theorem State.setArrp_errInfo (s : State) (v : Nat) : (s.setArrp v).errInfo = s.errInfo := rfl
@[simp] theorem State.setArrp_ctx (s : State) (v : Nat) : (s.setArrp v).ctx = s.ctx := rfl
@[simp] theorem State.setArrp_blkX (s : State) (v : Nat) : (s.setArrp v).blkX = s.blkX := rfl
@[simp] theorem State.setArrp_blkY (s : State) (v : Nat) : (s.setArrp v).blkY = s.blkY := rfl
@[simp] theorem State.setArrp_arrp (s : State) (v : Nat) : (s.setArrp v).arrp = v := rfl
@[simp] theorem State.setArrp_perm (s : State) (v : Nat) : (s.setArrp v).perm = s.perm := rfl
@[simp] theorem State.setArrp_arr (s : State) (v : Nat) : (s.setArrp v).arr = s.arr := rfl
@[simp] theorem State.setArrp_bout (s : State) (v : Nat) : (s.setArrp v).bout = s.bout := rfl
@[simp] theorem State.setArrp_pcol (s : State) (v : Nat) : (s.setArrp v).pcol = s.pcol := rfl
@[simp] theorem State.setArrp_prow (s : State) (v : Nat) : (s.setArrp v).prow = s.prow := rfl
@[simp] theorem State.setArrp_canvas (s : State) (v : Nat) : (s.setArrp v).canvas = s.canvas := rfl
@[simp] theorem State.setArrp_hdr (s : State) (v : Nat) : (s.setArrp v).hdr = s.hdr := rfl
@[simp] theorem State.setArrp_fe (s : State) (v : Nat) : (s.setArrp v).fe = s.fe := rfl
@[simp] theorem State.setArrp_port (s : State) (v : Nat) : (s.setArrp v).port = s.port := rfl
@[simp] theorem State.setArrp_rst (s : State) (v : Nat) : (s.setArrp v).rst = s.rst := rfl
@[simp] theorem State.setArrp_stuck (s : State) (v : Nat) : (s.setArrp v).stuck = s.stuck := rfl
@[simp] theorem State.setArrp_freeCtr (s : State) (v : Nat) : (s.setArrp v).freeCtr = s.freeCtr := rfl
@[simp] theorem State.setArrp_seq (s : State) (v : Nat) : (s.setArrp v).seq = s.seq := rfl

@[simp] theorem State.setPerm_cfg (s : State) (v : IndexMemory) : (s.setPerm v).cfg = s.cfg := rfl
@[simp] theorem State.setPerm_status (s : State) (v : IndexMemory) : (s.setPerm v).status = s.status := rfl
@[simp] theorem State.setPerm_err (s : State) (v : IndexMemory) : (s.setPerm v).err = s.err := rfl
@[simp] theorem State.setPerm_errInfo (s : State) (v : IndexMemory) : (s.setPerm v).errInfo = s.errInfo := rfl
@[simp] theorem State.setPerm_ctx (s : State) (v : IndexMemory) : (s.setPerm v).ctx = s.ctx := rfl
@[simp] theorem State.setPerm_blkX (s : State) (v : IndexMemory) : (s.setPerm v).blkX = s.blkX := rfl
@[simp] theorem State.setPerm_blkY (s : State) (v : IndexMemory) : (s.setPerm v).blkY = s.blkY := rfl
@[simp] theorem State.setPerm_arrp (s : State) (v : IndexMemory) : (s.setPerm v).arrp = s.arrp := rfl
@[simp] theorem State.setPerm_perm (s : State) (v : IndexMemory) : (s.setPerm v).perm = v := rfl
@[simp] theorem State.setPerm_arr (s : State) (v : IndexMemory) : (s.setPerm v).arr = s.arr := rfl
@[simp] theorem State.setPerm_bout (s : State) (v : IndexMemory) : (s.setPerm v).bout = s.bout := rfl
@[simp] theorem State.setPerm_pcol (s : State) (v : IndexMemory) : (s.setPerm v).pcol = s.pcol := rfl
@[simp] theorem State.setPerm_prow (s : State) (v : IndexMemory) : (s.setPerm v).prow = s.prow := rfl
@[simp] theorem State.setPerm_canvas (s : State) (v : IndexMemory) : (s.setPerm v).canvas = s.canvas := rfl
@[simp] theorem State.setPerm_hdr (s : State) (v : IndexMemory) : (s.setPerm v).hdr = s.hdr := rfl
@[simp] theorem State.setPerm_fe (s : State) (v : IndexMemory) : (s.setPerm v).fe = s.fe := rfl
@[simp] theorem State.setPerm_port (s : State) (v : IndexMemory) : (s.setPerm v).port = s.port := rfl
@[simp] theorem State.setPerm_rst (s : State) (v : IndexMemory) : (s.setPerm v).rst = s.rst := rfl
@[simp] theorem State.setPerm_stuck (s : State) (v : IndexMemory) : (s.setPerm v).stuck = s.stuck := rfl
@[simp] theorem State.setPerm_freeCtr (s : State) (v : IndexMemory) : (s.setPerm v).freeCtr = s.freeCtr := rfl
@[simp] theorem State.setPerm_seq (s : State) (v : IndexMemory) : (s.setPerm v).seq = s.seq := rfl

@[simp] theorem State.setArr_cfg (s : State) (v : ByteMemory) : (s.setArr v).cfg = s.cfg := rfl
@[simp] theorem State.setArr_status (s : State) (v : ByteMemory) : (s.setArr v).status = s.status := rfl
@[simp] theorem State.setArr_err (s : State) (v : ByteMemory) : (s.setArr v).err = s.err := rfl
@[simp] theorem State.setArr_errInfo (s : State) (v : ByteMemory) : (s.setArr v).errInfo = s.errInfo := rfl
@[simp] theorem State.setArr_ctx (s : State) (v : ByteMemory) : (s.setArr v).ctx = s.ctx := rfl
@[simp] theorem State.setArr_blkX (s : State) (v : ByteMemory) : (s.setArr v).blkX = s.blkX := rfl
@[simp] theorem State.setArr_blkY (s : State) (v : ByteMemory) : (s.setArr v).blkY = s.blkY := rfl
@[simp] theorem State.setArr_arrp (s : State) (v : ByteMemory) : (s.setArr v).arrp = s.arrp := rfl
@[simp] theorem State.setArr_perm (s : State) (v : ByteMemory) : (s.setArr v).perm = s.perm := rfl
@[simp] theorem State.setArr_arr (s : State) (v : ByteMemory) : (s.setArr v).arr = v := rfl
@[simp] theorem State.setArr_bout (s : State) (v : ByteMemory) : (s.setArr v).bout = s.bout := rfl
@[simp] theorem State.setArr_pcol (s : State) (v : ByteMemory) : (s.setArr v).pcol = s.pcol := rfl
@[simp] theorem State.setArr_prow (s : State) (v : ByteMemory) : (s.setArr v).prow = s.prow := rfl
@[simp] theorem State.setArr_canvas (s : State) (v : ByteMemory) : (s.setArr v).canvas = s.canvas := rfl
@[simp] theorem State.setArr_hdr (s : State) (v : ByteMemory) : (s.setArr v).hdr = s.hdr := rfl
@[simp] theorem State.setArr_fe (s : State) (v : ByteMemory) : (s.setArr v).fe = s.fe := rfl
@[simp] theorem State.setArr_port (s : State) (v : ByteMemory) : (s.setArr v).port = s.port := rfl
@[simp] theorem State.setArr_rst (s : State) (v : ByteMemory) : (s.setArr v).rst = s.rst := rfl
@[simp] theorem State.setArr_stuck (s : State) (v : ByteMemory) : (s.setArr v).stuck = s.stuck := rfl
@[simp] theorem State.setArr_freeCtr (s : State) (v : ByteMemory) : (s.setArr v).freeCtr = s.freeCtr := rfl
@[simp] theorem State.setArr_seq (s : State) (v : ByteMemory) : (s.setArr v).seq = s.seq := rfl

@[simp] theorem State.setBout_cfg (s : State) (v : ByteMemory) : (s.setBout v).cfg = s.cfg := rfl
@[simp] theorem State.setBout_status (s : State) (v : ByteMemory) : (s.setBout v).status = s.status := rfl
@[simp] theorem State.setBout_err (s : State) (v : ByteMemory) : (s.setBout v).err = s.err := rfl
@[simp] theorem State.setBout_errInfo (s : State) (v : ByteMemory) : (s.setBout v).errInfo = s.errInfo := rfl
@[simp] theorem State.setBout_ctx (s : State) (v : ByteMemory) : (s.setBout v).ctx = s.ctx := rfl
@[simp] theorem State.setBout_blkX (s : State) (v : ByteMemory) : (s.setBout v).blkX = s.blkX := rfl
@[simp] theorem State.setBout_blkY (s : State) (v : ByteMemory) : (s.setBout v).blkY = s.blkY := rfl
@[simp] theorem State.setBout_arrp (s : State) (v : ByteMemory) : (s.setBout v).arrp = s.arrp := rfl
@[simp] theorem State.setBout_perm (s : State) (v : ByteMemory) : (s.setBout v).perm = s.perm := rfl
@[simp] theorem State.setBout_arr (s : State) (v : ByteMemory) : (s.setBout v).arr = s.arr := rfl
@[simp] theorem State.setBout_bout (s : State) (v : ByteMemory) : (s.setBout v).bout = v := rfl
@[simp] theorem State.setBout_pcol (s : State) (v : ByteMemory) : (s.setBout v).pcol = s.pcol := rfl
@[simp] theorem State.setBout_prow (s : State) (v : ByteMemory) : (s.setBout v).prow = s.prow := rfl
@[simp] theorem State.setBout_canvas (s : State) (v : ByteMemory) : (s.setBout v).canvas = s.canvas := rfl
@[simp] theorem State.setBout_hdr (s : State) (v : ByteMemory) : (s.setBout v).hdr = s.hdr := rfl
@[simp] theorem State.setBout_fe (s : State) (v : ByteMemory) : (s.setBout v).fe = s.fe := rfl
@[simp] theorem State.setBout_port (s : State) (v : ByteMemory) : (s.setBout v).port = s.port := rfl
@[simp] theorem State.setBout_rst (s : State) (v : ByteMemory) : (s.setBout v).rst = s.rst := rfl
@[simp] theorem State.setBout_stuck (s : State) (v : ByteMemory) : (s.setBout v).stuck = s.stuck := rfl
@[simp] theorem State.setBout_freeCtr (s : State) (v : ByteMemory) : (s.setBout v).freeCtr = s.freeCtr := rfl
@[simp] theorem State.setBout_seq (s : State) (v : ByteMemory) : (s.setBout v).seq = s.seq := rfl

@[simp] theorem State.setPcol_cfg (s : State) (v : ByteMemory) : (s.setPcol v).cfg = s.cfg := rfl
@[simp] theorem State.setPcol_status (s : State) (v : ByteMemory) : (s.setPcol v).status = s.status := rfl
@[simp] theorem State.setPcol_err (s : State) (v : ByteMemory) : (s.setPcol v).err = s.err := rfl
@[simp] theorem State.setPcol_errInfo (s : State) (v : ByteMemory) : (s.setPcol v).errInfo = s.errInfo := rfl
@[simp] theorem State.setPcol_ctx (s : State) (v : ByteMemory) : (s.setPcol v).ctx = s.ctx := rfl
@[simp] theorem State.setPcol_blkX (s : State) (v : ByteMemory) : (s.setPcol v).blkX = s.blkX := rfl
@[simp] theorem State.setPcol_blkY (s : State) (v : ByteMemory) : (s.setPcol v).blkY = s.blkY := rfl
@[simp] theorem State.setPcol_arrp (s : State) (v : ByteMemory) : (s.setPcol v).arrp = s.arrp := rfl
@[simp] theorem State.setPcol_perm (s : State) (v : ByteMemory) : (s.setPcol v).perm = s.perm := rfl
@[simp] theorem State.setPcol_arr (s : State) (v : ByteMemory) : (s.setPcol v).arr = s.arr := rfl
@[simp] theorem State.setPcol_bout (s : State) (v : ByteMemory) : (s.setPcol v).bout = s.bout := rfl
@[simp] theorem State.setPcol_pcol (s : State) (v : ByteMemory) : (s.setPcol v).pcol = v := rfl
@[simp] theorem State.setPcol_prow (s : State) (v : ByteMemory) : (s.setPcol v).prow = s.prow := rfl
@[simp] theorem State.setPcol_canvas (s : State) (v : ByteMemory) : (s.setPcol v).canvas = s.canvas := rfl
@[simp] theorem State.setPcol_hdr (s : State) (v : ByteMemory) : (s.setPcol v).hdr = s.hdr := rfl
@[simp] theorem State.setPcol_fe (s : State) (v : ByteMemory) : (s.setPcol v).fe = s.fe := rfl
@[simp] theorem State.setPcol_port (s : State) (v : ByteMemory) : (s.setPcol v).port = s.port := rfl
@[simp] theorem State.setPcol_rst (s : State) (v : ByteMemory) : (s.setPcol v).rst = s.rst := rfl
@[simp] theorem State.setPcol_stuck (s : State) (v : ByteMemory) : (s.setPcol v).stuck = s.stuck := rfl
@[simp] theorem State.setPcol_freeCtr (s : State) (v : ByteMemory) : (s.setPcol v).freeCtr = s.freeCtr := rfl
@[simp] theorem State.setPcol_seq (s : State) (v : ByteMemory) : (s.setPcol v).seq = s.seq := rfl

@[simp] theorem State.setProw_cfg (s : State) (v : ByteMemory) : (s.setProw v).cfg = s.cfg := rfl
@[simp] theorem State.setProw_status (s : State) (v : ByteMemory) : (s.setProw v).status = s.status := rfl
@[simp] theorem State.setProw_err (s : State) (v : ByteMemory) : (s.setProw v).err = s.err := rfl
@[simp] theorem State.setProw_errInfo (s : State) (v : ByteMemory) : (s.setProw v).errInfo = s.errInfo := rfl
@[simp] theorem State.setProw_ctx (s : State) (v : ByteMemory) : (s.setProw v).ctx = s.ctx := rfl
@[simp] theorem State.setProw_blkX (s : State) (v : ByteMemory) : (s.setProw v).blkX = s.blkX := rfl
@[simp] theorem State.setProw_blkY (s : State) (v : ByteMemory) : (s.setProw v).blkY = s.blkY := rfl
@[simp] theorem State.setProw_arrp (s : State) (v : ByteMemory) : (s.setProw v).arrp = s.arrp := rfl
@[simp] theorem State.setProw_perm (s : State) (v : ByteMemory) : (s.setProw v).perm = s.perm := rfl
@[simp] theorem State.setProw_arr (s : State) (v : ByteMemory) : (s.setProw v).arr = s.arr := rfl
@[simp] theorem State.setProw_bout (s : State) (v : ByteMemory) : (s.setProw v).bout = s.bout := rfl
@[simp] theorem State.setProw_pcol (s : State) (v : ByteMemory) : (s.setProw v).pcol = s.pcol := rfl
@[simp] theorem State.setProw_prow (s : State) (v : ByteMemory) : (s.setProw v).prow = v := rfl
@[simp] theorem State.setProw_canvas (s : State) (v : ByteMemory) : (s.setProw v).canvas = s.canvas := rfl
@[simp] theorem State.setProw_hdr (s : State) (v : ByteMemory) : (s.setProw v).hdr = s.hdr := rfl
@[simp] theorem State.setProw_fe (s : State) (v : ByteMemory) : (s.setProw v).fe = s.fe := rfl
@[simp] theorem State.setProw_port (s : State) (v : ByteMemory) : (s.setProw v).port = s.port := rfl
@[simp] theorem State.setProw_rst (s : State) (v : ByteMemory) : (s.setProw v).rst = s.rst := rfl
@[simp] theorem State.setProw_stuck (s : State) (v : ByteMemory) : (s.setProw v).stuck = s.stuck := rfl
@[simp] theorem State.setProw_freeCtr (s : State) (v : ByteMemory) : (s.setProw v).freeCtr = s.freeCtr := rfl
@[simp] theorem State.setProw_seq (s : State) (v : ByteMemory) : (s.setProw v).seq = s.seq := rfl

@[simp] theorem State.setCanvas_cfg (s : State) (v : ByteMemory) : (s.setCanvas v).cfg = s.cfg := rfl
@[simp] theorem State.setCanvas_status (s : State) (v : ByteMemory) : (s.setCanvas v).status = s.status := rfl
@[simp] theorem State.setCanvas_err (s : State) (v : ByteMemory) : (s.setCanvas v).err = s.err := rfl
@[simp] theorem State.setCanvas_errInfo (s : State) (v : ByteMemory) : (s.setCanvas v).errInfo = s.errInfo := rfl
@[simp] theorem State.setCanvas_ctx (s : State) (v : ByteMemory) : (s.setCanvas v).ctx = s.ctx := rfl
@[simp] theorem State.setCanvas_blkX (s : State) (v : ByteMemory) : (s.setCanvas v).blkX = s.blkX := rfl
@[simp] theorem State.setCanvas_blkY (s : State) (v : ByteMemory) : (s.setCanvas v).blkY = s.blkY := rfl
@[simp] theorem State.setCanvas_arrp (s : State) (v : ByteMemory) : (s.setCanvas v).arrp = s.arrp := rfl
@[simp] theorem State.setCanvas_perm (s : State) (v : ByteMemory) : (s.setCanvas v).perm = s.perm := rfl
@[simp] theorem State.setCanvas_arr (s : State) (v : ByteMemory) : (s.setCanvas v).arr = s.arr := rfl
@[simp] theorem State.setCanvas_bout (s : State) (v : ByteMemory) : (s.setCanvas v).bout = s.bout := rfl
@[simp] theorem State.setCanvas_pcol (s : State) (v : ByteMemory) : (s.setCanvas v).pcol = s.pcol := rfl
@[simp] theorem State.setCanvas_prow (s : State) (v : ByteMemory) : (s.setCanvas v).prow = s.prow := rfl
@[simp] theorem State.setCanvas_canvas (s : State) (v : ByteMemory) : (s.setCanvas v).canvas = v := rfl
@[simp] theorem State.setCanvas_hdr (s : State) (v : ByteMemory) : (s.setCanvas v).hdr = s.hdr := rfl
@[simp] theorem State.setCanvas_fe (s : State) (v : ByteMemory) : (s.setCanvas v).fe = s.fe := rfl
@[simp] theorem State.setCanvas_port (s : State) (v : ByteMemory) : (s.setCanvas v).port = s.port := rfl
@[simp] theorem State.setCanvas_rst (s : State) (v : ByteMemory) : (s.setCanvas v).rst = s.rst := rfl
@[simp] theorem State.setCanvas_stuck (s : State) (v : ByteMemory) : (s.setCanvas v).stuck = s.stuck := rfl
@[simp] theorem State.setCanvas_freeCtr (s : State) (v : ByteMemory) : (s.setCanvas v).freeCtr = s.freeCtr := rfl
@[simp] theorem State.setCanvas_seq (s : State) (v : ByteMemory) : (s.setCanvas v).seq = s.seq := rfl

@[simp] theorem State.setHdr_cfg (s : State) (v : Header) : (s.setHdr v).cfg = s.cfg := rfl
@[simp] theorem State.setHdr_status (s : State) (v : Header) : (s.setHdr v).status = s.status := rfl
@[simp] theorem State.setHdr_err (s : State) (v : Header) : (s.setHdr v).err = s.err := rfl
@[simp] theorem State.setHdr_errInfo (s : State) (v : Header) : (s.setHdr v).errInfo = s.errInfo := rfl
@[simp] theorem State.setHdr_ctx (s : State) (v : Header) : (s.setHdr v).ctx = s.ctx := rfl
@[simp] theorem State.setHdr_blkX (s : State) (v : Header) : (s.setHdr v).blkX = s.blkX := rfl
@[simp] theorem State.setHdr_blkY (s : State) (v : Header) : (s.setHdr v).blkY = s.blkY := rfl
@[simp] theorem State.setHdr_arrp (s : State) (v : Header) : (s.setHdr v).arrp = s.arrp := rfl
@[simp] theorem State.setHdr_perm (s : State) (v : Header) : (s.setHdr v).perm = s.perm := rfl
@[simp] theorem State.setHdr_arr (s : State) (v : Header) : (s.setHdr v).arr = s.arr := rfl
@[simp] theorem State.setHdr_bout (s : State) (v : Header) : (s.setHdr v).bout = s.bout := rfl
@[simp] theorem State.setHdr_pcol (s : State) (v : Header) : (s.setHdr v).pcol = s.pcol := rfl
@[simp] theorem State.setHdr_prow (s : State) (v : Header) : (s.setHdr v).prow = s.prow := rfl
@[simp] theorem State.setHdr_canvas (s : State) (v : Header) : (s.setHdr v).canvas = s.canvas := rfl
@[simp] theorem State.setHdr_hdr (s : State) (v : Header) : (s.setHdr v).hdr = v := rfl
@[simp] theorem State.setHdr_fe (s : State) (v : Header) : (s.setHdr v).fe = s.fe := rfl
@[simp] theorem State.setHdr_port (s : State) (v : Header) : (s.setHdr v).port = s.port := rfl
@[simp] theorem State.setHdr_rst (s : State) (v : Header) : (s.setHdr v).rst = s.rst := rfl
@[simp] theorem State.setHdr_stuck (s : State) (v : Header) : (s.setHdr v).stuck = s.stuck := rfl
@[simp] theorem State.setHdr_freeCtr (s : State) (v : Header) : (s.setHdr v).freeCtr = s.freeCtr := rfl
@[simp] theorem State.setHdr_seq (s : State) (v : Header) : (s.setHdr v).seq = s.seq := rfl

@[simp] theorem State.setFe_cfg (s : State) (v : FrontEnd) : (s.setFe v).cfg = s.cfg := rfl
@[simp] theorem State.setFe_status (s : State) (v : FrontEnd) : (s.setFe v).status = s.status := rfl
@[simp] theorem State.setFe_err (s : State) (v : FrontEnd) : (s.setFe v).err = s.err := rfl
@[simp] theorem State.setFe_errInfo (s : State) (v : FrontEnd) : (s.setFe v).errInfo = s.errInfo := rfl
@[simp] theorem State.setFe_ctx (s : State) (v : FrontEnd) : (s.setFe v).ctx = s.ctx := rfl
@[simp] theorem State.setFe_blkX (s : State) (v : FrontEnd) : (s.setFe v).blkX = s.blkX := rfl
@[simp] theorem State.setFe_blkY (s : State) (v : FrontEnd) : (s.setFe v).blkY = s.blkY := rfl
@[simp] theorem State.setFe_arrp (s : State) (v : FrontEnd) : (s.setFe v).arrp = s.arrp := rfl
@[simp] theorem State.setFe_perm (s : State) (v : FrontEnd) : (s.setFe v).perm = s.perm := rfl
@[simp] theorem State.setFe_arr (s : State) (v : FrontEnd) : (s.setFe v).arr = s.arr := rfl
@[simp] theorem State.setFe_bout (s : State) (v : FrontEnd) : (s.setFe v).bout = s.bout := rfl
@[simp] theorem State.setFe_pcol (s : State) (v : FrontEnd) : (s.setFe v).pcol = s.pcol := rfl
@[simp] theorem State.setFe_prow (s : State) (v : FrontEnd) : (s.setFe v).prow = s.prow := rfl
@[simp] theorem State.setFe_canvas (s : State) (v : FrontEnd) : (s.setFe v).canvas = s.canvas := rfl
@[simp] theorem State.setFe_hdr (s : State) (v : FrontEnd) : (s.setFe v).hdr = s.hdr := rfl
@[simp] theorem State.setFe_fe (s : State) (v : FrontEnd) : (s.setFe v).fe = v := rfl
@[simp] theorem State.setFe_port (s : State) (v : FrontEnd) : (s.setFe v).port = s.port := rfl
@[simp] theorem State.setFe_rst (s : State) (v : FrontEnd) : (s.setFe v).rst = s.rst := rfl
@[simp] theorem State.setFe_stuck (s : State) (v : FrontEnd) : (s.setFe v).stuck = s.stuck := rfl
@[simp] theorem State.setFe_freeCtr (s : State) (v : FrontEnd) : (s.setFe v).freeCtr = s.freeCtr := rfl
@[simp] theorem State.setFe_seq (s : State) (v : FrontEnd) : (s.setFe v).seq = s.seq := rfl

@[simp] theorem State.setPort_cfg (s : State) (v : List PortWord) : (s.setPort v).cfg = s.cfg := rfl
@[simp] theorem State.setPort_status (s : State) (v : List PortWord) : (s.setPort v).status = s.status := rfl
@[simp] theorem State.setPort_err (s : State) (v : List PortWord) : (s.setPort v).err = s.err := rfl
@[simp] theorem State.setPort_errInfo (s : State) (v : List PortWord) : (s.setPort v).errInfo = s.errInfo := rfl
@[simp] theorem State.setPort_ctx (s : State) (v : List PortWord) : (s.setPort v).ctx = s.ctx := rfl
@[simp] theorem State.setPort_blkX (s : State) (v : List PortWord) : (s.setPort v).blkX = s.blkX := rfl
@[simp] theorem State.setPort_blkY (s : State) (v : List PortWord) : (s.setPort v).blkY = s.blkY := rfl
@[simp] theorem State.setPort_arrp (s : State) (v : List PortWord) : (s.setPort v).arrp = s.arrp := rfl
@[simp] theorem State.setPort_perm (s : State) (v : List PortWord) : (s.setPort v).perm = s.perm := rfl
@[simp] theorem State.setPort_arr (s : State) (v : List PortWord) : (s.setPort v).arr = s.arr := rfl
@[simp] theorem State.setPort_bout (s : State) (v : List PortWord) : (s.setPort v).bout = s.bout := rfl
@[simp] theorem State.setPort_pcol (s : State) (v : List PortWord) : (s.setPort v).pcol = s.pcol := rfl
@[simp] theorem State.setPort_prow (s : State) (v : List PortWord) : (s.setPort v).prow = s.prow := rfl
@[simp] theorem State.setPort_canvas (s : State) (v : List PortWord) : (s.setPort v).canvas = s.canvas := rfl
@[simp] theorem State.setPort_hdr (s : State) (v : List PortWord) : (s.setPort v).hdr = s.hdr := rfl
@[simp] theorem State.setPort_fe (s : State) (v : List PortWord) : (s.setPort v).fe = s.fe := rfl
@[simp] theorem State.setPort_port (s : State) (v : List PortWord) : (s.setPort v).port = v := rfl
@[simp] theorem State.setPort_rst (s : State) (v : List PortWord) : (s.setPort v).rst = s.rst := rfl
@[simp] theorem State.setPort_stuck (s : State) (v : List PortWord) : (s.setPort v).stuck = s.stuck := rfl
@[simp] theorem State.setPort_freeCtr (s : State) (v : List PortWord) : (s.setPort v).freeCtr = s.freeCtr := rfl
@[simp] theorem State.setPort_seq (s : State) (v : List PortWord) : (s.setPort v).seq = s.seq := rfl

@[simp] theorem State.setRst_cfg (s : State) (v : Bool) : (s.setRst v).cfg = s.cfg := rfl
@[simp] theorem State.setRst_status (s : State) (v : Bool) : (s.setRst v).status = s.status := rfl
@[simp] theorem State.setRst_err (s : State) (v : Bool) : (s.setRst v).err = s.err := rfl
@[simp] theorem State.setRst_errInfo (s : State) (v : Bool) : (s.setRst v).errInfo = s.errInfo := rfl
@[simp] theorem State.setRst_ctx (s : State) (v : Bool) : (s.setRst v).ctx = s.ctx := rfl
@[simp] theorem State.setRst_blkX (s : State) (v : Bool) : (s.setRst v).blkX = s.blkX := rfl
@[simp] theorem State.setRst_blkY (s : State) (v : Bool) : (s.setRst v).blkY = s.blkY := rfl
@[simp] theorem State.setRst_arrp (s : State) (v : Bool) : (s.setRst v).arrp = s.arrp := rfl
@[simp] theorem State.setRst_perm (s : State) (v : Bool) : (s.setRst v).perm = s.perm := rfl
@[simp] theorem State.setRst_arr (s : State) (v : Bool) : (s.setRst v).arr = s.arr := rfl
@[simp] theorem State.setRst_bout (s : State) (v : Bool) : (s.setRst v).bout = s.bout := rfl
@[simp] theorem State.setRst_pcol (s : State) (v : Bool) : (s.setRst v).pcol = s.pcol := rfl
@[simp] theorem State.setRst_prow (s : State) (v : Bool) : (s.setRst v).prow = s.prow := rfl
@[simp] theorem State.setRst_canvas (s : State) (v : Bool) : (s.setRst v).canvas = s.canvas := rfl
@[simp] theorem State.setRst_hdr (s : State) (v : Bool) : (s.setRst v).hdr = s.hdr := rfl
@[simp] theorem State.setRst_fe (s : State) (v : Bool) : (s.setRst v).fe = s.fe := rfl
@[simp] theorem State.setRst_port (s : State) (v : Bool) : (s.setRst v).port = s.port := rfl
@[simp] theorem State.setRst_rst (s : State) (v : Bool) : (s.setRst v).rst = v := rfl
@[simp] theorem State.setRst_stuck (s : State) (v : Bool) : (s.setRst v).stuck = s.stuck := rfl
@[simp] theorem State.setRst_freeCtr (s : State) (v : Bool) : (s.setRst v).freeCtr = s.freeCtr := rfl
@[simp] theorem State.setRst_seq (s : State) (v : Bool) : (s.setRst v).seq = s.seq := rfl

@[simp] theorem State.setStuck_cfg (s : State) (v : Bool) : (s.setStuck v).cfg = s.cfg := rfl
@[simp] theorem State.setStuck_status (s : State) (v : Bool) : (s.setStuck v).status = s.status := rfl
@[simp] theorem State.setStuck_err (s : State) (v : Bool) : (s.setStuck v).err = s.err := rfl
@[simp] theorem State.setStuck_errInfo (s : State) (v : Bool) : (s.setStuck v).errInfo = s.errInfo := rfl
@[simp] theorem State.setStuck_ctx (s : State) (v : Bool) : (s.setStuck v).ctx = s.ctx := rfl
@[simp] theorem State.setStuck_blkX (s : State) (v : Bool) : (s.setStuck v).blkX = s.blkX := rfl
@[simp] theorem State.setStuck_blkY (s : State) (v : Bool) : (s.setStuck v).blkY = s.blkY := rfl
@[simp] theorem State.setStuck_arrp (s : State) (v : Bool) : (s.setStuck v).arrp = s.arrp := rfl
@[simp] theorem State.setStuck_perm (s : State) (v : Bool) : (s.setStuck v).perm = s.perm := rfl
@[simp] theorem State.setStuck_arr (s : State) (v : Bool) : (s.setStuck v).arr = s.arr := rfl
@[simp] theorem State.setStuck_bout (s : State) (v : Bool) : (s.setStuck v).bout = s.bout := rfl
@[simp] theorem State.setStuck_pcol (s : State) (v : Bool) : (s.setStuck v).pcol = s.pcol := rfl
@[simp] theorem State.setStuck_prow (s : State) (v : Bool) : (s.setStuck v).prow = s.prow := rfl
@[simp] theorem State.setStuck_canvas (s : State) (v : Bool) : (s.setStuck v).canvas = s.canvas := rfl
@[simp] theorem State.setStuck_hdr (s : State) (v : Bool) : (s.setStuck v).hdr = s.hdr := rfl
@[simp] theorem State.setStuck_fe (s : State) (v : Bool) : (s.setStuck v).fe = s.fe := rfl
@[simp] theorem State.setStuck_port (s : State) (v : Bool) : (s.setStuck v).port = s.port := rfl
@[simp] theorem State.setStuck_rst (s : State) (v : Bool) : (s.setStuck v).rst = s.rst := rfl
@[simp] theorem State.setStuck_stuck (s : State) (v : Bool) : (s.setStuck v).stuck = v := rfl
@[simp] theorem State.setStuck_freeCtr (s : State) (v : Bool) : (s.setStuck v).freeCtr = s.freeCtr := rfl
@[simp] theorem State.setStuck_seq (s : State) (v : Bool) : (s.setStuck v).seq = s.seq := rfl

@[simp] theorem State.setFreeCtr_cfg (s : State) (v : Nat) : (s.setFreeCtr v).cfg = s.cfg := rfl
@[simp] theorem State.setFreeCtr_status (s : State) (v : Nat) : (s.setFreeCtr v).status = s.status := rfl
@[simp] theorem State.setFreeCtr_err (s : State) (v : Nat) : (s.setFreeCtr v).err = s.err := rfl
@[simp] theorem State.setFreeCtr_errInfo (s : State) (v : Nat) : (s.setFreeCtr v).errInfo = s.errInfo := rfl
@[simp] theorem State.setFreeCtr_ctx (s : State) (v : Nat) : (s.setFreeCtr v).ctx = s.ctx := rfl
@[simp] theorem State.setFreeCtr_blkX (s : State) (v : Nat) : (s.setFreeCtr v).blkX = s.blkX := rfl
@[simp] theorem State.setFreeCtr_blkY (s : State) (v : Nat) : (s.setFreeCtr v).blkY = s.blkY := rfl
@[simp] theorem State.setFreeCtr_arrp (s : State) (v : Nat) : (s.setFreeCtr v).arrp = s.arrp := rfl
@[simp] theorem State.setFreeCtr_perm (s : State) (v : Nat) : (s.setFreeCtr v).perm = s.perm := rfl
@[simp] theorem State.setFreeCtr_arr (s : State) (v : Nat) : (s.setFreeCtr v).arr = s.arr := rfl
@[simp] theorem State.setFreeCtr_bout (s : State) (v : Nat) : (s.setFreeCtr v).bout = s.bout := rfl
@[simp] theorem State.setFreeCtr_pcol (s : State) (v : Nat) : (s.setFreeCtr v).pcol = s.pcol := rfl
@[simp] theorem State.setFreeCtr_prow (s : State) (v : Nat) : (s.setFreeCtr v).prow = s.prow := rfl
@[simp] theorem State.setFreeCtr_canvas (s : State) (v : Nat) : (s.setFreeCtr v).canvas = s.canvas := rfl
@[simp] theorem State.setFreeCtr_hdr (s : State) (v : Nat) : (s.setFreeCtr v).hdr = s.hdr := rfl
@[simp] theorem State.setFreeCtr_fe (s : State) (v : Nat) : (s.setFreeCtr v).fe = s.fe := rfl
@[simp] theorem State.setFreeCtr_port (s : State) (v : Nat) : (s.setFreeCtr v).port = s.port := rfl
@[simp] theorem State.setFreeCtr_rst (s : State) (v : Nat) : (s.setFreeCtr v).rst = s.rst := rfl
@[simp] theorem State.setFreeCtr_stuck (s : State) (v : Nat) : (s.setFreeCtr v).stuck = s.stuck := rfl
@[simp] theorem State.setFreeCtr_freeCtr (s : State) (v : Nat) : (s.setFreeCtr v).freeCtr = v := rfl
@[simp] theorem State.setFreeCtr_seq (s : State) (v : Nat) : (s.setFreeCtr v).seq = s.seq := rfl

@[simp] theorem State.setSeq_cfg (s : State) (v : Sequencer) : (s.setSeq v).cfg = s.cfg := rfl
@[simp] theorem State.setSeq_status (s : State) (v : Sequencer) : (s.setSeq v).status = s.status := rfl
@[simp] theorem State.setSeq_err (s : State) (v : Sequencer) : (s.setSeq v).err = s.err := rfl
@[simp] theorem State.setSeq_errInfo (s : State) (v : Sequencer) : (s.setSeq v).errInfo = s.errInfo := rfl
@[simp] theorem State.setSeq_ctx (s : State) (v : Sequencer) : (s.setSeq v).ctx = s.ctx := rfl
@[simp] theorem State.setSeq_blkX (s : State) (v : Sequencer) : (s.setSeq v).blkX = s.blkX := rfl
@[simp] theorem State.setSeq_blkY (s : State) (v : Sequencer) : (s.setSeq v).blkY = s.blkY := rfl
@[simp] theorem State.setSeq_arrp (s : State) (v : Sequencer) : (s.setSeq v).arrp = s.arrp := rfl
@[simp] theorem State.setSeq_perm (s : State) (v : Sequencer) : (s.setSeq v).perm = s.perm := rfl
@[simp] theorem State.setSeq_arr (s : State) (v : Sequencer) : (s.setSeq v).arr = s.arr := rfl
@[simp] theorem State.setSeq_bout (s : State) (v : Sequencer) : (s.setSeq v).bout = s.bout := rfl
@[simp] theorem State.setSeq_pcol (s : State) (v : Sequencer) : (s.setSeq v).pcol = s.pcol := rfl
@[simp] theorem State.setSeq_prow (s : State) (v : Sequencer) : (s.setSeq v).prow = s.prow := rfl
@[simp] theorem State.setSeq_canvas (s : State) (v : Sequencer) : (s.setSeq v).canvas = s.canvas := rfl
@[simp] theorem State.setSeq_hdr (s : State) (v : Sequencer) : (s.setSeq v).hdr = s.hdr := rfl
@[simp] theorem State.setSeq_fe (s : State) (v : Sequencer) : (s.setSeq v).fe = s.fe := rfl
@[simp] theorem State.setSeq_port (s : State) (v : Sequencer) : (s.setSeq v).port = s.port := rfl
@[simp] theorem State.setSeq_rst (s : State) (v : Sequencer) : (s.setSeq v).rst = s.rst := rfl
@[simp] theorem State.setSeq_stuck (s : State) (v : Sequencer) : (s.setSeq v).stuck = s.stuck := rfl
@[simp] theorem State.setSeq_freeCtr (s : State) (v : Sequencer) : (s.setSeq v).freeCtr = s.freeCtr := rfl
@[simp] theorem State.setSeq_seq (s : State) (v : Sequencer) : (s.setSeq v).seq = v := rfl

/-- Two states with equal fields are equal. -/
theorem State.ext_fields {s t : State} (h0 : s.cfg = t.cfg) (h1 : s.status = t.status) (h2 : s.err = t.err) (h3 : s.errInfo = t.errInfo) (h4 : s.ctx = t.ctx) (h5 : s.blkX = t.blkX) (h6 : s.blkY = t.blkY) (h7 : s.arrp = t.arrp) (h8 : s.perm = t.perm) (h9 : s.arr = t.arr) (h10 : s.bout = t.bout) (h11 : s.pcol = t.pcol) (h12 : s.prow = t.prow) (h13 : s.canvas = t.canvas) (h14 : s.hdr = t.hdr) (h15 : s.fe = t.fe) (h16 : s.port = t.port) (h17 : s.rst = t.rst) (h18 : s.stuck = t.stuck) (h19 : s.freeCtr = t.freeCtr) (h20 : s.seq = t.seq) : s = t := by
  cases s
  cases t
  simp_all

end Sys2Proof.Machine
end

