-- ==== Sys2Proof/Laws/Ops.lean ====
section
/-! SUPPORT. What the shared operations can do: taking a fault, the gates of commands and rows, leaving the faulted state. -/

namespace Sys2Proof.Machine

@[simp] theorem add8_eq (a b : Byte) : add8 a b = a + b := rfl

/-- Fault entry on a state without a fault. -/
theorem takeFault_of_clear {k : FaultKind} {i : Byte} {s : State} (h : s.status.fault = false) :
    takeFault k i s = faulted s k.number i := by
  simp [takeFault, h, faulted, State.setErr, State.setErrInfo, State.setStatus]

/-- Fault entry on a state with a fault changes nothing. -/
theorem takeFault_of_fault {k : FaultKind} {i : Byte} {s : State} (h : s.status.fault = true) : takeFault k i s = s := by
  simp [takeFault, h]

/-- Fault entry either changes nothing or is `faulted`. -/
theorem takeFault_cases (k : FaultKind) (i : Byte) (s : State) :
    (s.status.fault = true ∧ takeFault k i s = s) ∨ (s.status.fault = false ∧ takeFault k i s = faulted s k.number i) := by
  cases h : s.status.fault
  · exact .inr ⟨rfl, takeFault_of_clear h⟩
  · exact .inl ⟨rfl, takeFault_of_fault h⟩

/-- Everything the command gate can answer. -/
theorem runCommand_cases {op : BitVec 4} {ready : Bool} {effect s t : State} (h : runCommand op ready effect s = .next t) :
    (s.status.fault = true ∧ t = s) ∨ (s.status.fault = false ∧ ready = true ∧ t = effect) ∨
      (s.status.fault = false ∧ ready = false ∧ t = faulted s 6 (op.setWidth 8)) := by
  unfold runCommand at h
  cases hf : s.status.fault <;> cases hr : ready <;> simp [hf, hr] at h
  · right; right; exact ⟨rfl, rfl, by rw [← h, takeFault_of_clear hf]; rfl⟩
  · right; left; exact ⟨rfl, rfl, h.symm⟩
  · left; exact ⟨rfl, h.symm⟩
  · left; exact ⟨rfl, h.symm⟩

theorem runCommand_of_fault {op : BitVec 4} {ready : Bool} {effect s : State} (h : s.status.fault = true) :
    runCommand op ready effect s = .next s := by
  simp [runCommand, h]

theorem runCommand_of_ready {op : BitVec 4} {ready : Bool} {effect s : State} (h : s.status.fault = false)
    (hr : ready = true) : runCommand op ready effect s = .next effect := by
  simp [runCommand, h, hr]

theorem runCommand_of_not_ready {op : BitVec 4} {ready : Bool} {effect s : State} (h : s.status.fault = false)
    (hr : ready = false) : runCommand op ready effect s = .next (faulted s 6 (op.setWidth 8)) := by
  simp [runCommand, h, hr, takeFault_of_clear h, FaultKind.number]

/-- Everything the row gate can answer. -/
theorem runRow_cases {code : Byte} {effect s t : State} (h : runRow code effect s = .next t) :
    (s.status.fault = true ∧ t = s) ∨ (s.status.fault = false ∧ legalCode s.ctx.channels code = true ∧ t = effect) ∨
      (s.status.fault = false ∧ legalCode s.ctx.channels code = false ∧ t = faulted s 5 code) := by
  unfold runRow at h
  cases hf : s.status.fault <;> cases hr : legalCode s.ctx.channels code <;> simp [hf, hr] at h
  · right; right; exact ⟨rfl, rfl, by rw [← h, takeFault_of_clear hf]; rfl⟩
  · right; left; exact ⟨rfl, rfl, h.symm⟩
  · left; exact ⟨rfl, h.symm⟩
  · left; exact ⟨rfl, h.symm⟩

theorem runRow_of_fault {code : Byte} {effect s : State} (h : s.status.fault = true) : runRow code effect s = .next s := by
  simp [runRow, h]

theorem runRow_of_legal {code : Byte} {effect s : State} (h : s.status.fault = false)
    (hl : legalCode s.ctx.channels code = true) : runRow code effect s = .next effect := by
  simp [runRow, h, hl]

theorem runRow_of_illegal {code : Byte} {effect s : State} (h : s.status.fault = false)
    (hl : legalCode s.ctx.channels code = false) : runRow code effect s = .next (faulted s 5 code) := by
  simp [runRow, h, hl, takeFault_of_clear h, FaultKind.number]

/-- Every command and row answers a next state. -/
theorem runCommand_next (op : BitVec 4) (ready : Bool) (effect s : State) : ∃ t, runCommand op ready effect s = .next t := by
  unfold runCommand
  split
  · exact ⟨_, rfl⟩
  · split <;> exact ⟨_, rfl⟩

theorem runRow_next (code : Byte) (effect s : State) : ∃ t, runRow code effect s = .next t := by
  unfold runRow
  split
  · exact ⟨_, rfl⟩
  · split <;> exact ⟨_, rfl⟩

@[simp] theorem faulted_cfg (s : State) (n : BitVec 4) (i : Byte) : (faulted s n i).cfg = s.cfg := rfl
@[simp] theorem faulted_status (s : State) (n : BitVec 4) (i : Byte) :
    (faulted s n i).status = { s.status with fault := true } := rfl
@[simp] theorem faulted_err (s : State) (n : BitVec 4) (i : Byte) : (faulted s n i).err = n := rfl
@[simp] theorem faulted_errInfo (s : State) (n : BitVec 4) (i : Byte) : (faulted s n i).errInfo = i := rfl
@[simp] theorem faulted_ctx (s : State) (n : BitVec 4) (i : Byte) : (faulted s n i).ctx = s.ctx := rfl
@[simp] theorem faulted_blkX (s : State) (n : BitVec 4) (i : Byte) : (faulted s n i).blkX = s.blkX := rfl
@[simp] theorem faulted_blkY (s : State) (n : BitVec 4) (i : Byte) : (faulted s n i).blkY = s.blkY := rfl
@[simp] theorem faulted_arrp (s : State) (n : BitVec 4) (i : Byte) : (faulted s n i).arrp = s.arrp := rfl
@[simp] theorem faulted_perm (s : State) (n : BitVec 4) (i : Byte) : (faulted s n i).perm = s.perm := rfl
@[simp] theorem faulted_arr (s : State) (n : BitVec 4) (i : Byte) : (faulted s n i).arr = s.arr := rfl
@[simp] theorem faulted_bout (s : State) (n : BitVec 4) (i : Byte) : (faulted s n i).bout = s.bout := rfl
@[simp] theorem faulted_pcol (s : State) (n : BitVec 4) (i : Byte) : (faulted s n i).pcol = s.pcol := rfl
@[simp] theorem faulted_prow (s : State) (n : BitVec 4) (i : Byte) : (faulted s n i).prow = s.prow := rfl
@[simp] theorem faulted_canvas (s : State) (n : BitVec 4) (i : Byte) : (faulted s n i).canvas = s.canvas := rfl

/-- A legal code, as a proposition: three planes or one of the seven identity colour ops. -/
theorem legalCode_iff (channels : Nat) (code : Byte) :
    legalCode channels code = true ↔ 3 ≤ channels ∨ identityColor (colorOp code) = true := by
  simp [legalCode]

/-- A code's `color_op` is what it was put together from. -/
@[simp] theorem colorOp_codeOf (d p : BitVec 2) (c : BitVec 4) : colorOp (codeOf d p c) = c := by
  revert d p c
  decide

@[simp] theorem permSelector_codeOf (d p : BitVec 2) (c : BitVec 4) : permSelector (codeOf d p c) = p := by
  revert d p c
  decide

@[simp] theorem diffMode_codeOf (d p : BitVec 2) (c : BitVec 4) : diffMode (codeOf d p c) = d := by
  revert d p c
  decide

@[simp] theorem accumulates_codeOf (d p : BitVec 2) (c : BitVec 4) : accumulates (codeOf d p c) = d.getLsbD 0 := by
  revert d p c
  decide

/-- A code is put together from its three fields (30_encoding.md R81). -/
theorem codeOf_fields (code : Byte) : codeOf (diffMode code) (permSelector code) (colorOp code) = code := by
  revert code
  decide

end Sys2Proof.Machine
end

