-- ==== Sys2Proof/Laws/Datapath.lean ====
section
/-! SUPPORT. What the data path's operations leave in the buffers, in closed form: scatter, colour ops, the two predictors, the
edge-state clear, the frame assembler. -/

namespace Sys2Proof.Machine

/-- A loop whose iteration reads only what the loop has not written yet writes the values computed from the buffer it started
from. -/
theorem forUp_sweep {α : Type} {n : Nat} {f : Nat → Nat} {v : Nat → List (Nat × α) → α} {w : Nat → α} {m : List (Nat × α)}
    (h : ∀ i, i < n → ∀ y, (∀ a, (∀ j, j < i → f j ≠ a) → Memory.read y a = Memory.read m a) → v i y = w i) :
    forUp n (fun i m => Memory.write m (f i) (v i m)) m = forUp n (fun i m => Memory.write m (f i) (w i)) m := by
  apply forUp_congr_on (fun i y => ∀ a, (∀ j, j < i → f j ≠ a) → Memory.read y a = Memory.read m a)
  · intro a _
    rfl
  · intro i _ y hy a ha
    rw [Memory.read_write_ne _ _ (ha i (Nat.lt_succ_self i)).symm]
    exact hy a fun j hj => ha j (Nat.lt_succ_of_lt hj)
  · intro i hi y hy
    rw [h i hi y hy]

theorem boutIn_congr {s : State} {m n : ByteMemory} {a : Nat} (h : Memory.read m a = Memory.read n a) :
    s.boutIn m a = s.boutIn n a := byteAt_congr h

theorem prowIn_congr {s : State} {m n : ByteMemory} {a : Nat} (h : Memory.read m a = Memory.read n a) :
    s.prowIn m a = s.prowIn n a := byteAt_congr h

theorem pcolIn_congr {s : State} {m n : ByteMemory} {a : Nat} (h : Memory.read m a = Memory.read n a) :
    s.pcolIn m a = s.pcolIn n a := byteAt_congr h

theorem boutIn_of_read {s : State} {m : ByteMemory} {a : Nat} {b : Byte} (h : Memory.read m a = some b) :
    s.boutIn m a = b := byteAt_of_read h

/-- The scatter (43_block_transform.md R165): source sample `i` goes where the segment says. -/
theorem scatter_read {s : State} {p : Nat}
    (inj : ∀ i j, i < s.ctx.blockSamples → j < s.ctx.blockSamples →
      s.permAt (permAddr s.ctx p i) = s.permAt (permAddr s.ctx p j) → i = j) {i : Nat} (hi : i < s.ctx.blockSamples) :
    Memory.read (scatter p s).bout (s.permAt (permAddr s.ctx p i)) = some (s.arrAt i) :=
  read_forUp_write inj hi

theorem scatter_other {s : State} {p a : Nat}
    (h : ∀ i, i < s.ctx.blockSamples → s.permAt (permAddr s.ctx p i) ≠ a) :
    Memory.read (scatter p s).bout a = Memory.read s.bout a :=
  read_forUp_write_other h

theorem planeAddr_inj {g : Context} {k i j : Nat} (h : planeAddr g k i = planeAddr g k j) : i = j := by
  unfold planeAddr at h
  omega

/-- Different planes do not overlap. -/
theorem planeAddr_ne {g : Context} {k l i j : Nat} (hkl : k ≠ l) (hi : i < g.blockArea) (hj : j < g.blockArea) :
    planeAddr g k i ≠ planeAddr g l j := fun h => hkl (pair_inj hi hj h).1

/-- One plane added into another (42_color_predictor_lut.md R140). -/
theorem addPlane_read {s : State} {t b : Nat} (htb : t ≠ b) {i : Nat} (hi : i < s.ctx.blockArea) :
    Memory.read (addPlane t b s).bout (planeAddr s.ctx t i) =
      some (s.boutAt (planeAddr s.ctx t i) + s.boutAt (planeAddr s.ctx b i)) := by
  have e : (addPlane t b s).bout = forUp s.ctx.blockArea (fun i m => Memory.write m (planeAddr s.ctx t i)
      (s.boutAt (planeAddr s.ctx t i) + s.boutAt (planeAddr s.ctx b i))) s.bout := by
    apply forUp_sweep
    intro j hj y hy
    rw [add8_eq]
    congr 1
    · exact boutIn_congr (hy _ fun l hl h => by have := planeAddr_inj h; omega)
    · exact boutIn_congr (hy _ fun l hl => planeAddr_ne htb (by omega) hj)
  rw [e]
  exact read_forUp_write (fun i j _ _ h => planeAddr_inj h) hi

theorem addPlane_other {s : State} {t b a : Nat} (h : ∀ i, i < s.ctx.blockArea → planeAddr s.ctx t i ≠ a) :
    Memory.read (addPlane t b s).bout a = Memory.read s.bout a :=
  read_forUp_write_other (v := fun i m => add8 (s.boutIn m (planeAddr s.ctx t i)) (s.boutIn m (planeAddr s.ctx b i))) h

/-- What the two writes of one iteration of a dual-target op leave, where the addresses differ. -/
theorem addPlanes_invariant {s : State} {t u b : Nat} (htu : t ≠ u) (htb : t ≠ b) (hub : u ≠ b) :
    (∀ i, i < s.ctx.blockArea →
      Memory.read (addPlanes t u b s).bout (planeAddr s.ctx t i) =
          some (s.boutAt (planeAddr s.ctx t i) + s.boutAt (planeAddr s.ctx b i)) ∧
      Memory.read (addPlanes t u b s).bout (planeAddr s.ctx u i) =
          some (s.boutAt (planeAddr s.ctx u i) + s.boutAt (planeAddr s.ctx b i))) ∧
    ∀ a, (∀ i, i < s.ctx.blockArea → planeAddr s.ctx t i ≠ a ∧ planeAddr s.ctx u i ≠ a) →
      Memory.read (addPlanes t u b s).bout a = Memory.read s.bout a := by
  have key := forUp_induct (n := s.ctx.blockArea) (x := s.bout)
    (body := fun i m =>
      let b' := s.boutIn m (planeAddr s.ctx b i)
      let m₁ := Memory.write m (planeAddr s.ctx t i) (add8 (s.boutIn m (planeAddr s.ctx t i)) b')
      Memory.write m₁ (planeAddr s.ctx u i) (add8 (s.boutIn m₁ (planeAddr s.ctx u i)) b'))
    (fun n y =>
      (∀ i, i < n →
        Memory.read y (planeAddr s.ctx t i) = some (s.boutAt (planeAddr s.ctx t i) + s.boutAt (planeAddr s.ctx b i)) ∧
        Memory.read y (planeAddr s.ctx u i) = some (s.boutAt (planeAddr s.ctx u i) + s.boutAt (planeAddr s.ctx b i))) ∧
      ∀ a, (∀ i, i < n → planeAddr s.ctx t i ≠ a ∧ planeAddr s.ctx u i ≠ a) → Memory.read y a = Memory.read s.bout a)
    ⟨fun i hi => by omega, fun a _ => rfl⟩
    (by
      intro n hn y hy
      obtain ⟨hd, ho⟩ := hy
      have hbn : s.boutIn y (planeAddr s.ctx b n) = s.boutAt (planeAddr s.ctx b n) :=
        boutIn_congr (ho _ fun i hi => ⟨planeAddr_ne htb (by omega) hn, planeAddr_ne hub (by omega) hn⟩)
      have htn : s.boutIn y (planeAddr s.ctx t n) = s.boutAt (planeAddr s.ctx t n) :=
        boutIn_congr (ho _ fun i hi =>
          ⟨fun h => by have := planeAddr_inj h; omega, planeAddr_ne (Ne.symm htu) (by omega) hn⟩)
      have hun : s.boutIn y (planeAddr s.ctx u n) = s.boutAt (planeAddr s.ctx u n) :=
        boutIn_congr (ho _ fun i hi =>
          ⟨planeAddr_ne htu (by omega) hn, fun h => by have := planeAddr_inj h; omega⟩)
      have htn_un : planeAddr s.ctx t n ≠ planeAddr s.ctx u n := planeAddr_ne htu hn hn
      have hun' : ∀ v, s.boutIn (Memory.write y (planeAddr s.ctx t n) v) (planeAddr s.ctx u n) =
          s.boutAt (planeAddr s.ctx u n) := fun v => by
        rw [← hun]
        exact boutIn_congr (Memory.read_write_ne _ _ htn_un.symm)
      simp only [add8_eq, hbn, htn, hun']
      constructor
      · intro i hi
        rcases Nat.lt_succ_iff_lt_or_eq.mp hi with hlt | rfl
        · have h1 : planeAddr s.ctx t i ≠ planeAddr s.ctx t n := fun h => by have := planeAddr_inj h; omega
          have h2 : planeAddr s.ctx t i ≠ planeAddr s.ctx u n := planeAddr_ne htu (by omega) hn
          have h3 : planeAddr s.ctx u i ≠ planeAddr s.ctx t n := planeAddr_ne (Ne.symm htu) (by omega) hn
          have h4 : planeAddr s.ctx u i ≠ planeAddr s.ctx u n := fun h => by have := planeAddr_inj h; omega
          rw [Memory.read_write_ne _ _ h2, Memory.read_write_ne _ _ h1, Memory.read_write_ne _ _ h4,
            Memory.read_write_ne _ _ h3]
          exact hd i hlt
        · exact ⟨by rw [Memory.read_write_ne _ _ htn_un, Memory.read_write_same], by rw [Memory.read_write_same]⟩
      · intro a ha
        obtain ⟨ha1, ha2⟩ := ha n (Nat.lt_succ_self n)
        rw [Memory.read_write_ne _ _ ha2.symm, Memory.read_write_ne _ _ ha1.symm]
        exact ho a fun i hi => ha i (Nat.lt_succ_of_lt hi))
  exact key

/-- The accumulate branch on one row (43_block_transform.md R169). -/
theorem accumulateRow_spec (s : State) (r : Nat) (m p : ByteMemory) :
    (∀ x, x < s.ctx.blockSize → Memory.read (accumulateRow s r (m, p)).1 (rowAddr s.ctx r x) =
      some (s.pcolIn p (pcolAddr s.ctx s.blkY r) + sumTo (fun j => s.boutIn m (rowAddr s.ctx r j)) (x + 1))) ∧
    (∀ a, (∀ x, x < s.ctx.blockSize → rowAddr s.ctx r x ≠ a) →
      Memory.read (accumulateRow s r (m, p)).1 a = Memory.read m a) ∧
    (accumulateRow s r (m, p)).2 = Memory.write p (pcolAddr s.ctx s.blkY r)
      (s.pcolIn p (pcolAddr s.ctx s.blkY r) + sumTo (fun j => s.boutIn m (rowAddr s.ctx r j)) s.ctx.blockSize) := by
  have key := forUp_induct (n := s.ctx.blockSize) (x := (m, s.pcolIn p (pcolAddr s.ctx s.blkY r)))
    (body := fun x (mr : ByteMemory × Byte) =>
      let run := add8 mr.2 (s.boutIn mr.1 (rowAddr s.ctx r x))
      (Memory.write mr.1 (rowAddr s.ctx r x) run, run))
    (fun n y =>
      (∀ x, x < n → Memory.read y.1 (rowAddr s.ctx r x) =
        some (s.pcolIn p (pcolAddr s.ctx s.blkY r) + sumTo (fun j => s.boutIn m (rowAddr s.ctx r j)) (x + 1))) ∧
      (∀ a, (∀ x, x < n → rowAddr s.ctx r x ≠ a) → Memory.read y.1 a = Memory.read m a) ∧
      y.2 = s.pcolIn p (pcolAddr s.ctx s.blkY r) + sumTo (fun j => s.boutIn m (rowAddr s.ctx r j)) n)
    ⟨fun x hx => by omega, fun a _ => rfl, by simp [sumTo]⟩
    (by
      intro n _ y hy
      obtain ⟨hd, ho, hr⟩ := hy
      have hne : ∀ x, x < n → rowAddr s.ctx r x ≠ rowAddr s.ctx r n := fun x hx h => by
        unfold rowAddr at h
        omega
      have hn : s.boutIn y.1 (rowAddr s.ctx r n) = s.boutIn m (rowAddr s.ctx r n) := boutIn_congr (ho _ hne)
      simp only [add8_eq, hr, hn]
      refine ⟨?_, ?_, by simp [sumTo, BitVec.add_assoc]⟩
      · intro x hx
        rcases Nat.lt_succ_iff_lt_or_eq.mp hx with hlt | rfl
        · rw [Memory.read_write_ne _ _ (hne x hlt)]
          exact hd x hlt
        · rw [Memory.read_write_same]
          simp [sumTo, BitVec.add_assoc]
      · intro a ha
        rw [Memory.read_write_ne _ _ (ha n (Nat.lt_succ_self n)).symm]
        exact ho a fun x hx => ha x (Nat.lt_succ_of_lt hx))
  obtain ⟨hd, ho, hr⟩ := key
  refine ⟨hd, ho, ?_⟩
  unfold accumulateRow
  simp only [hr]

/-- The accumulate branch (43_block_transform.md R169) over all logical rows. -/
theorem horizontalAccumulate_spec (s : State) :
    (∀ r x, r < s.ctx.blockStride → x < s.ctx.blockSize →
      Memory.read (horizontalAccumulate s).bout (rowAddr s.ctx r x) =
        some (s.pcolAt (pcolAddr s.ctx s.blkY r) + sumTo (fun j => s.boutAt (rowAddr s.ctx r j)) (x + 1))) ∧
    (∀ a, (∀ r x, r < s.ctx.blockStride → x < s.ctx.blockSize → rowAddr s.ctx r x ≠ a) →
      Memory.read (horizontalAccumulate s).bout a = Memory.read s.bout a) ∧
    (∀ r, r < s.ctx.blockStride →
      Memory.read (horizontalAccumulate s).pcol (pcolAddr s.ctx s.blkY r) =
        some (s.pcolAt (pcolAddr s.ctx s.blkY r) + sumTo (fun j => s.boutAt (rowAddr s.ctx r j)) s.ctx.blockSize)) ∧
    (∀ a, (∀ r, r < s.ctx.blockStride → pcolAddr s.ctx s.blkY r ≠ a) →
      Memory.read (horizontalAccumulate s).pcol a = Memory.read s.pcol a) := by
  have key := forUp_induct (n := s.ctx.blockStride) (x := (s.bout, s.pcol)) (body := accumulateRow s)
    (fun n y =>
      (∀ r x, r < n → x < s.ctx.blockSize → Memory.read y.1 (rowAddr s.ctx r x) =
        some (s.pcolAt (pcolAddr s.ctx s.blkY r) + sumTo (fun j => s.boutAt (rowAddr s.ctx r j)) (x + 1))) ∧
      (∀ a, (∀ r x, r < n → x < s.ctx.blockSize → rowAddr s.ctx r x ≠ a) → Memory.read y.1 a = Memory.read s.bout a) ∧
      (∀ r, r < n → Memory.read y.2 (pcolAddr s.ctx s.blkY r) =
        some (s.pcolAt (pcolAddr s.ctx s.blkY r) + sumTo (fun j => s.boutAt (rowAddr s.ctx r j)) s.ctx.blockSize)) ∧
      (∀ a, (∀ r, r < n → pcolAddr s.ctx s.blkY r ≠ a) → Memory.read y.2 a = Memory.read s.pcol a))
    ⟨fun r x hr => by omega, fun a _ => rfl, fun r hr => by omega, fun a _ => rfl⟩
    (by
      intro n _ y hy
      obtain ⟨hb, hbo, hp, hpo⟩ := hy
      obtain ⟨sb, sbo, sp⟩ := accumulateRow_spec s n y.1 y.2
      have hseed : s.pcolIn y.2 (pcolAddr s.ctx s.blkY n) = s.pcolAt (pcolAddr s.ctx s.blkY n) :=
        pcolIn_congr (hpo _ fun r hr h => by have := pcolAddr_inj h; omega)
      have hrow : ∀ x k, k ≤ s.ctx.blockSize → x = k →
          sumTo (fun j => s.boutIn y.1 (rowAddr s.ctx n j)) x = sumTo (fun j => s.boutAt (rowAddr s.ctx n j)) k := by
        intro x k hk hxk
        subst hxk
        induction x with
        | zero => rfl
        | succ x ih =>
          have hx : s.boutIn y.1 (rowAddr s.ctx n x) = s.boutAt (rowAddr s.ctx n x) :=
            boutIn_congr (hbo _ fun r x' hr hx' h => by
              have := (rowAddr_inj hx' (by omega) h).1
              omega)
          simp only [sumTo, ih (by omega), hx]
      refine ⟨?_, ?_, ?_, ?_⟩
      · intro r x hr hx
        rcases Nat.lt_succ_iff_lt_or_eq.mp hr with hlt | rfl
        · rw [sbo _ fun x' hx' h => by have := (rowAddr_inj hx' hx h).1; omega]
          exact hb r x hlt hx
        · rw [sb x hx, hseed, hrow (x + 1) (x + 1) hx rfl]
      · intro a ha
        rw [sbo a fun x hx => ha n x (Nat.lt_succ_self n) hx]
        exact hbo a fun r x hr hx => ha r x (Nat.lt_succ_of_lt hr) hx
      · intro r hr
        rw [sp, Memory.read_write]
        split
        · rename_i h
          have := pcolAddr_inj h
          subst this
          rw [hseed, hrow _ _ (Nat.le_refl _) rfl]
        · rename_i h
          have hlt : r < n := by
            rcases Nat.lt_succ_iff_lt_or_eq.mp hr with h1 | h1
            · exact h1
            · exact absurd (by rw [h1]) h
          exact hp r hlt
      · intro a ha
        rw [sp, Memory.read_write_ne _ _ (ha n (Nat.lt_succ_self n)).symm]
        exact hpo a fun r hr => ha r (Nat.lt_succ_of_lt hr))
  exact key

/-- The capture branch (43_block_transform.md R170). -/
theorem horizontalCapture_read {s : State} {r : Nat} (hr : r < s.ctx.blockStride) :
    Memory.read (horizontalCapture s).pcol (pcolAddr s.ctx s.blkY r) =
      some (s.boutAt (rowAddr s.ctx r (s.ctx.blockSize - 1))) :=
  read_forUp_write (f := pcolAddr s.ctx s.blkY)
    (v := fun r => s.boutIn s.bout (rowAddr s.ctx r (s.ctx.blockSize - 1))) (fun _ _ _ _ h => pcolAddr_inj h) hr

theorem horizontalCapture_other {s : State} {a : Nat} (h : ∀ r, r < s.ctx.blockStride → pcolAddr s.ctx s.blkY r ≠ a) :
    Memory.read (horizontalCapture s).pcol a = Memory.read s.pcol a :=
  read_forUp_write_other (f := pcolAddr s.ctx s.blkY)
    (v := fun r _ => s.boutIn s.bout (rowAddr s.ctx r (s.ctx.blockSize - 1))) h

/-- What the vertical pass leaves at `(c, y, x)` (43_block_transform.md R172, R173): chained, the sum down the column from the row
state; else the row state added to the sample. -/
def verticalValue (s : State) (m p : ByteMemory) (c y x : Nat) : Byte :=
  if s.cfg.vpredChained then
    s.prowIn p (prowAddr s.ctx s.blkX c x) + sumTo (fun j => s.boutIn m (planarAddr s.ctx c j x)) (y + 1)
  else s.boutIn m (planarAddr s.ctx c y x) + s.prowIn p (prowAddr s.ctx s.blkX c x)

/-- The vertical pass on one channel. -/
theorem verticalChannel_spec (s : State) (hA : s.ctx.blockArea = s.ctx.blockSize * s.ctx.blockSize) (c : Nat)
    (m p : ByteMemory) :
    (∀ y x, y < s.ctx.blockSize → x < s.ctx.blockSize →
      Memory.read (verticalChannel s c (m, p)).1 (planarAddr s.ctx c y x) = some (verticalValue s m p c y x)) ∧
    (∀ a, (∀ y x, y < s.ctx.blockSize → x < s.ctx.blockSize → planarAddr s.ctx c y x ≠ a) →
      Memory.read (verticalChannel s c (m, p)).1 a = Memory.read m a) ∧
    (∀ x, x < s.ctx.blockSize → Memory.read (verticalChannel s c (m, p)).2 (prowAddr s.ctx s.blkX c x) =
      some (verticalValue s m p c (s.ctx.blockSize - 1) x)) ∧
    (∀ a, (∀ x, x < s.ctx.blockSize → prowAddr s.ctx s.blkX c x ≠ a) →
      Memory.read (verticalChannel s c (m, p)).2 a = Memory.read p a) := by
  have inner := forUp_induct (n := s.ctx.blockSize * s.ctx.blockSize) (x := m)
    (body := fun k m' => Memory.write m' (planarAddr s.ctx c (k / s.ctx.blockSize) (k % s.ctx.blockSize))
      (add8 (s.boutIn m' (planarAddr s.ctx c (k / s.ctx.blockSize) (k % s.ctx.blockSize)))
        (verticalAddend s m' p c (k / s.ctx.blockSize) (k % s.ctx.blockSize))))
    (fun n z =>
      (∀ y x, y < s.ctx.blockSize → x < s.ctx.blockSize → y * s.ctx.blockSize + x < n →
        Memory.read z (planarAddr s.ctx c y x) = some (verticalValue s m p c y x)) ∧
      (∀ a, (∀ y x, y < s.ctx.blockSize → x < s.ctx.blockSize → y * s.ctx.blockSize + x < n →
        planarAddr s.ctx c y x ≠ a) → Memory.read z a = Memory.read m a))
    ⟨fun y x _ _ h => by omega, fun a _ => rfl⟩
    (by
      intro n hn z hz
      obtain ⟨hd, ho⟩ := hz
      have hS : 0 < s.ctx.blockSize := by
        rcases Nat.eq_zero_or_pos s.ctx.blockSize with h | h
        · rw [h] at hn
          omega
        · exact h
      have hy : n / s.ctx.blockSize < s.ctx.blockSize := Nat.div_lt_of_lt_mul hn
      have hx : n % s.ctx.blockSize < s.ctx.blockSize := Nat.mod_lt _ hS
      have hk : n / s.ctx.blockSize * s.ctx.blockSize + n % s.ctx.blockSize = n := by
        rw [Nat.mul_comm]
        exact Nat.div_add_mod n s.ctx.blockSize
      generalize n / s.ctx.blockSize = y₀ at *
      generalize n % s.ctx.blockSize = x₀ at *
      have hself : s.boutIn z (planarAddr s.ctx c y₀ x₀) = s.boutIn m (planarAddr s.ctx c y₀ x₀) :=
        boutIn_congr (ho _ fun y x hy' hx' hlt h => by
          obtain ⟨-, rfl, rfl⟩ := planarAddr_inj hA hy' hx' hy hx h
          omega)
      have hval : add8 (s.boutIn z (planarAddr s.ctx c y₀ x₀)) (verticalAddend s z p c y₀ x₀) =
          verticalValue s m p c y₀ x₀ := by
        rw [add8_eq, hself]
        unfold verticalAddend verticalValue
        cases hch : s.cfg.vpredChained
        · simp
        · by_cases h0 : y₀ = 0
          · subst h0
            simp [sumTo, BitVec.add_comm]
          · obtain ⟨y₁, rfl⟩ := Nat.exists_eq_succ_of_ne_zero h0
            have habove := hd y₁ x₀ (by omega) hx (by
              have : y₁ * s.ctx.blockSize + s.ctx.blockSize = (y₁ + 1) * s.ctx.blockSize := (Nat.succ_mul _ _).symm
              rw [Nat.succ_eq_add_one] at hk
              omega)
            have := boutIn_of_read (s := s) habove
            simp only [Nat.succ_eq_add_one, Nat.add_one_ne_zero, Bool.true_eq_false, or_self, if_false,
              Nat.add_sub_cancel, this, verticalValue, hch, if_true]
            simp only [sumTo]
            rw [BitVec.add_comm]
            simp only [BitVec.add_assoc]
      rw [hval]
      constructor
      · intro y x hy' hx' hlt
        rw [Memory.read_write]
        split
        · rename_i h
          obtain ⟨-, rfl, rfl⟩ := planarAddr_inj hA hy' hx' hy hx h
          rfl
        · rename_i h
          apply hd y x hy' hx'
          rcases Nat.lt_succ_iff_lt_or_eq.mp hlt with h1 | h1
          · exact h1
          · have := pair_inj hx' hx (h1.trans hk.symm)
            obtain ⟨rfl, rfl⟩ := this
            exact absurd rfl h
      · intro a ha
        rw [Memory.read_write_ne _ _ (ha y₀ x₀ hy hx (by omega)).symm]
        exact ho a fun y x hy' hx' hlt => ha y x hy' hx' (Nat.lt_succ_of_lt hlt))
  have e : (verticalChannel s c (m, p)).1 = forUp (s.ctx.blockSize * s.ctx.blockSize)
      (fun k m' => Memory.write m' (planarAddr s.ctx c (k / s.ctx.blockSize) (k % s.ctx.blockSize))
        (add8 (s.boutIn m' (planarAddr s.ctx c (k / s.ctx.blockSize) (k % s.ctx.blockSize)))
          (verticalAddend s m' p c (k / s.ctx.blockSize) (k % s.ctx.blockSize)))) m :=
    forUp_nested s.ctx.blockSize s.ctx.blockSize
      (fun y x m' => Memory.write m' (planarAddr s.ctx c y x)
        (add8 (s.boutIn m' (planarAddr s.ctx c y x)) (verticalAddend s m' p c y x))) m
  rw [← e] at inner
  obtain ⟨hd, ho⟩ := inner
  have hd' : ∀ y x, y < s.ctx.blockSize → x < s.ctx.blockSize →
      Memory.read (verticalChannel s c (m, p)).1 (planarAddr s.ctx c y x) = some (verticalValue s m p c y x) :=
    fun y x hy hx => hd y x hy hx (pair_lt hy hx)
  refine ⟨hd', fun a ha => ho a fun y x hy hx _ => ha y x hy hx, ?_, ?_⟩
  · intro x hx
    have := read_forUp_write (n := s.ctx.blockSize) (f := prowAddr s.ctx s.blkX c)
      (v := fun x => s.boutIn (verticalChannel s c (m, p)).1 (planarAddr s.ctx c (s.ctx.blockSize - 1) x)) (m := p)
      (fun _ _ hi hj h => (prowAddr_inj hi hj h).2) hx
    refine this.trans ?_
    rw [boutIn_of_read (hd' (s.ctx.blockSize - 1) x (by omega) hx)]
  · intro a ha
    exact read_forUp_write_other (f := prowAddr s.ctx s.blkX c)
      (v := fun x _ => s.boutIn (verticalChannel s c (m, p)).1 (planarAddr s.ctx c (s.ctx.blockSize - 1) x)) ha

/-- The vertical pass (43_block_transform.md R172 to R174) over all channels. -/
theorem vertical_spec (s : State) (hA : s.ctx.blockArea = s.ctx.blockSize * s.ctx.blockSize) :
    (∀ c y x, c < s.ctx.channels → y < s.ctx.blockSize → x < s.ctx.blockSize →
      Memory.read (vertical s).bout (planarAddr s.ctx c y x) = some (verticalValue s s.bout s.prow c y x)) ∧
    (∀ a, (∀ c y x, c < s.ctx.channels → y < s.ctx.blockSize → x < s.ctx.blockSize → planarAddr s.ctx c y x ≠ a) →
      Memory.read (vertical s).bout a = Memory.read s.bout a) ∧
    (∀ c x, c < s.ctx.channels → x < s.ctx.blockSize → Memory.read (vertical s).prow (prowAddr s.ctx s.blkX c x) =
      some (verticalValue s s.bout s.prow c (s.ctx.blockSize - 1) x)) ∧
    (∀ a, (∀ c x, c < s.ctx.channels → x < s.ctx.blockSize → prowAddr s.ctx s.blkX c x ≠ a) →
      Memory.read (vertical s).prow a = Memory.read s.prow a) := by
  have key := forUp_induct (n := s.ctx.channels) (x := (s.bout, s.prow)) (body := verticalChannel s)
    (fun n z =>
      (∀ c y x, c < n → y < s.ctx.blockSize → x < s.ctx.blockSize →
        Memory.read z.1 (planarAddr s.ctx c y x) = some (verticalValue s s.bout s.prow c y x)) ∧
      (∀ a, (∀ c y x, c < n → y < s.ctx.blockSize → x < s.ctx.blockSize → planarAddr s.ctx c y x ≠ a) →
        Memory.read z.1 a = Memory.read s.bout a) ∧
      (∀ c x, c < n → x < s.ctx.blockSize → Memory.read z.2 (prowAddr s.ctx s.blkX c x) =
        some (verticalValue s s.bout s.prow c (s.ctx.blockSize - 1) x)) ∧
      (∀ a, (∀ c x, c < n → x < s.ctx.blockSize → prowAddr s.ctx s.blkX c x ≠ a) →
        Memory.read z.2 a = Memory.read s.prow a))
    ⟨fun c y x h => by omega, fun a _ => rfl, fun c x h => by omega, fun a _ => rfl⟩
    (by
      intro n _ z hz
      obtain ⟨hb, hbo, hp, hpo⟩ := hz
      obtain ⟨vb, vbo, vp, vpo⟩ := verticalChannel_spec s hA n z.1 z.2
      have hval : ∀ y x, y < s.ctx.blockSize → x < s.ctx.blockSize →
          verticalValue s z.1 z.2 n y x = verticalValue s s.bout s.prow n y x := by
        intro y x hy hx
        have hpr : s.prowIn z.2 (prowAddr s.ctx s.blkX n x) = s.prowIn s.prow (prowAddr s.ctx s.blkX n x) :=
          prowIn_congr (hpo _ fun c x' hc hx' h => by have := (prowAddr_inj hx' hx h).1; omega)
        have hbo' : ∀ j, j < s.ctx.blockSize →
            s.boutIn z.1 (planarAddr s.ctx n j x) = s.boutIn s.bout (planarAddr s.ctx n j x) := fun j hj =>
          boutIn_congr (hbo _ fun c y' x' hc hy' hx' h => by
            have := (planarAddr_inj hA hy' hx' hj hx h).1
            omega)
        have hsum : ∀ k, k ≤ s.ctx.blockSize →
            sumTo (fun j => s.boutIn z.1 (planarAddr s.ctx n j x)) k =
              sumTo (fun j => s.boutIn s.bout (planarAddr s.ctx n j x)) k := by
          intro k hk
          induction k with
          | zero => rfl
          | succ k ih => simp only [sumTo, ih (by omega), hbo' k (by omega)]
        unfold verticalValue
        rw [hpr, hsum (y + 1) hy, hbo' y hy]
      refine ⟨?_, ?_, ?_, ?_⟩
      · intro c y x hc hy hx
        rcases Nat.lt_succ_iff_lt_or_eq.mp hc with hlt | rfl
        · rw [vbo _ fun y' x' hy' hx' h => by have := (planarAddr_inj hA hy' hx' hy hx h).1; omega]
          exact hb c y x hlt hy hx
        · rw [vb y x hy hx, hval y x hy hx]
      · intro a ha
        rw [vbo a fun y x hy hx => ha n y x (Nat.lt_succ_self n) hy hx]
        exact hbo a fun c y x hc hy hx => ha c y x (Nat.lt_succ_of_lt hc) hy hx
      · intro c x hc hx
        rcases Nat.lt_succ_iff_lt_or_eq.mp hc with hlt | rfl
        · rw [vpo _ fun x' hx' h => by have := (prowAddr_inj hx' hx h).1; omega]
          exact hp c x hlt hx
        · rw [vp x hx, hval _ x (by omega) hx]
      · intro a ha
        rw [vpo a fun x hx => ha n x (Nat.lt_succ_self n) hx]
        exact hpo a fun c x hc hx => ha c x (Nat.lt_succ_of_lt hc) hx)
  exact key

/-- The edge-state clear (43_block_transform.md R160). -/
theorem clearBytes_read {n a : Nat} {m : ByteMemory} (h : a < n) : Memory.read (clearBytes n m) a = some 0 :=
  read_forUp_write (f := fun a => a) (v := fun _ => (0 : Byte)) (fun _ _ _ _ h => h) h

theorem clearBytes_other {n a : Nat} {m : ByteMemory} (h : n ≤ a) :
    Memory.read (clearBytes n m) a = Memory.read m a :=
  read_forUp_write_other (f := fun a => a) (v := fun _ _ => (0 : Byte)) fun i hi => by omega

/-- A loop over channels, rows and columns that writes to distinct addresses. -/
theorem read_forUp_block {α : Type} {n k l : Nat} {f : Nat → Nat → Nat → Nat} {v : Nat → Nat → Nat → α}
    {m : List (Nat × α)}
    (inj : ∀ c y x c' y' x', c < n → y < k → x < l → c' < n → y' < k → x' < l → f c y x = f c' y' x' →
      c = c' ∧ y = y' ∧ x = x') :
    (∀ c y x, c < n → y < k → x < l →
      Memory.read (forUp n (fun c => forUp k fun y => forUp l fun x m => Memory.write m (f c y x) (v c y x)) m) (f c y x) =
        some (v c y x)) ∧
    (∀ a, (∀ c y x, c < n → y < k → x < l → f c y x ≠ a) →
      Memory.read (forUp n (fun c => forUp k fun y => forUp l fun x m => Memory.write m (f c y x) (v c y x)) m) a =
        Memory.read m a) := by
  have e : forUp n (fun c => forUp k fun y => forUp l fun x m => Memory.write m (f c y x) (v c y x)) m =
      forUp (n * (k * l)) (fun i m => Memory.write m (f (i / (k * l)) (i % (k * l) / l) (i % (k * l) % l))
        (v (i / (k * l)) (i % (k * l) / l) (i % (k * l) % l))) m := by
    rw [← forUp_nested n (k * l) (fun c j m => Memory.write m (f c (j / l) (j % l)) (v c (j / l) (j % l)))]
    apply forUp_congr
    intro c _ y
    exact forUp_nested k l (fun y x m => Memory.write m (f c y x) (v c y x)) y
  rw [e]
  have bounds : ∀ i, i < n * (k * l) → i / (k * l) < n ∧ i % (k * l) / l < k ∧ i % (k * l) % l < l ∧
      i = i / (k * l) * (k * l) + (i % (k * l) / l * l + i % (k * l) % l) := by
    intro i hi
    have hkl : 0 < k * l := by
      rcases Nat.eq_zero_or_pos (k * l) with h | h
      · rw [h] at hi
        omega
      · exact h
    have hl : 0 < l := Nat.pos_of_mul_pos_left hkl
    have hm : i % (k * l) < k * l := Nat.mod_lt _ hkl
    refine ⟨Nat.div_lt_of_lt_mul (by rw [Nat.mul_comm (k * l) n]; exact hi), Nat.div_lt_of_lt_mul (by rw [Nat.mul_comm l k]; exact hm),
      Nat.mod_lt _ hl, ?_⟩
    rw [Nat.mul_comm (i % (k * l) / l), Nat.div_add_mod, Nat.mul_comm (i / (k * l)), Nat.div_add_mod]
  constructor
  · intro c y x hc hy hx
    have hyx : y * l + x < k * l := pair_lt hy hx
    have hi : c * (k * l) + (y * l + x) < n * (k * l) := pair_lt hc hyx
    have hl : 0 < l := by omega
    have h1 : (c * (k * l) + (y * l + x)) / (k * l) = c := by
      rw [Nat.mul_comm, Nat.mul_add_div (by omega), Nat.div_eq_of_lt hyx, Nat.add_zero]
    have h2 : (c * (k * l) + (y * l + x)) % (k * l) = y * l + x := by
      rw [Nat.mul_comm, Nat.mul_add_mod, Nat.mod_eq_of_lt hyx]
    have h3 : (y * l + x) / l = y := by
      rw [Nat.mul_comm, Nat.mul_add_div hl, Nat.div_eq_of_lt hx, Nat.add_zero]
    have h4 : (y * l + x) % l = x := by
      rw [Nat.mul_comm, Nat.mul_add_mod, Nat.mod_eq_of_lt hx]
    have := read_forUp_write (n := n * (k * l)) (m := m)
      (f := fun i => f (i / (k * l)) (i % (k * l) / l) (i % (k * l) % l))
      (v := fun i => v (i / (k * l)) (i % (k * l) / l) (i % (k * l) % l))
      (by
        intro i j hi hj h
        obtain ⟨a1, a2, a3, a4⟩ := bounds i hi
        obtain ⟨b1, b2, b3, b4⟩ := bounds j hj
        obtain ⟨e1, e2, e3⟩ := inj _ _ _ _ _ _ a1 a2 a3 b1 b2 b3 h
        rw [a4, b4, e1, e2, e3]) hi
    simp only [h1, h2, h3, h4] at this
    exact this
  · intro a ha
    exact read_forUp_write_other (f := fun i => f (i / (k * l)) (i % (k * l) / l) (i % (k * l) % l))
      (v := fun i _ => v (i / (k * l)) (i % (k * l) / l) (i % (k * l) % l)) fun i hi => by
        obtain ⟨a1, a2, a3, -⟩ := bounds i hi
        exact ha _ _ _ a1 a2 a3

/-- The frame assembler's scatter (44_frame_assembler.md R190), for a block inside the grid. -/
theorem emitBlock_spec (s : State) (hx : s.blkX < s.ctx.widthBlocks) :
    (∀ c y x, c < s.ctx.channels → y < s.ctx.blockSize → x < s.ctx.blockSize →
      Memory.read (emitBlock s).canvas (emitAddr s.ctx s.blkX s.blkY c y x) = some (s.boutAt (planarAddr s.ctx c y x))) ∧
    (∀ a, (∀ c y x, c < s.ctx.channels → y < s.ctx.blockSize → x < s.ctx.blockSize →
      emitAddr s.ctx s.blkX s.blkY c y x ≠ a) → Memory.read (emitBlock s).canvas a = Memory.read s.canvas a) :=
  read_forUp_block fun _ _ _ _ _ _ hc _ hx1 hc' _ hx2 h => emitAddr_inj hx hc hc' hx1 hx2 h

end Sys2Proof.Machine
end

