-- ==== Sys2Proof/Laws/Permutation.lean ====
section
/-! SUPPORT. What PERM_BUILD leaves in PERM: the closed forms of 41_permutation_rom.md R121 to R124, and the bijection R126. -/

namespace Sys2Proof.Machine

/-- Three nested loops of pushes are one loop of writes to consecutive addresses. -/
theorem push_nest (a b c : Nat) (g : Nat → Nat → Nat → Nat) (m : IndexMemory) (k : Nat) :
    forUp a (fun i => forUp b fun j => forUp c fun l => pushIndex (g i j l)) (m, k) =
      (forUp (a * (b * c)) (fun t m => Memory.write m (k + t) (g (t / (b * c)) (t % (b * c) / c) (t % (b * c) % c))) m,
        k + a * (b * c)) := by
  have flat : forUp a (fun i => forUp b fun j => forUp c fun l => pushIndex (g i j l)) (m, k) =
      forUp (a * (b * c)) (fun t => pushIndex (g (t / (b * c)) (t % (b * c) / c) (t % (b * c) % c))) (m, k) := by
    rw [← forUp_nested a (b * c) (fun i t => pushIndex (g i (t / c) (t % c)))]
    apply forUp_congr
    intro i _ y
    exact forUp_nested b c (fun j l => pushIndex (g i j l)) y
  rw [flat]
  generalize a * (b * c) = n
  induction n with
  | zero => rfl
  | succ n ih => rw [forUp_succ, ih, forUp_succ, pushIndex, Nat.add_assoc]

/-- What such a nest leaves: entry `i*(b*c) + j*c + l` of the run, and everything outside the run as before. -/
theorem push_nest_read (a b c : Nat) (g : Nat → Nat → Nat → Nat) (m : IndexMemory) (k : Nat) :
    (∀ i j l, i < a → j < b → l < c →
      Memory.read (forUp a (fun i => forUp b fun j => forUp c fun l => pushIndex (g i j l)) (m, k)).1
        (k + (i * (b * c) + (j * c + l))) = some (g i j l)) ∧
    (∀ d, d < k ∨ k + a * (b * c) ≤ d →
      Memory.read (forUp a (fun i => forUp b fun j => forUp c fun l => pushIndex (g i j l)) (m, k)).1 d = Memory.read m d) := by
  rw [push_nest]
  constructor
  · intro i j l hi hj hl
    have hjl : j * c + l < b * c := pair_lt hj hl
    have hc : 0 < c := by omega
    have h1 : (i * (b * c) + (j * c + l)) / (b * c) = i := by
      rw [Nat.mul_comm, Nat.mul_add_div (by omega), Nat.div_eq_of_lt hjl, Nat.add_zero]
    have h2 : (i * (b * c) + (j * c + l)) % (b * c) = j * c + l := by
      rw [Nat.mul_comm, Nat.mul_add_mod, Nat.mod_eq_of_lt hjl]
    have h3 : (j * c + l) / c = j := by
      rw [Nat.mul_comm, Nat.mul_add_div hc, Nat.div_eq_of_lt hl, Nat.add_zero]
    have h4 : (j * c + l) % c = l := by
      rw [Nat.mul_comm, Nat.mul_add_mod, Nat.mod_eq_of_lt hl]
    have := read_forUp_write (n := a * (b * c)) (m := m) (f := fun t => k + t)
      (v := fun t => g (t / (b * c)) (t % (b * c) / c) (t % (b * c) % c)) (fun _ _ _ _ h => Nat.add_left_cancel h)
      (pair_lt hi hjl)
    simp only [h1, h2, h3, h4] at this
    exact this
  · intro d hd
    exact read_forUp_write_other (f := fun t => k + t)
      (v := fun t _ => g (t / (b * c)) (t % (b * c) / c) (t % (b * c) % c)) fun i hi => by omega

/-- The four segments PERM_BUILD writes (41_permutation_rom.md R121 to R124), and nothing past them. -/
theorem buildPerm_spec {g : Context} (hA : g.blockArea = g.blockSize * g.blockSize)
    (hN : g.blockSamples = g.blockArea * g.channels) (m : IndexMemory) :
    (∀ c y x, c < g.channels → y < g.blockSize → x < g.blockSize →
      Memory.read (buildPerm g m) (permAddr g 0 (planarAddr g c y x)) = some (planarAddr g c y x) ∧
      Memory.read (buildPerm g m) (permAddr g 1 (planarAddr g c y x)) = some (planarAddr g c x y) ∧
      Memory.read (buildPerm g m) (permAddr g 2 ((y * g.blockSize + x) * g.channels + c)) = some (planarAddr g c y x) ∧
      Memory.read (buildPerm g m) (permAddr g 3 ((y * g.blockSize + x) * g.channels + c)) = some (planarAddr g c x y)) ∧
    (∀ a, 4 * g.blockSamples ≤ a → Memory.read (buildPerm g m) a = Memory.read m a) := by
  have hn1 : g.channels * (g.blockSize * g.blockSize) = g.blockSamples := by
    rw [hN, hA, Nat.mul_comm]
  have hn2 : g.blockSize * (g.blockSize * g.channels) = g.blockSamples := by
    rw [hN, hA, Nat.mul_assoc]
  obtain ⟨r1, o1⟩ := push_nest_read g.channels g.blockSize g.blockSize (plainIndex g) m 0
  have e1 := push_nest g.channels g.blockSize g.blockSize (plainIndex g) m 0
  rw [hn1, Nat.zero_add] at e1
  rw [hn1, Nat.zero_add] at o1
  generalize hm1 : (forUp g.channels (fun i => forUp g.blockSize fun j => forUp g.blockSize fun l =>
    pushIndex (plainIndex g i j l)) (m, 0)) = s1 at *
  have k1 : s1 = (s1.1, g.blockSamples) := by rw [e1]
  obtain ⟨r2, o2⟩ := push_nest_read g.channels g.blockSize g.blockSize (transposedIndex g) s1.1 g.blockSamples
  have e2 := push_nest g.channels g.blockSize g.blockSize (transposedIndex g) s1.1 g.blockSamples
  rw [hn1] at e2 o2
  generalize hm2 : (forUp g.channels (fun i => forUp g.blockSize fun j => forUp g.blockSize fun l =>
    pushIndex (transposedIndex g i j l)) (s1.1, g.blockSamples)) = s2 at *
  have k2 : s2 = (s2.1, g.blockSamples + g.blockSamples) := by rw [e2]
  obtain ⟨r3, o3⟩ := push_nest_read g.blockSize g.blockSize g.channels (fun y x c => plainIndex g c y x) s2.1
    (g.blockSamples + g.blockSamples)
  have e3 := push_nest g.blockSize g.blockSize g.channels (fun y x c => plainIndex g c y x) s2.1
    (g.blockSamples + g.blockSamples)
  rw [hn2] at e3 o3
  generalize hm3 : (forUp g.blockSize (fun i => forUp g.blockSize fun j => forUp g.channels fun l =>
    pushIndex (plainIndex g l i j)) (s2.1, g.blockSamples + g.blockSamples)) = s3 at *
  have k3 : s3 = (s3.1, g.blockSamples + g.blockSamples + g.blockSamples) := by rw [e3]
  obtain ⟨r4, o4⟩ := push_nest_read g.blockSize g.blockSize g.channels (fun y x c => transposedIndex g c y x) s3.1
    (g.blockSamples + g.blockSamples + g.blockSamples)
  rw [hn2] at o4
  have hb : buildPerm g m = (forUp g.blockSize (fun i => forUp g.blockSize fun j => forUp g.channels fun l =>
      pushIndex (transposedIndex g l i j)) (s3.1, g.blockSamples + g.blockSamples + g.blockSamples)).1 := by
    unfold buildPerm pixelMajor channelMajor
    rw [hm1, k1, hm2, k2, hm3, k3]
  rw [← hb] at r4 o4
  have pl : ∀ c y x, c < g.channels → y < g.blockSize → x < g.blockSize → planarAddr g c y x < g.blockSamples := by
    intro c y x hc hy hx
    have := planarAddr_lt hA hc hy hx
    rw [hN, Nat.mul_comm]
    exact this
  have pe : ∀ c y x, planarAddr g c y x = c * (g.blockSize * g.blockSize) + (y * g.blockSize + x) := by
    intro c y x
    unfold planarAddr
    rw [hA, Nat.add_assoc]
  have pi : ∀ c y x, c < g.channels → y < g.blockSize → x < g.blockSize →
      (y * g.blockSize + x) * g.channels + c < g.blockSamples ∧
      y * (g.blockSize * g.channels) + (x * g.channels + c) = (y * g.blockSize + x) * g.channels + c := by
    intro c y x hc hy hx
    refine ⟨?_, ?_⟩
    · rw [hN, hA]
      exact pair_lt (pair_lt hy hx) hc
    · rw [Nat.add_mul, Nat.mul_assoc, Nat.add_assoc]
  constructor
  · intro c y x hc hy hx
    have hp := pl c y x hc hy hx
    obtain ⟨hq, hqe⟩ := pi c y x hc hy hx
    have h1 := r1 c y x hc hy hx
    have h2 := r2 c y x hc hy hx
    have h3 := r3 y x c hy hx hc
    have h4 := r4 y x c hy hx hc
    rw [← pe] at h1 h2
    rw [hqe] at h3 h4
    have t : transposedIndex g c y x = planarAddr g c x y := by
      unfold transposedIndex planarAddr
      omega
    unfold permAddr
    refine ⟨?_, ?_, ?_, ?_⟩
    · rw [o4 _ (by omega), o3 _ (by omega), o2 _ (by omega)]
      rw [Nat.zero_mul]
      exact h1
    · rw [o4 _ (by omega), o3 _ (by omega), Nat.one_mul, h2, t]
    · rw [o4 _ (by omega), Nat.two_mul]
      exact h3
    · have : 3 * g.blockSamples + ((y * g.blockSize + x) * g.channels + c) =
          g.blockSamples + g.blockSamples + g.blockSamples + ((y * g.blockSize + x) * g.channels + c) := by omega
      rw [this, h4, t]
  · intro a ha
    rw [o4 _ (by omega), o3 _ (by omega), o2 _ (by omega), o1 _ (by omega)]

/-- Every index of a block is that of one sample, planar. -/
theorem exists_planar {g : Context} (hA : g.blockArea = g.blockSize * g.blockSize)
    (hN : g.blockSamples = g.blockArea * g.channels) {i : Nat} (hi : i < g.blockSamples) :
    ∃ c y x, c < g.channels ∧ y < g.blockSize ∧ x < g.blockSize ∧ planarAddr g c y x = i := by
  have hi' : i < g.blockSize * g.blockSize * g.channels := by rw [← hA, ← hN]; exact hi
  have hSS : 0 < g.blockSize * g.blockSize := Nat.pos_of_mul_pos_right (by omega : 0 < g.blockSize * g.blockSize * g.channels)
  have hS : 0 < g.blockSize := Nat.pos_of_mul_pos_right hSS
  refine ⟨i / (g.blockSize * g.blockSize), i % (g.blockSize * g.blockSize) / g.blockSize,
    i % (g.blockSize * g.blockSize) % g.blockSize, Nat.div_lt_of_lt_mul hi',
    Nat.div_lt_of_lt_mul (Nat.mod_lt _ hSS), Nat.mod_lt _ hS, ?_⟩
  unfold planarAddr
  rw [hA, Nat.add_assoc, Nat.mul_comm (i % (g.blockSize * g.blockSize) / g.blockSize), Nat.div_add_mod,
    Nat.mul_comm (i / (g.blockSize * g.blockSize)), Nat.div_add_mod]

/-- Every index of a block is that of one sample, pixel-interleaved. -/
theorem exists_pixel {g : Context} (hA : g.blockArea = g.blockSize * g.blockSize)
    (hN : g.blockSamples = g.blockArea * g.channels) {i : Nat} (hi : i < g.blockSamples) :
    ∃ c y x, c < g.channels ∧ y < g.blockSize ∧ x < g.blockSize ∧ (y * g.blockSize + x) * g.channels + c = i := by
  have hi' : i < g.blockSize * g.blockSize * g.channels := by rw [← hA, ← hN]; exact hi
  have hC : 0 < g.channels := Nat.pos_of_mul_pos_left (by omega : 0 < g.blockSize * g.blockSize * g.channels)
  have hSS : 0 < g.blockSize * g.blockSize := Nat.pos_of_mul_pos_right (by omega : 0 < g.blockSize * g.blockSize * g.channels)
  have hS : 0 < g.blockSize := Nat.pos_of_mul_pos_right hSS
  refine ⟨i % g.channels, i / g.channels / g.blockSize, i / g.channels % g.blockSize, Nat.mod_lt _ hC,
    Nat.div_lt_of_lt_mul (Nat.div_lt_of_lt_mul (by rw [Nat.mul_comm g.channels]; exact hi')), Nat.mod_lt _ hS, ?_⟩
  rw [Nat.mul_comm (i / g.channels / g.blockSize), Nat.div_add_mod, Nat.mul_comm (i / g.channels), Nat.div_add_mod]

/-- A segment whose entries pair a position with a value, both running once over the samples of a block, is a bijection. -/
theorem segmentBijective_of {s : State} {p : Nat} {pos val : Nat → Nat → Nat → Nat}
    (read : ∀ c y x, c < s.ctx.channels → y < s.ctx.blockSize → x < s.ctx.blockSize →
      Memory.read s.perm (permAddr s.ctx p (pos c y x)) = some (val c y x))
    (posOnto : ∀ i, i < s.ctx.blockSamples → ∃ c y x, c < s.ctx.channels ∧ y < s.ctx.blockSize ∧ x < s.ctx.blockSize ∧
      pos c y x = i)
    (posIn : ∀ c y x, c < s.ctx.channels → y < s.ctx.blockSize → x < s.ctx.blockSize → pos c y x < s.ctx.blockSamples)
    (valOnto : ∀ i, i < s.ctx.blockSamples → ∃ c y x, c < s.ctx.channels ∧ y < s.ctx.blockSize ∧ x < s.ctx.blockSize ∧
      val c y x = i)
    (valIn : ∀ c y x, c < s.ctx.channels → y < s.ctx.blockSize → x < s.ctx.blockSize → val c y x < s.ctx.blockSamples)
    (valInj : ∀ c y x c' y' x', c < s.ctx.channels → y < s.ctx.blockSize → x < s.ctx.blockSize → c' < s.ctx.channels →
      y' < s.ctx.blockSize → x' < s.ctx.blockSize → val c y x = val c' y' x' → c = c' ∧ y = y' ∧ x = x') :
    s.SegmentBijective p where
  inside i hi := by
    obtain ⟨c, y, x, hc, hy, hx, rfl⟩ := posOnto i hi
    exact ⟨_, valIn c y x hc hy hx, read c y x hc hy hx⟩
  once i j hi hj h := by
    obtain ⟨c, y, x, hc, hy, hx, rfl⟩ := posOnto i hi
    obtain ⟨c', y', x', hc', hy', hx', rfl⟩ := posOnto j hj
    rw [read c y x hc hy hx, read c' y' x' hc' hy' hx'] at h
    obtain ⟨rfl, rfl, rfl⟩ := valInj c y x c' y' x' hc hy hx hc' hy' hx' (Option.some.inj h)
    rfl
  all j hj := by
    obtain ⟨c, y, x, hc, hy, hx, rfl⟩ := valOnto j hj
    exact ⟨pos c y x, posIn c y x hc hy hx, read c y x hc hy hx⟩

/-- After PERM_BUILD every segment is a bijection (41_permutation_rom.md R126). -/
theorem permBuilt_bijective (s : State) (hA : s.ctx.blockArea = s.ctx.blockSize * s.ctx.blockSize)
    (hN : s.ctx.blockSamples = s.ctx.blockArea * s.ctx.channels) (p : Nat) (hp : p < 4) :
    (permBuilt s).SegmentBijective p := by
  obtain ⟨r, -⟩ := buildPerm_spec hA hN s.perm
  have planarIn : ∀ c y x, c < s.ctx.channels → y < s.ctx.blockSize → x < s.ctx.blockSize →
      planarAddr s.ctx c y x < s.ctx.blockSamples := by
    intro c y x hc hy hx
    have := planarAddr_lt hA hc hy hx
    rw [hN, Nat.mul_comm]
    exact this
  have pixelIn : ∀ c y x, c < s.ctx.channels → y < s.ctx.blockSize → x < s.ctx.blockSize →
      (y * s.ctx.blockSize + x) * s.ctx.channels + c < s.ctx.blockSamples := by
    intro c y x hc hy hx
    rw [hN, hA]
    exact pair_lt (pair_lt hy hx) hc
  have onto := fun i hi => exists_planar hA hN (i := i) hi
  have ontoT : ∀ i, i < s.ctx.blockSamples → ∃ c y x, c < s.ctx.channels ∧ y < s.ctx.blockSize ∧ x < s.ctx.blockSize ∧
      planarAddr s.ctx c x y = i := fun i hi => by
    obtain ⟨c, y, x, hc, hy, hx, h⟩ := onto i hi
    exact ⟨c, x, y, hc, hx, hy, h⟩
  have plainInj : ∀ c y x c' y' x', c < s.ctx.channels → y < s.ctx.blockSize → x < s.ctx.blockSize → c' < s.ctx.channels →
      y' < s.ctx.blockSize → x' < s.ctx.blockSize → planarAddr s.ctx c y x = planarAddr s.ctx c' y' x' →
      c = c' ∧ y = y' ∧ x = x' := fun _ _ _ _ _ _ _ hy hx _ hy' hx' h => planarAddr_inj hA hy hx hy' hx' h
  have transInj : ∀ c y x c' y' x', c < s.ctx.channels → y < s.ctx.blockSize → x < s.ctx.blockSize → c' < s.ctx.channels →
      y' < s.ctx.blockSize → x' < s.ctx.blockSize → planarAddr s.ctx c x y = planarAddr s.ctx c' x' y' →
      c = c' ∧ y = y' ∧ x = x' := fun _ _ _ _ _ _ _ hy hx _ hy' hx' h => by
    obtain ⟨a, b, c⟩ := planarAddr_inj hA hx hy hx' hy' h
    exact ⟨a, c, b⟩
  have transIn : ∀ c y x, c < s.ctx.channels → y < s.ctx.blockSize → x < s.ctx.blockSize →
      planarAddr s.ctx c x y < s.ctx.blockSamples := fun c y x hc hy hx => planarIn c x y hc hx hy
  have cases : p = 0 ∨ p = 1 ∨ p = 2 ∨ p = 3 := by omega
  rcases cases with rfl | rfl | rfl | rfl
  · exact segmentBijective_of (s := permBuilt s) (pos := planarAddr s.ctx) (val := planarAddr s.ctx)
      (fun c y x hc hy hx => (r c y x hc hy hx).1) onto planarIn onto planarIn plainInj
  · exact segmentBijective_of (s := permBuilt s) (pos := planarAddr s.ctx) (val := fun c y x => planarAddr s.ctx c x y)
      (fun c y x hc hy hx => (r c y x hc hy hx).2.1) onto planarIn ontoT transIn transInj
  · exact segmentBijective_of (s := permBuilt s)
      (pos := fun c y x => (y * s.ctx.blockSize + x) * s.ctx.channels + c) (val := planarAddr s.ctx)
      (fun c y x hc hy hx => (r c y x hc hy hx).2.2.1) (fun _ hi => exists_pixel hA hN hi) pixelIn onto planarIn plainInj
  · exact segmentBijective_of (s := permBuilt s)
      (pos := fun c y x => (y * s.ctx.blockSize + x) * s.ctx.channels + c) (val := fun c y x => planarAddr s.ctx c x y)
      (fun c y x hc hy hx => (r c y x hc hy hx).2.2.2) (fun _ hi => exists_pixel hA hN hi) pixelIn ontoT transIn transInj

/-- In a bijective segment the index a datapath reads is the one written there. -/
theorem permAt_of_read {s : State} {a j : Nat} (h : Memory.read s.perm a = some j) : s.permAt a = j := by
  simp [State.permAt, h]

theorem permAt_inj {s : State} {p : Nat} (h : s.SegmentBijective p) :
    ∀ i j, i < s.ctx.blockSamples → j < s.ctx.blockSamples →
      s.permAt (permAddr s.ctx p i) = s.permAt (permAddr s.ctx p j) → i = j := by
  intro i j hi hj e
  obtain ⟨a, -, ha⟩ := h.inside i hi
  obtain ⟨b, -, hb⟩ := h.inside j hj
  rw [permAt_of_read ha, permAt_of_read hb] at e
  exact h.once i j hi hj (by rw [ha, hb, e])

end Sys2Proof.Machine
end

