-- ==== Sys2Proof/Laws/Rows.lean ====
section
/-! SUPPORT. The rows of a transformer code, and BLK_XFORM as their composition: what each leaves as it was, which row a sub-unit
runs, which elements stay written. -/

namespace Sys2Proof.Machine

/-- A code is legal when its colour op is (43_block_transform.md R163). -/
theorem legalCode_iff_legalColor (ch : Nat) (code : Byte) : legalCode ch code = true ↔ LegalColor ch (colorOp code) := by
  rw [legalCode_iff]
  unfold LegalColor
  have : ∀ c : BitVec 4, identityColor c = true ↔ c ∈ ([0, 1, 2, 3, 4, 8, 12] : List (BitVec 4)) := by decide
  rw [this]

/-- The sixteen values of `color_op`. -/
theorem color_values : ∀ c : BitVec 4, c = 0 ∨ c = 1 ∨ c = 2 ∨ c = 3 ∨ c = 4 ∨ c = 5 ∨ c = 6 ∨ c = 7 ∨ c = 8 ∨
    c = 9 ∨ c = 10 ∨ c = 11 ∨ c = 12 ∨ c = 13 ∨ c = 14 ∨ c = 15 := by
  decide

/-- Everything a colour op can be (42_color_predictor_lut.md R140 to R157). -/
theorem applyColor_cases (c : BitVec 4) (s : State) :
    applyColor c s = s ∨ (∃ t b, t < 3 ∧ b < 3 ∧ t ≠ b ∧ applyColor c s = addPlane t b s) ∨
      ∃ t u b, t < 3 ∧ u < 3 ∧ b < 3 ∧ t ≠ u ∧ t ≠ b ∧ u ≠ b ∧ applyColor c s = addPlanes t u b s := by
  have one : ∀ {t b : Nat} {x : State}, t < 3 → b < 3 → t ≠ b → x = addPlane t b s → x = s ∨
      (∃ t b, t < 3 ∧ b < 3 ∧ t ≠ b ∧ x = addPlane t b s) ∨
      ∃ t u b, t < 3 ∧ u < 3 ∧ b < 3 ∧ t ≠ u ∧ t ≠ b ∧ u ≠ b ∧ x = addPlanes t u b s :=
    fun ht hb hn h => .inr (.inl ⟨_, _, ht, hb, hn, h⟩)
  have two : ∀ {t u b : Nat} {x : State}, t < 3 → u < 3 → b < 3 → t ≠ u → t ≠ b → u ≠ b → x = addPlanes t u b s → x = s ∨
      (∃ t b, t < 3 ∧ b < 3 ∧ t ≠ b ∧ x = addPlane t b s) ∨
      ∃ t u b, t < 3 ∧ u < 3 ∧ b < 3 ∧ t ≠ u ∧ t ≠ b ∧ u ≠ b ∧ x = addPlanes t u b s :=
    fun ht hu hb h1 h2 h3 h => .inr (.inr ⟨_, _, _, ht, hu, hb, h1, h2, h3, h⟩)
  rcases color_values c with rfl | rfl | rfl | rfl | rfl | rfl | rfl | rfl | rfl | rfl | rfl | rfl | rfl | rfl | rfl | rfl
  · exact .inl rfl
  · exact .inl rfl
  · exact .inl rfl
  · exact .inl rfl
  · exact .inl rfl
  · exact one (t := 1) (b := 0) (by decide) (by decide) (by decide) rfl
  · exact one (t := 2) (b := 0) (by decide) (by decide) (by decide) rfl
  · exact two (t := 1) (u := 2) (b := 0) (by decide) (by decide) (by decide) (by decide) (by decide) (by decide) rfl
  · exact .inl rfl
  · exact one (t := 0) (b := 1) (by decide) (by decide) (by decide) rfl
  · exact one (t := 2) (b := 1) (by decide) (by decide) (by decide) rfl
  · exact two (t := 0) (u := 2) (b := 1) (by decide) (by decide) (by decide) (by decide) (by decide) (by decide) rfl
  · exact .inl rfl
  · exact one (t := 0) (b := 2) (by decide) (by decide) (by decide) rfl
  · exact one (t := 1) (b := 2) (by decide) (by decide) (by decide) rfl
  · exact two (t := 0) (u := 1) (b := 2) (by decide) (by decide) (by decide) (by decide) (by decide) (by decide) rfl

/-- A colour op changes BOUT only. -/
theorem applyColor_keeps (c : BitVec 4) (s : State) : applyColor c s = { s with bout := (applyColor c s).bout } := by
  rcases applyColor_cases c s with h | ⟨t, b, -, -, -, h⟩ | ⟨t, u, b, -, -, -, -, -, -, h⟩ <;> rw [h] <;> rfl

/-- The horizontal step changes BOUT and PCOL only. -/
theorem horizontal_keeps (code : Byte) (s : State) :
    horizontal code s = { s with bout := (horizontal code s).bout, pcol := (horizontal code s).pcol } := by
  unfold horizontal
  split <;> rfl

@[simp] theorem scatter_cfg (p : Nat) (s : State) : (scatter p s).cfg = s.cfg := rfl
@[simp] theorem applyColor_cfg (c : BitVec 4) (s : State) : (applyColor c s).cfg = s.cfg := by rw [applyColor_keeps]
@[simp] theorem horizontal_cfg (code : Byte) (s : State) : (horizontal code s).cfg = s.cfg := by rw [horizontal_keeps]
@[simp] theorem vertical_cfg (s : State) : (vertical s).cfg = s.cfg := rfl
@[simp] theorem scatter_status (p : Nat) (s : State) : (scatter p s).status = s.status := rfl
@[simp] theorem applyColor_status (c : BitVec 4) (s : State) : (applyColor c s).status = s.status := by rw [applyColor_keeps]
@[simp] theorem horizontal_status (code : Byte) (s : State) : (horizontal code s).status = s.status := by rw [horizontal_keeps]
@[simp] theorem vertical_status (s : State) : (vertical s).status = s.status := rfl
@[simp] theorem scatter_err (p : Nat) (s : State) : (scatter p s).err = s.err := rfl
@[simp] theorem applyColor_err (c : BitVec 4) (s : State) : (applyColor c s).err = s.err := by rw [applyColor_keeps]
@[simp] theorem horizontal_err (code : Byte) (s : State) : (horizontal code s).err = s.err := by rw [horizontal_keeps]
@[simp] theorem vertical_err (s : State) : (vertical s).err = s.err := rfl
@[simp] theorem scatter_errInfo (p : Nat) (s : State) : (scatter p s).errInfo = s.errInfo := rfl
@[simp] theorem applyColor_errInfo (c : BitVec 4) (s : State) : (applyColor c s).errInfo = s.errInfo := by rw [applyColor_keeps]
@[simp] theorem horizontal_errInfo (code : Byte) (s : State) : (horizontal code s).errInfo = s.errInfo := by rw [horizontal_keeps]
@[simp] theorem vertical_errInfo (s : State) : (vertical s).errInfo = s.errInfo := rfl
@[simp] theorem scatter_ctx (p : Nat) (s : State) : (scatter p s).ctx = s.ctx := rfl
@[simp] theorem applyColor_ctx (c : BitVec 4) (s : State) : (applyColor c s).ctx = s.ctx := by rw [applyColor_keeps]
@[simp] theorem horizontal_ctx (code : Byte) (s : State) : (horizontal code s).ctx = s.ctx := by rw [horizontal_keeps]
@[simp] theorem vertical_ctx (s : State) : (vertical s).ctx = s.ctx := rfl
@[simp] theorem scatter_blkX (p : Nat) (s : State) : (scatter p s).blkX = s.blkX := rfl
@[simp] theorem applyColor_blkX (c : BitVec 4) (s : State) : (applyColor c s).blkX = s.blkX := by rw [applyColor_keeps]
@[simp] theorem horizontal_blkX (code : Byte) (s : State) : (horizontal code s).blkX = s.blkX := by rw [horizontal_keeps]
@[simp] theorem vertical_blkX (s : State) : (vertical s).blkX = s.blkX := rfl
@[simp] theorem scatter_blkY (p : Nat) (s : State) : (scatter p s).blkY = s.blkY := rfl
@[simp] theorem applyColor_blkY (c : BitVec 4) (s : State) : (applyColor c s).blkY = s.blkY := by rw [applyColor_keeps]
@[simp] theorem horizontal_blkY (code : Byte) (s : State) : (horizontal code s).blkY = s.blkY := by rw [horizontal_keeps]
@[simp] theorem vertical_blkY (s : State) : (vertical s).blkY = s.blkY := rfl
@[simp] theorem scatter_arrp (p : Nat) (s : State) : (scatter p s).arrp = s.arrp := rfl
@[simp] theorem applyColor_arrp (c : BitVec 4) (s : State) : (applyColor c s).arrp = s.arrp := by rw [applyColor_keeps]
@[simp] theorem horizontal_arrp (code : Byte) (s : State) : (horizontal code s).arrp = s.arrp := by rw [horizontal_keeps]
@[simp] theorem vertical_arrp (s : State) : (vertical s).arrp = s.arrp := rfl
@[simp] theorem scatter_perm (p : Nat) (s : State) : (scatter p s).perm = s.perm := rfl
@[simp] theorem applyColor_perm (c : BitVec 4) (s : State) : (applyColor c s).perm = s.perm := by rw [applyColor_keeps]
@[simp] theorem horizontal_perm (code : Byte) (s : State) : (horizontal code s).perm = s.perm := by rw [horizontal_keeps]
@[simp] theorem vertical_perm (s : State) : (vertical s).perm = s.perm := rfl
@[simp] theorem scatter_arr (p : Nat) (s : State) : (scatter p s).arr = s.arr := rfl
@[simp] theorem applyColor_arr (c : BitVec 4) (s : State) : (applyColor c s).arr = s.arr := by rw [applyColor_keeps]
@[simp] theorem horizontal_arr (code : Byte) (s : State) : (horizontal code s).arr = s.arr := by rw [horizontal_keeps]
@[simp] theorem vertical_arr (s : State) : (vertical s).arr = s.arr := rfl
@[simp] theorem scatter_pcol (p : Nat) (s : State) : (scatter p s).pcol = s.pcol := rfl
@[simp] theorem applyColor_pcol (c : BitVec 4) (s : State) : (applyColor c s).pcol = s.pcol := by rw [applyColor_keeps]
@[simp] theorem vertical_pcol (s : State) : (vertical s).pcol = s.pcol := rfl
@[simp] theorem scatter_prow (p : Nat) (s : State) : (scatter p s).prow = s.prow := rfl
@[simp] theorem applyColor_prow (c : BitVec 4) (s : State) : (applyColor c s).prow = s.prow := by rw [applyColor_keeps]
@[simp] theorem horizontal_prow (code : Byte) (s : State) : (horizontal code s).prow = s.prow := by rw [horizontal_keeps]
@[simp] theorem scatter_canvas (p : Nat) (s : State) : (scatter p s).canvas = s.canvas := rfl
@[simp] theorem applyColor_canvas (c : BitVec 4) (s : State) : (applyColor c s).canvas = s.canvas := by rw [applyColor_keeps]
@[simp] theorem horizontal_canvas (code : Byte) (s : State) : (horizontal code s).canvas = s.canvas := by rw [horizontal_keeps]
@[simp] theorem vertical_canvas (s : State) : (vertical s).canvas = s.canvas := rfl
@[simp] theorem scatter_hdr (p : Nat) (s : State) : (scatter p s).hdr = s.hdr := rfl
@[simp] theorem applyColor_hdr (c : BitVec 4) (s : State) : (applyColor c s).hdr = s.hdr := by rw [applyColor_keeps]
@[simp] theorem horizontal_hdr (code : Byte) (s : State) : (horizontal code s).hdr = s.hdr := by rw [horizontal_keeps]
@[simp] theorem vertical_hdr (s : State) : (vertical s).hdr = s.hdr := rfl
@[simp] theorem scatter_fe (p : Nat) (s : State) : (scatter p s).fe = s.fe := rfl
@[simp] theorem applyColor_fe (c : BitVec 4) (s : State) : (applyColor c s).fe = s.fe := by rw [applyColor_keeps]
@[simp] theorem horizontal_fe (code : Byte) (s : State) : (horizontal code s).fe = s.fe := by rw [horizontal_keeps]
@[simp] theorem vertical_fe (s : State) : (vertical s).fe = s.fe := rfl
@[simp] theorem scatter_port (p : Nat) (s : State) : (scatter p s).port = s.port := rfl
@[simp] theorem applyColor_port (c : BitVec 4) (s : State) : (applyColor c s).port = s.port := by rw [applyColor_keeps]
@[simp] theorem horizontal_port (code : Byte) (s : State) : (horizontal code s).port = s.port := by rw [horizontal_keeps]
@[simp] theorem vertical_port (s : State) : (vertical s).port = s.port := rfl
@[simp] theorem scatter_rst (p : Nat) (s : State) : (scatter p s).rst = s.rst := rfl
@[simp] theorem applyColor_rst (c : BitVec 4) (s : State) : (applyColor c s).rst = s.rst := by rw [applyColor_keeps]
@[simp] theorem horizontal_rst (code : Byte) (s : State) : (horizontal code s).rst = s.rst := by rw [horizontal_keeps]
@[simp] theorem vertical_rst (s : State) : (vertical s).rst = s.rst := rfl
@[simp] theorem scatter_stuck (p : Nat) (s : State) : (scatter p s).stuck = s.stuck := rfl
@[simp] theorem applyColor_stuck (c : BitVec 4) (s : State) : (applyColor c s).stuck = s.stuck := by rw [applyColor_keeps]
@[simp] theorem horizontal_stuck (code : Byte) (s : State) : (horizontal code s).stuck = s.stuck := by rw [horizontal_keeps]
@[simp] theorem vertical_stuck (s : State) : (vertical s).stuck = s.stuck := rfl
@[simp] theorem scatter_freeCtr (p : Nat) (s : State) : (scatter p s).freeCtr = s.freeCtr := rfl
@[simp] theorem applyColor_freeCtr (c : BitVec 4) (s : State) : (applyColor c s).freeCtr = s.freeCtr := by rw [applyColor_keeps]
@[simp] theorem horizontal_freeCtr (code : Byte) (s : State) : (horizontal code s).freeCtr = s.freeCtr := by rw [horizontal_keeps]
@[simp] theorem vertical_freeCtr (s : State) : (vertical s).freeCtr = s.freeCtr := rfl
@[simp] theorem scatter_seq (p : Nat) (s : State) : (scatter p s).seq = s.seq := rfl
@[simp] theorem applyColor_seq (c : BitVec 4) (s : State) : (applyColor c s).seq = s.seq := by rw [applyColor_keeps]
@[simp] theorem horizontal_seq (code : Byte) (s : State) : (horizontal code s).seq = s.seq := by rw [horizontal_keeps]
@[simp] theorem vertical_seq (s : State) : (vertical s).seq = s.seq := rfl

/-- Steps 2 to 6 of BLK_XFORM change BOUT, PCOL and PROW only. -/
theorem transform_keeps (code : Byte) (s : State) : transform code s =
    { s with bout := (transform code s).bout, pcol := (transform code s).pcol, prow := (transform code s).prow } := by
  unfold transform
  split
  · rfl
  · apply State.ext_fields <;> simp

@[simp] theorem transform_ctx (code : Byte) (s : State) : (transform code s).ctx = s.ctx := by rw [transform_keeps]
@[simp] theorem transform_status (code : Byte) (s : State) : (transform code s).status = s.status := by rw [transform_keeps]
@[simp] theorem transform_arrp (code : Byte) (s : State) : (transform code s).arrp = s.arrp := by rw [transform_keeps]
@[simp] theorem transform_arr (code : Byte) (s : State) : (transform code s).arr = s.arr := by rw [transform_keeps]

/-- The flags under which BLK_XFORM runs, as its gate computes them. -/
theorem readyBlkXform_iff {s : State} (hf : s.status.fault = false) :
    s.status.readyBlkXform = true ↔ s.ReadyToTransform := by
  constructor
  · intro h
    simp only [Status.readyBlkXform, Bool.and_eq_true, Bool.not_eq_true'] at h
    obtain ⟨⟨⟨⟨⟨h1, h2⟩, h3⟩, h4⟩, h5⟩, h6⟩ := h
    exact ⟨hf, h1, h2, h3, h4, h5, h6⟩
  · intro h
    simp [Status.readyBlkXform, h.context, h.perm, h.esb, h.arr, h.bout, h.notDone]

/-- BLK_XFORM of a legal code in a state that is ready for it. -/
theorem execBlkXform_of_ready {s : State} {code : Byte} (hr : s.ReadyToTransform)
    (hl : LegalColor s.ctx.channels (colorOp code)) :
    execBlkXform code s = .next { transform code s with status := s.transformedStatus, arrp := 0 } := by
  refine (runCommand_of_ready hr.clear ((readyBlkXform_iff hr.clear).mpr hr)).trans ?_
  simp [blockTransformed, (legalCode_iff_legalColor _ _).mpr hl, completeTransform, State.setArrp, State.setStatus,
    State.transformedStatus, Status.afterTransform]

/-- The row the permutation selector reads in a nonzero code (30_encoding.md R91). -/
theorem exec_selector (s : State) {code : Byte} (h : code ≠ 0) :
    exec (decodeRow .psel code) s = runRow code (scatter (permSelector code).toNat s) s := by
  simp only [decodeRow, h, if_false, decodeSelector]
  have e := codeOf_fields code
  have all : ∀ c : BitVec 2, c = 0 ∨ c = 1 ∨ c = 2 ∨ c = 3 := by decide
  rcases all (permSelector code) with h | h | h | h <;> rw [h] at e ⊢ <;> (conv_rhs => rw [← e]) <;> rfl

/-- The row the colour predictor table reads in a nonzero code. -/
theorem exec_color (s : State) {code : Byte} (h : code ≠ 0) :
    exec (decodeRow .cpl code) s = runRow code (applyColor (colorOp code) s) s := by
  simp only [decodeRow, h, if_false, decodeColor]
  have e := codeOf_fields code
  rcases color_values (colorOp code) with h | h | h | h | h | h | h | h | h | h | h | h | h | h | h | h <;>
    rw [h] at e ⊢ <;> (conv_rhs => rw [← e]) <;> rfl

/-- The row the horizontal predictor reads in a nonzero code. -/
theorem exec_horizontal (s : State) {code : Byte} (h : code ≠ 0) :
    exec (decodeRow .hdp code) s = runRow code (horizontal code s) s := by
  simp only [decodeRow, h, if_false, decodeHorizontal]
  have e := codeOf_fields code
  have set : ∀ code : Byte, accumulates code = true → diffHigh code ++ 1#1 = diffMode code := by decide
  have clear : ∀ code : Byte, accumulates code = false → diffHigh code ++ 0#1 = diffMode code := by decide
  cases ha : accumulates code
  · simp only [horizontal, ha]
    show runRow (codeOf (diffHigh code ++ 0#1) _ _) _ _ = _
    rw [clear _ ha, e]
    rfl
  · simp only [horizontal, ha, if_true]
    show runRow (codeOf (diffHigh code ++ 1#1) _ _) _ _ = _
    rw [set _ ha, e]

/-- The row the vertical predictor reads in a nonzero code. -/
theorem exec_vertical (s : State) {code : Byte} (h : code ≠ 0) :
    exec (decodeRow .vdp code) s = runRow code (vertical s) s := by
  simp only [decodeRow, h, if_false]
  show runRow (codeOf _ _ _) _ _ = _
  rw [codeOf_fields]

/-- A colour op leaves everything from the fourth plane on (42_color_predictor_lut.md R159). -/
theorem applyColor_read_high {c : BitVec 4} {s : State} {a : Nat} (ha : 3 * s.ctx.blockArea ≤ a) :
    Memory.read (applyColor c s).bout a = Memory.read s.bout a := by
  have lt : ∀ {k i : Nat}, k < 3 → i < s.ctx.blockArea → planeAddr s.ctx k i < 3 * s.ctx.blockArea :=
    fun hk hi => pair_lt hk hi
  rcases applyColor_cases c s with h | ⟨t, b, ht, -, -, h⟩ | ⟨t, u, b, ht, hu, -, h1, h2, h3, h⟩ <;> rw [h]
  · refine addPlane_other fun i hi e => ?_
    have := lt ht hi
    omega
  · refine (addPlanes_invariant h1 h2 h3).2 a fun i hi => ?_
    have h4 := lt ht hi
    have h5 := lt hu hi
    omega

/-- A legal colour op leaves everything outside the planes of the block. -/
theorem applyColor_read_other {c : BitVec 4} {s : State} {a : Nat} (hl : LegalColor s.ctx.channels c)
    (ha : s.ctx.channels * s.ctx.blockArea ≤ a) : Memory.read (applyColor c s).bout a = Memory.read s.bout a := by
  rcases hl with hl | hl
  · refine applyColor_read_high ?_
    have := Nat.mul_le_mul_right s.ctx.blockArea hl
    omega
  · have : applyColor c s = s := by
      simp at hl
      rcases hl with rfl | rfl | rfl | rfl | rfl | rfl | rfl <;> rfl
    rw [this]

/-- The horizontal step leaves every column state but its block's. -/
theorem horizontal_pcol_other {s : State} {code : Byte} {a : Nat}
    (ha : ¬ (s.blkY * s.ctx.blockStride ≤ a ∧ a < s.blkY * s.ctx.blockStride + s.ctx.blockStride)) :
    Memory.read (horizontal code s).pcol a = Memory.read s.pcol a := by
  unfold horizontal
  split
  · refine (horizontalAccumulate_spec s).2.2.2 a fun r hr e => ?_
    unfold pcolAddr at e
    omega
  · refine horizontalCapture_other fun r hr e => ?_
    unfold pcolAddr at e
    omega

/-- The horizontal step leaves BOUT outside the rows of the block. -/
theorem horizontal_bout_other {s : State} {code : Byte} {a : Nat} (ha : s.ctx.blockStride * s.ctx.blockSize ≤ a) :
    Memory.read (horizontal code s).bout a = Memory.read s.bout a := by
  unfold horizontal
  split
  · refine (horizontalAccumulate_spec s).2.1 a fun r x hr hx e => ?_
    have := pair_lt hr hx
    unfold rowAddr at e
    omega
  · rfl

/-- A scatter through a bijective segment leaves BOUT outside the block. -/
theorem scatter_bout_other {s : State} {p a : Nat} (h : s.SegmentBijective p) (ha : s.ctx.blockSamples ≤ a) :
    Memory.read (scatter p s).bout a = Memory.read s.bout a := by
  refine scatter_other fun i hi e => ?_
  obtain ⟨j, hj, hr⟩ := h.inside i hi
  simp only [State.permAt, hr, Option.getD_some] at e
  omega

/-! Written elements stay written. -/

theorem scatter_bout_isSome {s : State} {p a : Nat} (h : (Memory.read s.bout a).isSome) :
    (Memory.read (scatter p s).bout a).isSome :=
  forUp_keeps (fun y => (Memory.read y a).isSome) h fun _ _ _ hy => Memory.isSome_write _ _ _ _ hy

theorem applyColor_bout_isSome {c : BitVec 4} {s : State} {a : Nat} (h : (Memory.read s.bout a).isSome) :
    (Memory.read (applyColor c s).bout a).isSome := by
  rcases applyColor_cases c s with e | ⟨t, b, -, -, -, e⟩ | ⟨t, u, b, -, -, -, -, -, -, e⟩ <;> rw [e]
  · exact h
  · exact forUp_keeps (fun y => (Memory.read y a).isSome) h fun _ _ _ hy => Memory.isSome_write _ _ _ _ hy
  · exact forUp_keeps (fun y => (Memory.read y a).isSome) h fun _ _ _ hy =>
      Memory.isSome_write _ _ _ _ (Memory.isSome_write _ _ _ _ hy)

theorem horizontalAccumulate_isSome {s : State} {a : Nat} :
    ((Memory.read s.bout a).isSome → (Memory.read (horizontalAccumulate s).bout a).isSome) ∧
    ((Memory.read s.pcol a).isSome → (Memory.read (horizontalAccumulate s).pcol a).isSome) := by
  constructor
  · intro h
    refine forUp_keeps (fun y : ByteMemory × ByteMemory => (Memory.read y.1 a).isSome) h fun r hr y hy => ?_
    exact forUp_keeps (fun y : ByteMemory × Byte => (Memory.read y.1 a).isSome) hy fun _ _ _ hz =>
      Memory.isSome_write _ _ _ _ hz
  · intro h
    exact forUp_keeps (fun y : ByteMemory × ByteMemory => (Memory.read y.2 a).isSome) h fun _ _ _ hy =>
      Memory.isSome_write _ _ _ _ hy

theorem horizontalCapture_isSome {s : State} {a : Nat} (h : (Memory.read s.pcol a).isSome) :
    (Memory.read (horizontalCapture s).pcol a).isSome :=
  forUp_keeps (fun y => (Memory.read y a).isSome) h fun _ _ _ hy => Memory.isSome_write _ _ _ _ hy

theorem horizontal_isSome {code : Byte} {s : State} {a : Nat} :
    ((Memory.read s.bout a).isSome → (Memory.read (horizontal code s).bout a).isSome) ∧
    ((Memory.read s.pcol a).isSome → (Memory.read (horizontal code s).pcol a).isSome) := by
  unfold horizontal
  split
  · exact horizontalAccumulate_isSome
  · exact ⟨id, horizontalCapture_isSome⟩

theorem vertical_isSome {s : State} {a : Nat} :
    ((Memory.read s.bout a).isSome → (Memory.read (vertical s).bout a).isSome) ∧
    ((Memory.read s.prow a).isSome → (Memory.read (vertical s).prow a).isSome) := by
  constructor
  · intro h
    refine forUp_keeps (fun y : ByteMemory × ByteMemory => (Memory.read y.1 a).isSome) h fun c _ y hy => ?_
    exact forUp_keeps (fun y => (Memory.read y a).isSome) hy fun _ _ _ hz =>
      forUp_keeps (fun y => (Memory.read y a).isSome) hz fun _ _ _ hz => Memory.isSome_write _ _ _ _ hz
  · intro h
    refine forUp_keeps (fun y : ByteMemory × ByteMemory => (Memory.read y.2 a).isSome) h fun c _ y hy => ?_
    exact forUp_keeps (fun y => (Memory.read y a).isSome) hy fun _ _ _ hz => Memory.isSome_write _ _ _ _ hz

theorem transform_isSome {s : State} {code : Byte} {a : Nat} :
    ((Memory.read s.pcol a).isSome → (Memory.read (transform code s).pcol a).isSome) ∧
    ((Memory.read s.prow a).isSome → (Memory.read (transform code s).prow a).isSome) := by
  unfold transform
  split
  · exact ⟨id, id⟩
  · exact ⟨fun h => by
      rw [vertical_pcol]
      exact horizontal_isSome.2 (by simpa using h), fun h => vertical_isSome.2 (by simpa using h)⟩

end Sys2Proof.Machine
end

