-- ==== Sys2Proof/Laws/Validator.lean ====
section
/-! SUPPORT. What the checks of CTX_LOAD can answer (40_context_validator.md R102 to R111). -/

namespace Sys2Proof.Machine

/-- The channel count is 1, 3 or 4 (R102). -/
theorem channelCount_cases {c : Context} {ch : Nat} (h : channelCount c = some ch) : ch = 1 ∨ ch = 3 ∨ ch = 4 := by
  unfold channelCount at h
  repeat' split at h
  all_goals (cases h; try simp)

/-- A legal combination has a known version, and no bit of encode_type but bit 0. -/
theorem of_mem_legalTriples {v b e : Byte} (h : (v, b, e) ∈ legalTriples) :
    e.extractLsb' 1 7 = 0 ∧ v ∈ ([1, 8, 16] : List Byte) := by
  simp only [legalTriples, List.mem_cons, Prod.mk.injEq, List.not_mem_nil, or_false] at h
  rcases h with h | h | h | h | h <;> obtain ⟨rfl, rfl, rfl⟩ := h <;> decide

/-- The version and bit-count check passes exactly the five legal combinations (R105). -/
theorem versionFault_eq_none {c : Context} (he : c.encodeType.extractLsb' 1 7 = 0) :
    versionFault c = none ↔ (c.version, c.bitCount, c.encodeType) ∈ legalTriples := by
  have he' : c.encodeType = 0 ∨ c.encodeType = 1 := by
    revert he
    generalize c.encodeType = e
    revert e
    decide
  have hv : ∀ n, c.version.toNat = n ↔ c.version = BitVec.ofNat 8 n ∧ n < 256 := by
    intro n
    constructor
    · rintro rfl
      exact ⟨by simp, c.version.isLt⟩
    · rintro ⟨h, h2⟩
      rw [h]
      simpa using h2
  unfold versionFault
  split <;> rename_i h
  · rw [hv] at h
    rw [h.1]
    rcases he' with h | h <;> simp [legalTriples, h]
  · rw [hv] at h
    rw [h.1]
    rcases he' with h | h <;> simp [legalTriples, h]
  · rw [hv] at h
    rw [h.1]
    simp [legalTriples]
  · rename_i h1 h2
    rw [hv] at h h1 h2
    simp at h h1 h2
    simp [legalTriples, h, h1, h2]

/-- A version other than 1, 8 and 16 (R105). -/
theorem versionFault_of_unknown {c : Context} (h : c.version ∉ ([1, 8, 16] : List Byte)) :
    versionFault c = some (.unsupportedVersion, c.version) := by
  have ne : ∀ n : Nat, BitVec.ofNat 8 n ∈ ([1, 8, 16] : List Byte) → c.version.toNat ≠ n := by
    intro n hn e
    apply h
    rw [← e, BitVec.ofNat_toNat, BitVec.setWidth_eq] at hn
    exact hn
  unfold versionFault
  split <;> rename_i h1
  · exact absurd h1 (ne 1 (by decide))
  · exact absurd h1 (ne 8 (by decide))
  · exact absurd h1 (ne 16 (by decide))
  · rfl

/-- A known version in a combination that is not legal (R105, R106). -/
theorem versionFault_of_known {c : Context} (he : c.encodeType.extractLsb' 1 7 = 0)
    (h : c.version ∈ ([1, 8, 16] : List Byte)) (hn : (c.version, c.bitCount, c.encodeType) ∉ legalTriples) :
    versionFault c = some (.unsupportedBitDepth, c.bitCount) := by
  rw [← versionFault_eq_none he] at hn
  have key : versionFault c = none ∨ versionFault c = some (.unsupportedBitDepth, c.bitCount) := by
    unfold versionFault
    simp at h
    rcases h with h | h | h <;> simp [h] <;> tauto
  exact key.resolve_left hn

/-- Everything the checks can let pass (R108). -/
theorem checkContext_ok {cfg : Params} {c d : Context} (h : checkContext cfg c = .ok d) :
    ∃ ch, channelCount c = some ch ∧ metadataOk c = true ∧ versionFault c = none ∧ c.degree ≠ 0 ∧ d = withGeometry ch c := by
  unfold checkContext at h
  split at h
  · cases h
  · split at h
    · split at h
      · cases h
      · split at h
        · cases h
        · split at h
          · cases h
          · cases h
            exact ⟨_, ‹_›, ‹_›, ‹_›, ‹_›, rfl⟩
    · cases h

/-- A context that passed has its geometry (R109). -/
theorem geometry_of_checkContext {cfg : Params} {c d : Context} (h : checkContext cfg c = .ok d) : d.Geometry := by
  obtain ⟨ch, h1, -, -, h4, rfl⟩ := checkContext_ok h
  exact ⟨channelCount_cases h1, h4, rfl, rfl, rfl, rfl, rfl, rfl⟩

/-- The sizes of a block are positive. -/
theorem Context.Geometry.pos {g : Context} (h : g.Geometry) : 0 < g.blockSize ∧ 0 < g.blockSamples ∧ 0 < g.channels := by
  have h1 : 0 < g.blockSize := by
    rw [h.size]
    exact Nat.pow_pos (by decide)
  have h2 : 0 < g.channels := by rcases h.channels with h | h | h <;> omega
  refine ⟨h1, ?_, h2⟩
  rw [h.samples, h.area]
  exact Nat.mul_pos (Nat.mul_pos h1 h1) h2

/-- CTX_LOAD once its four reads are answered. -/
theorem execCtxLoad_of_read {s : State} {q : StreamFields} {fe : FrontEnd} (h : readFields s.fe = (some q, fe)) :
    execCtxLoad s = .next (loadContext q fe s) := by
  simp [execCtxLoad, h]

end Sys2Proof.Machine
end

