-- ==== Sys2Proof/Laws/Effects.lean ====
section
/-! SUPPORT. Everything an instruction other than CTX_LOAD, and everything a step, can do; that the operations over the buffers keep
the canonical form, and the state after reset has it. -/

namespace Sys2Proof.Machine

/-- Everything an instruction other than CTX_LOAD can do: nothing, a fault, or its own effect in a state that is ready for it. -/
theorem exec_cases {i : Instr} {s t : State} (hi : i ≠ .ctxLoad) (h : exec i s = .next t) :
    t = s ∨ (∃ n b, n ≠ 0 ∧ s.status.fault = false ∧ t = faulted s n b) ∨
    (i = .permBuild ∧ s.status.readyPermBuild = true ∧ t = permBuilt s) ∨
    (i = .esbClear ∧ s.status.readyEsbClear = true ∧ t = esbCleared s) ∨
    (∃ b, i = .arrWrite b ∧ s.status.readyArrWrite = true ∧ t = sampleWritten b s) ∨
    (∃ code, i = .blkXform code ∧ s.ReadyToTransform ∧ LegalColor s.ctx.channels (colorOp code) ∧
      t = completeTransform (transform code s)) ∨
    (i = .blkEmit ∧ s.status.boutValid = true ∧ t = advance (emitBlock s)) ∨
    ((∃ w : SubUnit × Byte, encode i = .row w.1 w.2) ∧
      ((∃ p, p < 4 ∧ t = scatter p s) ∨ (∃ c, LegalColor s.ctx.channels c ∧ t = applyColor c s) ∨
        t = horizontalAccumulate s ∨ t = horizontalCapture s ∨ t = vertical s)) := by
  have row : ∀ {code e}, runRow code e s = .next t → t = s ∨
      (∃ n b, n ≠ 0 ∧ s.status.fault = false ∧ t = faulted s n b) ∨ (legalCode s.ctx.channels code = true ∧ t = e) := by
    intro code e h
    rcases runRow_cases h with ⟨_, h⟩ | ⟨_, hl, h⟩ | ⟨hf, _, h⟩
    · exact .inl h
    · exact .inr (.inr ⟨hl, h⟩)
    · exact .inr (.inl ⟨_, _, by decide, hf, h⟩)
  have cmd : ∀ {op r e}, runCommand op r e s = .next t → t = s ∨
      (∃ n b, n ≠ 0 ∧ s.status.fault = false ∧ t = faulted s n b) ∨ (s.status.fault = false ∧ r = true ∧ t = e) := by
    intro code r e h
    rcases runCommand_cases h with ⟨_, h⟩ | ⟨hf, hl, h⟩ | ⟨hf, _, h⟩
    · exact .inl h
    · exact .inr (.inr ⟨hf, hl, h⟩)
    · exact .inr (.inl ⟨_, _, by decide, hf, h⟩)
  cases i
  case ctxLoad => contradiction
  case permBuild => rcases cmd h with h | h | ⟨_, hr, h⟩ <;> simp_all
  case esbClear => rcases cmd h with h | h | ⟨_, hr, h⟩ <;> simp_all
  case arrWrite b => rcases cmd h with h | h | ⟨_, hr, h⟩ <;> simp_all
  case blkEmit => rcases cmd h with h | h | ⟨_, hr, h⟩ <;> simp_all [Status.readyBlkEmit]
  case blkXform code =>
    rcases cmd h with h | h | ⟨hf, hr, h⟩
    · exact .inl h
    · exact .inr (.inl h)
    · unfold blockTransformed at h
      split at h
      · rename_i hl
        exact .inr (.inr (.inr (.inr (.inr (.inl
          ⟨_, rfl, (readyBlkXform_iff hf).mp hr, (legalCode_iff_legalColor _ _).mp hl, h⟩)))))
      · rcases takeFault_cases .illegalCode code s with ⟨_, e⟩ | ⟨_, e⟩
        · exact .inl (h.trans e)
        · exact .inr (.inl ⟨_, _, by decide, hf, h.trans e⟩)
  all_goals
    rcases row h with h | h | ⟨hl, h⟩
    · exact .inl h
    · exact .inr (.inl h)
    · refine .inr (.inr (.inr (.inr (.inr (.inr (.inr ⟨⟨(_, _), rfl⟩, ?_⟩))))))
      first
      | exact .inl ⟨_, by decide, h⟩
      | exact .inr (.inr (.inl h))
      | exact .inr (.inr (.inr (.inl h)))
      | exact .inr (.inr (.inr (.inr h)))
      | (rw [legalCode_iff_legalColor, colorOp_codeOf] at hl; exact .inr (.inl ⟨_, hl, h⟩))

/-- Everything a step can do: the reset, an instruction, a rejected word, or a move of the host. -/
theorem step_cases {s t : State} (h : step s = .next t) :
    t = applyReset s ∨ (∃ i, exec i (takeWord s) = .next t) ∨
    (t = takeWord s ∨ ∃ n b, n ≠ 0 ∧ s.status.fault = false ∧ t = faulted (takeWord s) n b) ∨ hostTurn s = .next t := by
  unfold step at h
  split at h
  · cases h
    exact .inl rfl
  · cases h
  · exact .inr (.inl ⟨_, h⟩)
  · cases h
    refine .inr (.inr (.inl ?_))
    rename_i r _
    have key : ∀ k b, takeFault k b (takeWord s) = takeWord s ∨
        ∃ n b', n ≠ 0 ∧ s.status.fault = false ∧ takeFault k b (takeWord s) = faulted (takeWord s) n b' := by
      intro k b
      rcases takeFault_cases k b (takeWord s) with ⟨_, e⟩ | ⟨hf, e⟩
      · exact .inl e
      · exact .inr ⟨_, _, by cases k <;> decide, hf, e⟩
    cases r <;> exact key _ _
  · exact .inr (.inr (.inr h))

/-! The canonical form. -/

theorem reset_memoryWf : State.reset.MemoryWf := by
  constructor <;> simp [State.reset]

theorem wf_channelMajor {g : Context} {index : Nat → Nat → Nat → Nat} {acc : IndexMemory × Nat} (h : Memory.wf acc.1) :
    Memory.wf (channelMajor g index acc).1 :=
  forUp_keeps (fun y : IndexMemory × Nat => Memory.wf y.1) h fun _ _ _ hy =>
    forUp_keeps (fun y : IndexMemory × Nat => Memory.wf y.1) hy fun _ _ _ hy =>
      forUp_keeps (fun y : IndexMemory × Nat => Memory.wf y.1) hy fun _ _ _ hy => Memory.wf_write hy _ _

theorem wf_pixelMajor {g : Context} {index : Nat → Nat → Nat → Nat} {acc : IndexMemory × Nat} (h : Memory.wf acc.1) :
    Memory.wf (pixelMajor g index acc).1 :=
  forUp_keeps (fun y : IndexMemory × Nat => Memory.wf y.1) h fun _ _ _ hy =>
    forUp_keeps (fun y : IndexMemory × Nat => Memory.wf y.1) hy fun _ _ _ hy =>
      forUp_keeps (fun y : IndexMemory × Nat => Memory.wf y.1) hy fun _ _ _ hy => Memory.wf_write hy _ _

theorem wf_buildPerm {g : Context} {m : IndexMemory} (h : Memory.wf m) : Memory.wf (buildPerm g m) :=
  wf_pixelMajor (wf_pixelMajor (wf_channelMajor (wf_channelMajor h)))

theorem wf_clearBytes {n : Nat} {m : ByteMemory} (h : Memory.wf m) : Memory.wf (clearBytes n m) :=
  forUp_keeps Memory.wf h fun _ _ _ hy => Memory.wf_write hy _ _

theorem wf_emitBlock {s : State} (h : Memory.wf s.canvas) : Memory.wf (emitBlock s).canvas :=
  forUp_keeps Memory.wf h fun _ _ _ hz => forUp_keeps Memory.wf hz fun _ _ _ hz =>
    forUp_keeps Memory.wf hz fun _ _ _ hz => Memory.wf_write hz _ _

theorem memoryWf_scatter {s : State} {p : Nat} (h : s.MemoryWf) : (scatter p s).MemoryWf :=
  ⟨h.perm, h.arr, forUp_keeps Memory.wf h.bout fun _ _ _ hy => Memory.wf_write hy _ _, h.pcol, h.prow, h.canvas⟩

theorem memoryWf_applyColor {s : State} {c : BitVec 4} (h : s.MemoryWf) : (applyColor c s).MemoryWf := by
  rcases applyColor_cases c s with e | ⟨t, b, -, -, -, e⟩ | ⟨t, u, b, -, -, -, -, -, -, e⟩ <;> rw [e]
  · exact h
  · exact ⟨h.perm, h.arr, forUp_keeps Memory.wf h.bout fun _ _ _ hy => Memory.wf_write hy _ _, h.pcol, h.prow, h.canvas⟩
  · exact ⟨h.perm, h.arr, forUp_keeps Memory.wf h.bout fun _ _ _ hy => Memory.wf_write (Memory.wf_write hy _ _) _ _,
      h.pcol, h.prow, h.canvas⟩

theorem memoryWf_horizontalAccumulate {s : State} (h : s.MemoryWf) : (horizontalAccumulate s).MemoryWf := by
  have key := forUp_keeps (n := s.ctx.blockStride) (body := accumulateRow s)
    (fun y : ByteMemory × ByteMemory => Memory.wf y.1 ∧ Memory.wf y.2) (x := (s.bout, s.pcol)) ⟨h.bout, h.pcol⟩
    fun r _ y hy => ⟨forUp_keeps (fun y : ByteMemory × Byte => Memory.wf y.1) hy.1 fun _ _ _ hz => Memory.wf_write hz _ _,
      Memory.wf_write hy.2 _ _⟩
  exact ⟨h.perm, h.arr, key.1, key.2, h.prow, h.canvas⟩

theorem memoryWf_horizontalCapture {s : State} (h : s.MemoryWf) : (horizontalCapture s).MemoryWf :=
  ⟨h.perm, h.arr, h.bout, forUp_keeps Memory.wf h.pcol fun _ _ _ hy => Memory.wf_write hy _ _, h.prow, h.canvas⟩

theorem memoryWf_vertical {s : State} (h : s.MemoryWf) : (vertical s).MemoryWf := by
  have key := forUp_keeps (n := s.ctx.channels) (body := verticalChannel s)
    (fun y : ByteMemory × ByteMemory => Memory.wf y.1 ∧ Memory.wf y.2) (x := (s.bout, s.prow)) ⟨h.bout, h.prow⟩
    fun c _ y hy => ⟨forUp_keeps Memory.wf hy.1 fun _ _ _ hz => forUp_keeps Memory.wf hz fun _ _ _ hz =>
      Memory.wf_write hz _ _, forUp_keeps Memory.wf hy.2 fun _ _ _ hz => Memory.wf_write hz _ _⟩
  exact ⟨h.perm, h.arr, key.1, h.pcol, key.2, h.canvas⟩

theorem memoryWf_transform {s : State} (code : Byte) (h : s.MemoryWf) : (transform code s).MemoryWf := by
  unfold transform
  split
  · exact memoryWf_scatter h
  · apply memoryWf_vertical
    unfold horizontal
    split
    · exact memoryWf_horizontalAccumulate (memoryWf_applyColor (memoryWf_scatter h))
    · exact memoryWf_horizontalCapture (memoryWf_applyColor (memoryWf_scatter h))

/-! The invariants rest on a few fields. -/

theorem SegmentBijective_congr {s t : State} {p : Nat} (h : s.SegmentBijective p) (hc : t.ctx = s.ctx)
    (hp : t.perm = s.perm) : t.SegmentBijective p := by
  obtain ⟨a, b, c⟩ := h
  constructor
  · rw [hc, hp]
    exact a
  · rw [hc, hp]
    exact b
  · rw [hc, hp]
    exact c

theorem Inv_congr {s t : State} (h : s.Inv) (h1 : t.status = s.status) (h2 : t.err = s.err) (h3 : t.errInfo = s.errInfo)
    (h4 : t.ctx = s.ctx) (h5 : t.blkX = s.blkX) (h6 : t.blkY = s.blkY) (h7 : t.arrp = s.arrp) (h8 : t.perm = s.perm) :
    t.Inv where
  faultHasNumber := by rw [h1, h2]; exact h.faultHasNumber
  noFaultNoNumber := by rw [h1, h2, h3]; exact h.noFaultNoNumber
  permNeedsContext := by rw [h1]; exact h.permNeedsContext
  esbNeedsContext := by rw [h1]; exact h.esbNeedsContext
  arrNeedsContext := by rw [h1]; exact h.arrNeedsContext
  boutNeedsContext := by rw [h1]; exact h.boutNeedsContext
  doneNeedsContext := by rw [h1]; exact h.doneNeedsContext
  geometry := by rw [h1, h4]; exact h.geometry
  notBoth := by rw [h1]; exact h.notBoth
  counterInGrid := by rw [h1, h4, h5, h6]; exact h.counterInGrid
  permBijective := by
    rw [h1]
    exact fun hv p hp => SegmentBijective_congr (h.permBijective hv p hp) h4 h8
  arrpBound := by rw [h1, h4, h7]; exact h.arrpBound
  arrFullIff := by rw [h1, h4, h7]; exact h.arrFullIff
  doneNoBlock := by rw [h1]; exact h.doneNoBlock

theorem Written_mono {s t : State} (h : s.Written) (h1 : t.status = s.status) (h2 : t.ctx = s.ctx) (h3 : t.arrp = s.arrp)
    (arr : ∀ a, (Memory.read s.arr a).isSome → (Memory.read t.arr a).isSome)
    (bout : ∀ a, (Memory.read s.bout a).isSome → (Memory.read t.bout a).isSome)
    (pcol : ∀ a, (Memory.read s.pcol a).isSome → (Memory.read t.pcol a).isSome)
    (prow : ∀ a, (Memory.read s.prow a).isSome → (Memory.read t.prow a).isSome) : t.Written where
  arr := by rw [h1, h3]; exact fun hv a ha => arr a (h.arr hv a ha)
  bout := by rw [h1, h2]; exact fun hv a ha => bout a (h.bout hv a ha)
  pcol := by rw [h1, h2]; exact fun hv a ha => pcol a (h.pcol hv a ha)
  prow := by rw [h1, h2]; exact fun hv a ha => prow a (h.prow hv a ha)

end Sys2Proof.Machine
end

