-- ==== Sys2Proof/Laws/Agreement.lean ====
section
/-! SUPPORT. Two runs side by side: where two states agree on the elements an operation reads, they agree on what it writes. -/

namespace Sys2Proof.Machine

/-- Two loops side by side: a relation every pair of iterations keeps. -/
theorem forUp_rel {α β : Type} (R : Nat → α → β → Prop) {n : Nat} {f : Nat → α → α} {g : Nat → β → β} {x : α} {y : β}
    (h0 : R 0 x y)
    (hs : ∀ i, i < n → ∀ a b, R i a b → R (i + 1) (f i a) (g i b)) : R n (forUp n f x) (forUp n g y) := by
  induction n with
  | zero => exact h0
  | succ n ih => exact hs n (Nat.lt_succ_self n) _ _ (ih fun i hi => hs i (Nat.lt_succ_of_lt hi))

/-- Two buffers agree below `n`. -/
def SameBelow (n : Nat) (m m' : ByteMemory) : Prop := ∀ a, a < n → Memory.read m' a = Memory.read m a

theorem SameBelow.write {n : Nat} {m m' : ByteMemory} {a : Nat} {v : Byte} (h : SameBelow n m m') :
    SameBelow n (Memory.write m a v) (Memory.write m' a v) := by
  intro b hb; rw [Memory.read_write, Memory.read_write]; split
  · rfl
  · exact h b hb

/-- Two states that differ in buffers only. -/
def SameRest (s t : State) : Prop :=
  t = { s with perm := t.perm, arr := t.arr, bout := t.bout, pcol := t.pcol, prow := t.prow, canvas := t.canvas }

theorem SameRest.ctx {s t : State} (h : SameRest s t) : t.ctx = s.ctx := by rw [h]
theorem SameRest.status {s t : State} (h : SameRest s t) : t.status = s.status := by rw [h]
theorem SameRest.cfg {s t : State} (h : SameRest s t) : t.cfg = s.cfg := by rw [h]
theorem SameRest.blkX {s t : State} (h : SameRest s t) : t.blkX = s.blkX := by rw [h]
theorem SameRest.blkY {s t : State} (h : SameRest s t) : t.blkY = s.blkY := by rw [h]
theorem SameRest.arrp {s t : State} (h : SameRest s t) : t.arrp = s.arrp := by rw [h]
theorem SameRest.freeCtr {s t : State} (h : SameRest s t) : t.freeCtr = s.freeCtr := by rw [h]

/-- Two states that differ in buffers only, and agree on the bytes a transform of one block reads and writes. -/
structure SameBlock (n q r : Nat) (s t : State) : Prop where
  rest : SameRest s t
  bout : SameBelow n s.bout t.bout
  pcol : SameBelow q s.pcol t.pcol
  prow : SameBelow r s.prow t.prow

theorem boutIn_same {s t : State} (h : SameRest s t) {n : Nat} {m m' : ByteMemory} {a : Nat} (hm : SameBelow n m m') (ha : a < n) :
    t.boutIn m' a = s.boutIn m a := by
  unfold State.boutIn byteAt; rw [hm a ha, h.freeCtr]
theorem pcolIn_same {s t : State} (h : SameRest s t) {n : Nat} {m m' : ByteMemory} {a : Nat} (hm : SameBelow n m m') (ha : a < n) :
    t.pcolIn m' a = s.pcolIn m a := by
  unfold State.pcolIn byteAt; rw [hm a ha, h.freeCtr]
theorem prowIn_same {s t : State} (h : SameRest s t) {n : Nat} {m m' : ByteMemory} {a : Nat} (hm : SameBelow n m m') (ha : a < n) :
    t.prowIn m' a = s.prowIn m a := by
  unfold State.prowIn byteAt; rw [hm a ha, h.freeCtr]

/-- A legal colour op keeps the agreement. -/
theorem applyColor_same {c : BitVec 4} {n q r : Nat} {s t : State} (h : SameBlock n q r s t) (hl : LegalColor s.ctx.channels c)
    (hn : s.ctx.channels * s.ctx.blockArea ≤ n) :
    SameBlock n q r (applyColor c s) (applyColor c t) := by
  by_cases h3 : 3 ≤ s.ctx.channels
  · have rd : ∀ {k i m m'}, k < 3 → i < s.ctx.blockArea → SameBelow n m m' → t.boutIn m' (planeAddr s.ctx k i) = s.boutIn m (planeAddr s.ctx k i) := by
      intro k i m m' hk hi hm
      apply boutIn_same h.rest hm
      have : planeAddr s.ctx k i < 3 * s.ctx.blockArea := pair_lt hk hi
      have := Nat.mul_le_mul_right s.ctx.blockArea h3
      omega
    have a1 : ∀ k b, k < 3 → b < 3 → SameBlock n q r (addPlane k b s) (addPlane k b t) := by
      intro k b hk hb
      refine ⟨?_, ?_, h.pcol, h.prow⟩
      · have := h.rest; unfold SameRest at this ⊢; unfold addPlane State.setBout; rw [this]
      · unfold addPlane
        simp only [State.setBout_bout]
        rw [h.rest.ctx]
        refine forUp_rel (fun _ => SameBelow n) h.bout fun i hi m m' hm => ?_
        rw [rd hk hi hm, rd hb hi hm]; exact hm.write
    have a2 : ∀ k u b, k < 3 → u < 3 → b < 3 → SameBlock n q r (addPlanes k u b s) (addPlanes k u b t) := by
      intro k u b hk hu hb
      refine ⟨?_, ?_, h.pcol, h.prow⟩
      · have := h.rest; unfold SameRest at this ⊢; unfold addPlanes State.setBout; rw [this]
      · unfold addPlanes
        simp only [State.setBout_bout]
        rw [h.rest.ctx]
        refine forUp_rel (fun _ => SameBelow n) h.bout fun i hi m m' hm => ?_
        simp only [rd hk hi hm, rd hb hi hm, rd hu hi hm.write]; exact hm.write.write
    rcases color_values c with h | h | h | h | h | h | h | h | h | h | h | h | h | h | h | h <;> subst h <;>
     first | assumption | exact a1 _ _ (by decide) (by decide) | exact a2 _ _ _ (by decide) (by decide) (by decide)
  · rcases hl with hl | hl
    · omega
    · simp at hl
      rcases hl with rfl | rfl | rfl | rfl | rfl | rfl | rfl <;> exact h

/-- The horizontal step keeps the agreement. -/
theorem horizontal_same {code : Byte} {n q r : Nat} {s t : State} (h : SameBlock n q r s t)
    (hn : s.ctx.blockStride * s.ctx.blockSize ≤ n) (hS : 0 < s.ctx.blockSize)
    (hq : s.blkY * s.ctx.blockStride + s.ctx.blockStride ≤ q) :
    SameBlock n q r (horizontal code s) (horizontal code t) := by
  have rb : ∀ {l x m m'}, l < s.ctx.blockStride → x < s.ctx.blockSize → SameBelow n m m' → t.boutIn m' (rowAddr s.ctx l x) = s.boutIn m (rowAddr s.ctx l x) := by
    intro l x m m' hl hx hm
    apply boutIn_same h.rest hm
    have := pair_lt hl hx
    unfold rowAddr; omega
  have rp : ∀ {l m m'}, l < s.ctx.blockStride → SameBelow q m m' → t.pcolIn m' (pcolAddr s.ctx s.blkY l) = s.pcolIn m (pcolAddr s.ctx s.blkY l) := by
    intro l m m' hl hm
    apply pcolIn_same h.rest hm
    unfold pcolAddr; omega
  unfold horizontal
  split
  · have key : SameBelow n (forUp s.ctx.blockStride (accumulateRow s) (s.bout, s.pcol)).1 (forUp s.ctx.blockStride (accumulateRow t) (t.bout, t.pcol)).1 ∧
       SameBelow q (forUp s.ctx.blockStride (accumulateRow s) (s.bout, s.pcol)).2 (forUp s.ctx.blockStride (accumulateRow t) (t.bout, t.pcol)).2 := by
      refine forUp_rel (fun _ (y y' : ByteMemory × ByteMemory) => SameBelow n y.1 y'.1 ∧ SameBelow q y.2 y'.2) ⟨h.bout, h.pcol⟩ fun l hl y y' hy => ?_
      unfold accumulateRow
      simp only [h.rest.ctx, h.rest.blkY]
      rw [rp hl hy.2]
      have sw := forUp_rel (n := s.ctx.blockSize) (fun _ (z z' : ByteMemory × Byte) => SameBelow n z.1 z'.1 ∧ z'.2 = z.2)
        (f := fun x (mr : ByteMemory × Byte) =>
          (Memory.write mr.1 (rowAddr s.ctx l x) (add8 mr.2 (s.boutIn mr.1 (rowAddr s.ctx l x))), add8 mr.2 (s.boutIn mr.1 (rowAddr s.ctx l x))))
        (g := fun x (mr : ByteMemory × Byte) =>
          (Memory.write mr.1 (rowAddr s.ctx l x) (add8 mr.2 (t.boutIn mr.1 (rowAddr s.ctx l x))), add8 mr.2 (t.boutIn mr.1 (rowAddr s.ctx l x))))
        (x := (y.1, s.pcolIn y.2 (pcolAddr s.ctx s.blkY l))) (y := (y'.1, s.pcolIn y.2 (pcolAddr s.ctx s.blkY l))) ⟨hy.1, rfl⟩
        fun x hx z z' hz => by
          simp only [rb hl hx hz.1, hz.2]
          exact ⟨hz.1.write, trivial⟩
      refine ⟨sw.1, ?_⟩
      rw [sw.2]; exact hy.2.write
    refine ⟨?_, ?_, ?_, h.prow⟩
    · have := h.rest; unfold SameRest at this ⊢; unfold horizontalAccumulate State.setBout State.setPcol; rw [this]
    · simp only [horizontalAccumulate, State.setBout_bout, State.setPcol_bout, h.rest.ctx]; exact key.1
    · simp only [horizontalAccumulate, State.setPcol_pcol, h.rest.ctx]; exact key.2
  · refine ⟨?_, h.bout, ?_, h.prow⟩
    · have := h.rest; unfold SameRest at this ⊢; unfold horizontalCapture State.setPcol; rw [this]
    · simp only [horizontalCapture, State.setPcol_pcol, h.rest.ctx, h.rest.blkY]
      refine forUp_rel (fun _ => SameBelow q) h.pcol fun l hl m m' hm => ?_
      rw [rb hl (by omega) h.bout]; exact hm.write

/-- The vertical pass keeps the agreement. -/
theorem vertical_same {n q r : Nat} {s t : State} (h : SameBlock n q r s t)
    (hA : s.ctx.blockArea = s.ctx.blockSize * s.ctx.blockSize) (hn : s.ctx.channels * s.ctx.blockArea ≤ n)
    (hq : s.blkX * s.ctx.blockStride + s.ctx.channels * s.ctx.blockSize ≤ r) :
    SameBlock n q r (vertical s) (vertical t) := by
  have rb : ∀ {c y x m m'}, c < s.ctx.channels → y < s.ctx.blockSize → x < s.ctx.blockSize → SameBelow n m m' → t.boutIn m' (planarAddr s.ctx c y x) = s.boutIn m (planarAddr s.ctx c y x) := by
    intro c y x m m' hc hy hx hm
    apply boutIn_same h.rest hm
    have := planarAddr_lt hA hc hy hx
    omega
  have rp : ∀ {c x m m'}, c < s.ctx.channels → x < s.ctx.blockSize → SameBelow r m m' → t.prowIn m' (prowAddr s.ctx s.blkX c x) = s.prowIn m (prowAddr s.ctx s.blkX c x) := by
    intro c x m m' hc hx hm
    apply prowIn_same h.rest hm
    have := pair_lt hc hx
    unfold prowAddr; omega
  have key : SameBelow n (forUp s.ctx.channels (verticalChannel s) (s.bout, s.prow)).1 (forUp s.ctx.channels (verticalChannel t) (t.bout, t.prow)).1 ∧
       SameBelow r (forUp s.ctx.channels (verticalChannel s) (s.bout, s.prow)).2 (forUp s.ctx.channels (verticalChannel t) (t.bout, t.prow)).2 := by
    refine forUp_rel (fun _ (y y' : ByteMemory × ByteMemory) => SameBelow n y.1 y'.1 ∧ SameBelow r y.2 y'.2) ⟨h.bout, h.prow⟩ fun c hc y y' hy => ?_
    have e1 : SameBelow n (verticalChannel s c y).1 (verticalChannel t c y').1 := by
      unfold verticalChannel
      simp only [h.rest.ctx]
      refine forUp_rel (fun _ => SameBelow n) hy.1 fun l hl m m' hm => ?_
      refine forUp_rel (fun _ => SameBelow n) hm fun x hx m m' hm => ?_
      have : verticalAddend t m' y'.2 c l x = verticalAddend s m y.2 c l x := by
        unfold verticalAddend
        simp only [h.rest.cfg, h.rest.ctx, h.rest.blkX]
        by_cases hh : l = 0 ∨ s.cfg.vpredChained = false
        · simp only [hh, if_true]; exact rp hc hx hy.2
        · simp only [hh, if_false]; exact rb hc (by omega) hx hm
      rw [rb hc hl hx hm, this]; exact hm.write
    refine ⟨e1, ?_⟩
    show SameBelow r (forUp s.ctx.blockSize (fun x m =>
      Memory.write m (prowAddr s.ctx s.blkX c x) (s.boutIn (verticalChannel s c y).1 (planarAddr s.ctx c (s.ctx.blockSize - 1) x))) y.2)
     (forUp t.ctx.blockSize (fun x m =>
      Memory.write m (prowAddr t.ctx t.blkX c x) (t.boutIn (verticalChannel t c y').1 (planarAddr t.ctx c (t.ctx.blockSize - 1) x))) y'.2)
    rw [h.rest.ctx, h.rest.blkX]
    refine forUp_rel (fun _ => SameBelow r) hy.2 fun x hx m m' hm => ?_
    rw [rb hc (by omega) hx e1]; exact hm.write
  refine ⟨?_, ?_, h.pcol, ?_⟩
  · have := h.rest; unfold SameRest at this ⊢; unfold vertical State.setBout State.setProw; rw [this]
  · simp only [vertical, State.setBout_bout, State.setProw_bout, h.rest.ctx]; exact key.1
  · simp only [vertical, State.setProw_prow, h.rest.ctx]; exact key.2

/-- Steps 2 to 6 of BLK_XFORM bring two states that agree but for stale elements to agree on the whole block. -/
theorem transform_same {code : Byte} {s t : State} (hI : s.Inv) (hr : s.ReadyToTransform)
    (hl : LegalColor s.ctx.channels (colorOp code)) (h : s.AgreesLive t) :
    SameBlock s.ctx.blockSamples (s.ctx.heightBlocks * s.ctx.blockStride) (s.ctx.widthBlocks * s.ctx.blockStride) (transform code s) (transform code t) := by
  have hrest : SameRest s t := h.rest
  have g := hI.geometry hr.context
  have gp := g.pos
  have hb := hI.permBijective hr.perm
  have hN := (hI.arrFullIff.mp hr.arr).1
  obtain ⟨hx, hy⟩ := hI.counterInGrid hr.notDone hr.context
  have hN1 : s.ctx.blockStride * s.ctx.blockSize = s.ctx.blockSamples := by
    rw [g.stride, g.samples, g.area]; ring
  have hN2 : s.ctx.channels * s.ctx.blockArea = s.ctx.blockSamples := by
    rw [g.samples]; ring
  have sc : ∀ p, p < 4 → SameBlock s.ctx.blockSamples (s.ctx.heightBlocks * s.ctx.blockStride) (s.ctx.widthBlocks * s.ctx.blockStride) (scatter p s) (scatter p t) := by
    intro p hp
    have pa : ∀ i, i < s.ctx.blockSamples → permAddr s.ctx p i < 4 * s.ctx.blockSamples := by
      intro i hi; exact pair_lt hp hi
    have hbt : t.SegmentBijective p := by
      have hb := hb p hp
      have e : ∀ i, i < s.ctx.blockSamples → Memory.read t.perm (permAddr t.ctx p i) = Memory.read s.perm (permAddr s.ctx p i) := by
        intro i hi; rw [hrest.ctx]; exact h.perm hr.perm _ (pa i hi)
      constructor
      · rw [hrest.ctx]; intro i hi; obtain ⟨j, hj, hr⟩ := hb.inside i hi; exact ⟨j, hj, by rw [← hr, ← e i hi, hrest.ctx]⟩
      · rw [hrest.ctx]; intro i j hi hj he
        apply hb.once i j hi hj
        rw [← e i hi, ← e j hj, hrest.ctx]; exact he
      · rw [hrest.ctx]; intro j hj; obtain ⟨i, hi, hr⟩ := hb.all j hj; exact ⟨i, hi, by rw [← hr, ← e i hi, hrest.ctx]⟩
    refine ⟨?_, ?_, fun a ha => h.pcol hr.esb a ha, fun a ha => h.prow hr.esb a ha⟩
    · have := hrest; unfold SameRest at this ⊢; unfold scatter State.setBout; rw [this]
    · intro a ha
      obtain ⟨i, hi, hr1⟩ := (hb p hp).all a ha
      have h1 := scatter_read (permAt_inj (hb p hp)) hi
      have h2 := scatter_read (permAt_inj hbt) (i := i) (by rw [hrest.ctx]; exact hi)
      have hr2 : Memory.read t.perm (permAddr t.ctx p i) = some a := by
        rw [hrest.ctx, h.perm hr.perm _ (pa i hi)]; exact hr1
      rw [permAt_of_read hr1] at h1
      rw [permAt_of_read hr2] at h2
      rw [h1, h2]
      unfold State.arrAt byteAt
      rw [h.arr i (by omega), hrest.freeCtr]
  have hps : (permSelector code).toNat < 4 := (permSelector code).isLt
  have hyT := Nat.mul_le_mul_right s.ctx.blockStride hy
  have hxT := Nat.mul_le_mul_right s.ctx.blockStride hx
  rw [Nat.succ_mul] at hyT hxT
  unfold transform
  split
  · exact sc 0 (by decide)
  · refine vertical_same (horizontal_same (applyColor_same (sc _ hps) (by simpa using hl) (by simp [hN2])) (by simp [hN1]) (by simp [gp.1]) (by simp; omega)) (by simp [g.area]) (by simp [hN2]) ?_
    simp; rw [Nat.mul_comm s.ctx.channels, ← g.stride]; omega

/-- The command gate answers alike in two states with the same STATUS. -/
theorem runCommand_same {op : BitVec 4} {r : Bool} {e e' s t s' : State} (hst : t.status = s.status)
    (h : runCommand op r e s = .next s') :
   (s.status.fault = true ∧ s' = s ∧ runCommand op r e' t = .next t) ∨ (s.status.fault = false ∧ r = true ∧ s' = e ∧ runCommand op r e' t = .next e') ∨
    (s.status.fault = false ∧ s' = faulted s 6 (op.setWidth 8) ∧ runCommand op r e' t = .next (faulted t 6 (op.setWidth 8))) := by
  rcases runCommand_cases h with ⟨hf, rfl⟩ | ⟨hf, hr, rfl⟩ | ⟨hf, hr, rfl⟩
  · exact .inl ⟨hf, rfl, runCommand_of_fault (by rw [hst]; exact hf)⟩
  · exact .inr (.inl ⟨hf, hr, rfl, runCommand_of_ready (by rw [hst]; exact hf) hr⟩)
  · exact .inr (.inr ⟨hf, rfl, runCommand_of_not_ready (by rw [hst]; exact hf) hr⟩)

/-- A fault keeps the agreement. -/
theorem agreesLive_faulted {s t : State} (h : s.AgreesLive t) (n : BitVec 4) (b : Byte) :
    (faulted s n b).AgreesLive (faulted t n b) := by
  have hr := h.rest
  refine ⟨?_, h.perm, h.arr, h.bout, h.pcol, h.prow⟩
  unfold faulted; rw [hr]

end Sys2Proof.Machine
end

