-- ==== Sys2Proof/Laws/Counter.lean ====
section
/-! SUPPORT. Where every element an operation reads is written, the counter that names free values does not matter. -/

namespace Sys2Proof.Machine

/-- Every element below `n` is written. -/
def WrittenBelow (n : Nat) (m : ByteMemory) : Prop := ∀ a, a < n → (Memory.read m a).isSome

theorem WrittenBelow.write {n : Nat} {m : ByteMemory} {a : Nat} {v : Byte} (h : WrittenBelow n m) :
    WrittenBelow n (Memory.write m a v) := fun b hb => Memory.isSome_write _ _ _ _ (h b hb)

/-- A scatter of written bytes through a bijective segment. -/
theorem scatter_counter {s : State} {p k : Nat} (hb : s.SegmentBijective p) (ha : WrittenBelow s.ctx.blockSamples s.arr) :
    scatter p (s.setFreeCtr k) = (scatter p s).setFreeCtr k := by
  have : forUp s.ctx.blockSamples (fun i m =>
        Memory.write m ((s.setFreeCtr k).permAt (permAddr s.ctx p i)) ((s.setFreeCtr k).arrAt i)) s.bout =
      forUp s.ctx.blockSamples (fun i m => Memory.write m (s.permAt (permAddr s.ctx p i)) (s.arrAt i)) s.bout := by
    apply forUp_congr
    intro i hi y
    obtain ⟨j, _, hj⟩ := hb.inside i hi
    rw [permAt_of_read hj, permAt_of_read (s := s.setFreeCtr k) hj]
    congr 1
    exact byteAt_counter (ha i hi)
  simp only [scatter, State.setFreeCtr_ctx, State.setFreeCtr_bout, this]; rfl

/-- A legal colour op on written planes. -/
theorem applyColor_counter {s : State} {c : BitVec 4} {k n : Nat} (hl : LegalColor s.ctx.channels c) 
    (hn : s.ctx.channels * s.ctx.blockArea ≤ n) (hb : WrittenBelow n s.bout) :
    applyColor c (s.setFreeCtr k) = (applyColor c s).setFreeCtr k := by
  by_cases h3 : 3 ≤ s.ctx.channels
  · have rd : ∀ {t i m}, t < 3 → i < s.ctx.blockArea → WrittenBelow n m →
        (s.setFreeCtr k).boutIn m (planeAddr s.ctx t i) = s.boutIn m (planeAddr s.ctx t i) := by
      intro t i m ht hi hm
      apply byteAt_counter
      apply hm
      have : planeAddr s.ctx t i < 3 * s.ctx.blockArea := pair_lt ht hi
      have := Nat.mul_le_mul_right s.ctx.blockArea h3
      omega
    have a1 : ∀ t b, t < 3 → b < 3 → addPlane t b (s.setFreeCtr k) = (addPlane t b s).setFreeCtr k := by
      intro t b ht hb'
      unfold addPlane
      simp only [State.setFreeCtr_ctx, State.setFreeCtr_bout]
      rw [forUp_congr_on (fun _ y => WrittenBelow n y) hb]
      rotate_left
      · intro i hi y hy; exact hy.write
      · intro i hi y hy; rw [rd ht hi hy, rd hb' hi hy]
      rfl
    have a2 : ∀ t u b, t < 3 → u < 3 → b < 3 → addPlanes t u b (s.setFreeCtr k) = (addPlanes t u b s).setFreeCtr k := by
      intro t u b ht hu hb'
      unfold addPlanes
      simp only [State.setFreeCtr_ctx, State.setFreeCtr_bout]
      rw [forUp_congr_on (fun _ y => WrittenBelow n y) hb]
      rotate_left
      · intro i hi y hy; exact hy.write.write
      · intro i hi y hy; simp only [rd ht hi hy, rd hb' hi hy, rd hu hi hy.write]; rfl
      rfl
    rcases color_values c with h | h | h | h | h | h | h | h | h | h | h | h | h | h | h | h <;> subst h <;>
     first | rfl | exact a1 _ _ (by decide) (by decide) | exact a2 _ _ _ (by decide) (by decide) (by decide)
  · rcases hl with hl | hl
    · omega
    · simp at hl
      rcases hl with rfl | rfl | rfl | rfl | rfl | rfl | rfl <;> rfl

/-- The horizontal step on written rows and a written column state. -/
theorem horizontal_counter {s : State} {code : Byte} {k n q : Nat} (hn : s.ctx.blockStride * s.ctx.blockSize ≤ n)
    (hb : WrittenBelow n s.bout) (hS : 0 < s.ctx.blockSize) (hq : s.blkY * s.ctx.blockStride + s.ctx.blockStride ≤ q)
    (hp : WrittenBelow q s.pcol) :
    horizontal code (s.setFreeCtr k) = (horizontal code s).setFreeCtr k := by
  have rb : ∀ {r x m}, r < s.ctx.blockStride → x < s.ctx.blockSize → WrittenBelow n m →
        (s.setFreeCtr k).boutIn m (rowAddr s.ctx r x) = s.boutIn m (rowAddr s.ctx r x) := by
    intro r x m hr hx hm
    apply byteAt_counter
    apply hm
    have := pair_lt hr hx
    unfold rowAddr; omega
  have rp : ∀ {r m}, r < s.ctx.blockStride → WrittenBelow q m →
        (s.setFreeCtr k).pcolIn m (pcolAddr s.ctx s.blkY r) = s.pcolIn m (pcolAddr s.ctx s.blkY r) := by
    intro r m hr hm
    apply byteAt_counter
    apply hm
    unfold pcolAddr; omega
  unfold horizontal
  split
  · unfold horizontalAccumulate
    simp only [State.setFreeCtr_ctx, State.setFreeCtr_bout, State.setFreeCtr_pcol]
    rw [forUp_congr_on (g := accumulateRow s) (fun _ y => WrittenBelow n y.1 ∧ WrittenBelow q y.2) ⟨hb, hp⟩]
    rotate_left
    · intro r hr y hy
      refine ⟨?_, hy.2.write⟩
      exact forUp_keeps (fun z : ByteMemory × Byte => WrittenBelow n z.1) hy.1 fun _ _ z hz => hz.write
    · intro r hr y hy
      have : (forUp s.ctx.blockSize (fun x (mr : ByteMemory × Byte) =>
        let run := add8 mr.2 ((s.setFreeCtr k).boutIn mr.1 (rowAddr s.ctx r x))
        (Memory.write mr.1 (rowAddr s.ctx r x) run, run))
        (y.1, (s.setFreeCtr k).pcolIn y.2 (pcolAddr s.ctx s.blkY r))) = (forUp s.ctx.blockSize (fun x (mr : ByteMemory × Byte) =>
        let run := add8 mr.2 (s.boutIn mr.1 (rowAddr s.ctx r x))
        (Memory.write mr.1 (rowAddr s.ctx r x) run, run))
        (y.1, s.pcolIn y.2 (pcolAddr s.ctx s.blkY r))) := by
        rw [rp hr hy.2]
        apply forUp_congr_on (fun _ (z : ByteMemory × Byte) => WrittenBelow n z.1) hy.1
        · intro x hx z hz; exact hz.write
        · intro x hx z hz; simp only [rb hr hx hz]
      unfold accumulateRow
      simp only [State.setFreeCtr_ctx, State.setFreeCtr_blkY, this]
    rfl
  · unfold horizontalCapture
    simp only [State.setFreeCtr_ctx, State.setFreeCtr_bout, State.setFreeCtr_pcol, State.setFreeCtr_blkY]
    rw [forUp_congr (g := fun r m => Memory.write m (pcolAddr s.ctx s.blkY r) (s.boutIn s.bout (rowAddr s.ctx r (s.ctx.blockSize - 1))))]
    · rfl
    · intro r hr y
      rw [rb hr (by omega) hb]

/-- The vertical pass on written planes and a written row state. -/
theorem vertical_counter {s : State} {k n q : Nat} (hA : s.ctx.blockArea = s.ctx.blockSize * s.ctx.blockSize)
    (hn : s.ctx.channels * s.ctx.blockArea ≤ n) (hb : WrittenBelow n s.bout)
    (hq : s.blkX * s.ctx.blockStride + s.ctx.channels * s.ctx.blockSize ≤ q) (hp : WrittenBelow q s.prow) :
    vertical (s.setFreeCtr k) = (vertical s).setFreeCtr k := by
  have rb : ∀ {c y x m}, c < s.ctx.channels → y < s.ctx.blockSize → x < s.ctx.blockSize → WrittenBelow n m →
        (s.setFreeCtr k).boutIn m (planarAddr s.ctx c y x) = s.boutIn m (planarAddr s.ctx c y x) := by
    intro c y x m hc hy hx hm
    apply byteAt_counter
    apply hm
    have := planarAddr_lt hA hc hy hx
    omega
  have rp : ∀ {c x m}, c < s.ctx.channels → x < s.ctx.blockSize → WrittenBelow q m →
        (s.setFreeCtr k).prowIn m (prowAddr s.ctx s.blkX c x) = s.prowIn m (prowAddr s.ctx s.blkX c x) := by
    intro c x m hc hx hm
    apply byteAt_counter
    apply hm
    have := pair_lt hc hx
    unfold prowAddr; omega
  unfold vertical
  simp only [State.setFreeCtr_ctx, State.setFreeCtr_bout, State.setFreeCtr_prow]
  rw [forUp_congr_on (g := verticalChannel s) (fun _ y => WrittenBelow n y.1 ∧ WrittenBelow q y.2) ⟨hb, hp⟩]
  · rfl
  · intro c hc y hy
    refine ⟨?_, ?_⟩
    · exact forUp_keeps (WrittenBelow n) hy.1 fun _ _ z hz => forUp_keeps (WrittenBelow n) hz fun _ _ z hz => hz.write
    · exact forUp_keeps (WrittenBelow q) hy.2 fun _ _ z hz => hz.write
  · intro c hc y hy
    have e1 : (forUp s.ctx.blockSize (fun r => forUp s.ctx.blockSize fun x m =>
      Memory.write m (planarAddr s.ctx c r x)
        (add8 ((s.setFreeCtr k).boutIn m (planarAddr s.ctx c r x)) (verticalAddend (s.setFreeCtr k) m y.2 c r x)))
      y.1) = (forUp s.ctx.blockSize (fun r => forUp s.ctx.blockSize fun x m =>
      Memory.write m (planarAddr s.ctx c r x)
        (add8 (s.boutIn m (planarAddr s.ctx c r x)) (verticalAddend s m y.2 c r x)))
      y.1) := by
      apply forUp_congr_on (fun _ => WrittenBelow n) hy.1
      · intro r hr z hz; exact forUp_keeps (WrittenBelow n) hz fun _ _ z hz => hz.write
      · intro r hr z hz
        apply forUp_congr_on (fun _ => WrittenBelow n) hz
        · intro x hx z hz; exact hz.write
        · intro x hx z hz
          rw [rb hc hr hx hz]
          have : verticalAddend (s.setFreeCtr k) z y.2 c r x = verticalAddend s z y.2 c r x := by
            unfold verticalAddend
            simp only [State.setFreeCtr_cfg, State.setFreeCtr_ctx, State.setFreeCtr_blkX]
            by_cases hh : r = 0 ∨ s.cfg.vpredChained = false
            · simp only [hh, if_true]; exact rp hc hx hy.2
            · simp only [hh, if_false]; exact rb hc (by omega) hx hz
          rw [this]
    unfold verticalChannel
    simp only [State.setFreeCtr_ctx, State.setFreeCtr_blkX, e1]
    congr 1
    apply forUp_congr
    intro x hx z
    congr 1
    apply rb hc (by omega) hx
    exact forUp_keeps (WrittenBelow n) hy.1 fun _ _ z hz => forUp_keeps (WrittenBelow n) hz fun _ _ z hz => hz.write

end Sys2Proof.Machine
end

