-- ==== Sys2Proof/Laws/Encoding.lean ====
section
/-! SUPPORT. The fields of a command word, read back and put together again (30_encoding.md R84). -/

namespace Sys2Proof

@[simp] theorem opcodeOf_commandOf (op : BitVec 4) (b : Byte) : opcodeOf (commandOf op b) = op := by
  revert op b
  decide

@[simp] theorem operandOf_commandOf (op : BitVec 4) (b : Byte) : operandOf (commandOf op b) = b := by
  revert op b
  decide

theorem commandOf_fields (w : BitVec 12) : commandOf (opcodeOf w) (operandOf w) = w := by
  unfold commandOf opcodeOf operandOf
  rw [BitVec.extractLsb'_append_extractLsb'_eq_extractLsb' (by rfl)]
  exact BitVec.extractLsb'_eq_self

end Sys2Proof
end

