-- ==== Sys2Proof/Laws/FrontEnd.lean ====
section
/-! SUPPORT. What one call of the front-end answers, in the words of `FrontEnd.answer`, and when a read is never answered. -/

namespace Sys2Proof.Machine

/-- The front-end after one answered call. -/
def FrontEnd.advanced (fe : FrontEnd) : FrontEnd := { fe with script := fe.script.drop 1, calls := fe.calls + 1 }

/-- One call: the answer numbered 0, and the front-end advanced. -/
theorem FrontEnd.call_eq (fe : FrontEnd) : fe.call = (fe.answer 0 fe.calls, fe.advanced) := by
  obtain ⟨script, calls, rawBits, resets⟩ := fe
  cases script <;> simp [FrontEnd.call, FrontEnd.answer, FrontEnd.advanced]

/-- The answers after one answered call are the later answers before it. -/
theorem FrontEnd.answer_drop (fe g : FrontEnd) (j call : Nat) (h : g.script = fe.script.drop 1) :
    g.answer j call = fe.answer (j + 1) call := by
  simp [FrontEnd.answer, h]

theorem FrontEnd.readBits_of_answer {fe : FrontEnd} {v : Nat} (n : Nat) (h : fe.answer 0 fe.calls = some v) :
    fe.readBits n = (some (v % 2 ^ n), { fe.advanced with rawBits := fe.rawBits + n }) := by
  rw [FrontEnd.readBits, FrontEnd.call_eq, h]
  rfl

theorem FrontEnd.symbol_of_answer {fe : FrontEnd} {v : Nat} (h : fe.answer 0 fe.calls = some v) :
    fe.symbol = (some (BitVec.ofNat 8 v), fe.advanced) := by
  rw [FrontEnd.symbol, FrontEnd.call_eq, h]

/-- A read is never answered exactly when the script's next entry says so. -/
theorem FrontEnd.answer_zero_none (fe : FrontEnd) (call : Nat) : fe.answer 0 call = none ↔ none ∈ fe.script.take 1 := by
  obtain ⟨script, calls, rawBits, resets⟩ := fe
  cases script <;> simp [FrontEnd.answer, eq_comm]

theorem FrontEnd.readBits_none (fe : FrontEnd) (n : Nat) : (fe.readBits n).1 = none ↔ none ∈ fe.script.take 1 := by
  rw [← FrontEnd.answer_zero_none fe fe.calls, FrontEnd.readBits, FrontEnd.call_eq]
  cases fe.answer 0 fe.calls <;> simp

theorem FrontEnd.symbol_none (fe : FrontEnd) : fe.symbol.1 = none ↔ none ∈ fe.script.take 1 := by
  rw [← FrontEnd.answer_zero_none fe fe.calls, FrontEnd.symbol, FrontEnd.call_eq]
  cases fe.answer 0 fe.calls <;> simp

/-- A call takes one entry of the script, whatever it asks for. -/
@[simp] theorem FrontEnd.symbol_script (fe : FrontEnd) : fe.symbol.2.script = fe.script.drop 1 := by
  rw [FrontEnd.symbol, FrontEnd.call_eq]
  cases fe.answer 0 fe.calls <;> rfl

@[simp] theorem FrontEnd.readBits_script (fe : FrontEnd) (n : Nat) : (fe.readBits n).2.script = fe.script.drop 1 := by
  rw [FrontEnd.readBits, FrontEnd.call_eq]
  cases fe.answer 0 fe.calls <;> rfl

/-- Among the next `n + 1` reads one is never answered: the next one, or one of the `n` after it. -/
theorem none_mem_take_succ (l : List (Option Nat)) (n : Nat) :
    none ∈ l.take (n + 1) ↔ none ∈ l.take 1 ∨ none ∈ (l.drop 1).take n := by
  cases l <;> simp

end Sys2Proof.Machine
end

