-- ==== Sys2Proof/Laws/PerInstr.lean ====
section
/-! SUPPORT. Statements about every instruction as syntax, and one lemma per constructor. -/

namespace Sys2Proof.Laws.EncodingMatchesTable

/-- A row of spec/opcode_table.json: its format (a command word or a transformer code), its mask, its match. -/
structure Row where
  command : Bool
  mask : Nat
  bits : Nat
  deriving DecidableEq, Repr

/-- The rows as spec/opcode_table.json gives them. -/
def tableRow : Instr → Row
  | .ctxLoad => ⟨true, 0xFFF, 0x100⟩
  | .permBuild => ⟨true, 0xFFF, 0x200⟩
  | .esbClear => ⟨true, 0xFFF, 0x300⟩
  | .arrWrite _ => ⟨true, 0xF00, 0x400⟩
  | .blkXform _ => ⟨true, 0xF00, 0x500⟩
  | .blkEmit => ⟨true, 0xFFF, 0x600⟩
  | .xfVerbatim => ⟨false, 0xFF, 0x00⟩
  | .cpId0 _ _ => ⟨false, 0x0F, 0x00⟩
  | .cpId1 _ _ => ⟨false, 0x0F, 0x01⟩
  | .cpId2 _ _ => ⟨false, 0x0F, 0x02⟩
  | .cpId3 _ _ => ⟨false, 0x0F, 0x03⟩
  | .cpId4 _ _ => ⟨false, 0x0F, 0x04⟩
  | .cp1p0 _ _ => ⟨false, 0x0F, 0x05⟩
  | .cp2p0 _ _ => ⟨false, 0x0F, 0x06⟩
  | .cp12p0 _ _ => ⟨false, 0x0F, 0x07⟩
  | .cpId8 _ _ => ⟨false, 0x0F, 0x08⟩
  | .cp0p1 _ _ => ⟨false, 0x0F, 0x09⟩
  | .cp2p1 _ _ => ⟨false, 0x0F, 0x0A⟩
  | .cp02p1 _ _ => ⟨false, 0x0F, 0x0B⟩
  | .cpId12 _ _ => ⟨false, 0x0F, 0x0C⟩
  | .cp0p2 _ _ => ⟨false, 0x0F, 0x0D⟩
  | .cp1p2 _ _ => ⟨false, 0x0F, 0x0E⟩
  | .cp01p2 _ _ => ⟨false, 0x0F, 0x0F⟩
  | .ps0 _ _ => ⟨false, 0x30, 0x00⟩
  | .ps1 _ _ => ⟨false, 0x30, 0x10⟩
  | .ps2 _ _ => ⟨false, 0x30, 0x20⟩
  | .ps3 _ _ => ⟨false, 0x30, 0x30⟩
  | .hdCapture _ _ _ => ⟨false, 0x40, 0x00⟩
  | .hdAccum _ _ _ => ⟨false, 0x40, 0x40⟩
  | .vdAdd _ _ _ => ⟨false, 0x00, 0x00⟩

/-- A port word's format and bits. -/
def portBits : PortWord → Bool × Nat
  | .command w => (true, w.toNat)
  | .row _ code => (false, code.toNat)

/-- The word an instruction is encoded to has its row's format, and under the row's mask its row's bits. -/
def Statement (i : Instr) : Prop :=
  (portBits (encode i)).1 = (tableRow i).command ∧ (portBits (encode i)).2 &&& (tableRow i).mask = (tableRow i).bits

theorem ctxLoad : Statement .ctxLoad := by
  exact ⟨rfl, by decide⟩

theorem permBuild : Statement .permBuild := by
  exact ⟨rfl, by decide⟩

theorem esbClear : Statement .esbClear := by
  exact ⟨rfl, by decide⟩

theorem arrWrite (b : Byte) : Statement (.arrWrite b) := by
  refine ⟨rfl, ?_⟩
  revert b
  decide

theorem blkXform (code : Byte) : Statement (.blkXform code) := by
  refine ⟨rfl, ?_⟩
  revert code
  decide

theorem blkEmit : Statement .blkEmit := by
  exact ⟨rfl, by decide⟩

theorem xfVerbatim : Statement .xfVerbatim := by
  exact ⟨rfl, by decide⟩

theorem cpId0 (d : BitVec 2) (p : BitVec 2) : Statement (.cpId0 d p) := by
  refine ⟨rfl, ?_⟩
  revert d p
  decide

theorem cpId1 (d : BitVec 2) (p : BitVec 2) : Statement (.cpId1 d p) := by
  refine ⟨rfl, ?_⟩
  revert d p
  decide

theorem cpId2 (d : BitVec 2) (p : BitVec 2) : Statement (.cpId2 d p) := by
  refine ⟨rfl, ?_⟩
  revert d p
  decide

theorem cpId3 (d : BitVec 2) (p : BitVec 2) : Statement (.cpId3 d p) := by
  refine ⟨rfl, ?_⟩
  revert d p
  decide

theorem cpId4 (d : BitVec 2) (p : BitVec 2) : Statement (.cpId4 d p) := by
  refine ⟨rfl, ?_⟩
  revert d p
  decide

theorem cp1p0 (d : BitVec 2) (p : BitVec 2) : Statement (.cp1p0 d p) := by
  refine ⟨rfl, ?_⟩
  revert d p
  decide

theorem cp2p0 (d : BitVec 2) (p : BitVec 2) : Statement (.cp2p0 d p) := by
  refine ⟨rfl, ?_⟩
  revert d p
  decide

theorem cp12p0 (d : BitVec 2) (p : BitVec 2) : Statement (.cp12p0 d p) := by
  refine ⟨rfl, ?_⟩
  revert d p
  decide

theorem cpId8 (d : BitVec 2) (p : BitVec 2) : Statement (.cpId8 d p) := by
  refine ⟨rfl, ?_⟩
  revert d p
  decide

theorem cp0p1 (d : BitVec 2) (p : BitVec 2) : Statement (.cp0p1 d p) := by
  refine ⟨rfl, ?_⟩
  revert d p
  decide

theorem cp2p1 (d : BitVec 2) (p : BitVec 2) : Statement (.cp2p1 d p) := by
  refine ⟨rfl, ?_⟩
  revert d p
  decide

theorem cp02p1 (d : BitVec 2) (p : BitVec 2) : Statement (.cp02p1 d p) := by
  refine ⟨rfl, ?_⟩
  revert d p
  decide

theorem cpId12 (d : BitVec 2) (p : BitVec 2) : Statement (.cpId12 d p) := by
  refine ⟨rfl, ?_⟩
  revert d p
  decide

theorem cp0p2 (d : BitVec 2) (p : BitVec 2) : Statement (.cp0p2 d p) := by
  refine ⟨rfl, ?_⟩
  revert d p
  decide

theorem cp1p2 (d : BitVec 2) (p : BitVec 2) : Statement (.cp1p2 d p) := by
  refine ⟨rfl, ?_⟩
  revert d p
  decide

theorem cp01p2 (d : BitVec 2) (p : BitVec 2) : Statement (.cp01p2 d p) := by
  refine ⟨rfl, ?_⟩
  revert d p
  decide

theorem ps0 (d : BitVec 2) (c : BitVec 4) : Statement (.ps0 d c) := by
  refine ⟨rfl, ?_⟩
  revert d c
  decide

theorem ps1 (d : BitVec 2) (c : BitVec 4) : Statement (.ps1 d c) := by
  refine ⟨rfl, ?_⟩
  revert d c
  decide

theorem ps2 (d : BitVec 2) (c : BitVec 4) : Statement (.ps2 d c) := by
  refine ⟨rfl, ?_⟩
  revert d c
  decide

theorem ps3 (d : BitVec 2) (c : BitVec 4) : Statement (.ps3 d c) := by
  refine ⟨rfl, ?_⟩
  revert d c
  decide

theorem hdCapture (d1 : BitVec 1) (p : BitVec 2) (c : BitVec 4) : Statement (.hdCapture d1 p c) := by
  refine ⟨rfl, ?_⟩
  revert d1 p c
  decide

theorem hdAccum (d1 : BitVec 1) (p : BitVec 2) (c : BitVec 4) : Statement (.hdAccum d1 p c) := by
  refine ⟨rfl, ?_⟩
  revert d1 p c
  decide

theorem vdAdd (d : BitVec 2) (p : BitVec 2) (c : BitVec 4) : Statement (.vdAdd d p c) := by
  refine ⟨rfl, ?_⟩
  revert d p c
  decide

end Sys2Proof.Laws.EncodingMatchesTable
end

