-- ==== Sys2Proof/Machine/Source.lean ====
section
/-! DEFINITION. Command sequences as the spec writes them: the source line (30_encoding.md R92), the pseudo-commands and their
expansions (R93), the encoded word in three hexadecimal digits. Nothing the machine does rests on this file. -/

namespace Sys2Proof.Machine

/-- A command or one of the four pseudo-commands (R92, R93). -/
inductive SourceLine where
  | command (i : Instr)
  /-- INIT -/
  | init
  /-- ARR_FILL b0, b1, ... -/
  | arrFill (bytes : List Byte)
  /-- BLOCK code: b0, b1, ... -/
  | block (code : Byte) (bytes : List Byte)
  /-- VERBATIM: b0, b1, ... -/
  | verbatim (bytes : List Byte)
  deriving DecidableEq, Repr

/-- One block: its bytes, its transform, its emission (R93). -/
def blockCommands (code : Byte) (bytes : List Byte) : List Instr := bytes.map .arrWrite ++ [.blkXform code, .blkEmit]

/-- The fixed expansion of a line (R93). -/
def SourceLine.expand : SourceLine → List Instr
  | .command i => [i]
  | .init => [.ctxLoad, .permBuild, .esbClear]
  | .arrFill bytes => bytes.map .arrWrite
  | .block code bytes => blockCommands code bytes
  | .verbatim bytes => blockCommands 0 bytes

/-- The value of a digit, of base up to 16. -/
def digitValue (c : Char) : Option Nat :=
  if '0' ≤ c ∧ c ≤ '9' then some (c.toNat - 48)
  else if 'A' ≤ c ∧ c ≤ 'F' then some (c.toNat - 55)
  else if 'a' ≤ c ∧ c ≤ 'f' then some (c.toNat - 87)
  else none

/-- One digit more, most significant first. -/
def addDigit (base : Nat) (v : Option Nat) (c : Char) : Option Nat :=
  match v, digitValue c with
  | some n, some d => if d < base then some (n * base + d) else none
  | _, _ => none

/-- A numeral of at least one digit. -/
def parseNumeral (base : Nat) : List Char → Option Nat
  | [] => none
  | cs => cs.foldl (addDigit base) (some 0)

/-- A number below `n`. -/
def below (n : Nat) : Option Nat → Option Nat
  | some v => if v < n then some v else none
  | none => none

/-- A number that fits a byte. -/
def asByte (v : Option Nat) : Option Byte := (below 256 v).map (BitVec.ofNat 8)

/-- A byte, decimal or `0x..` (R92). -/
def parseByte : List Char → Option Byte
  | '0' :: 'x' :: ds => asByte (parseNumeral 16 ds)
  | ds => asByte (parseNumeral 10 ds)

/-- One field of a code written field-wise, `d=`, `p=` or `c=` (R92). -/
def parseField (name : Char) (limit : Nat) : List Char → Option Nat
  | c :: '=' :: ds => if c = name then below limit (parseNumeral 10 ds) else none
  | _ => none

/-- A code, as eight binary digits, as `0x..`, or field-wise (R92). -/
def parseCode : List Char → Option Byte
  | '0' :: 'b' :: ds => if ds.length = 8 then asByte (parseNumeral 2 ds) else none
  | '0' :: 'x' :: ds => asByte (parseNumeral 16 ds)
  | cs =>
    match cs.splitOn ',' with
    | [d, p, c] =>
      match parseField 'd' 4 d, parseField 'p' 4 p, parseField 'c' 16 c with
      | some d, some p, some c => some (codeOf (BitVec.ofNat 2 d) (BitVec.ofNat 2 p) (BitVec.ofNat 4 c))
      | _, _, _ => none
    | _ => none

/-- Every element read, or nothing. -/
def parseAll : List (List Char) → Option (List Byte)
  | [] => some []
  | cs :: rest =>
    match parseByte cs, parseAll rest with
    | some b, some bs => some (b :: bs)
    | _, _ => none

/-- Bytes separated by commas. -/
def parseBytes (cs : List Char) : Option (List Byte) := parseAll ((cs.filter (· ≠ ' ')).splitOn ',')

/-- The words of a text, separated by spaces. -/
def wordsOf (cs : List Char) : List (List Char) := (cs.splitOn ' ').filter (· ≠ [])

/-- A line without a colon: the six commands, INIT, ARR_FILL (R92, R93). -/
def parsePlainLine (cs : List Char) : Option SourceLine :=
  match wordsOf cs with
  | [m] =>
    if m = "CTX_LOAD".toList then some (.command .ctxLoad)
    else if m = "PERM_BUILD".toList then some (.command .permBuild)
    else if m = "ESB_CLEAR".toList then some (.command .esbClear)
    else if m = "BLK_EMIT".toList then some (.command .blkEmit)
    else if m = "INIT".toList then some .init
    else none
  | m :: a :: rest =>
    if m = "ARR_FILL".toList then (parseBytes (a :: rest).flatten).map .arrFill
    else if rest ≠ [] then none
    else if m = "ARR_WRITE".toList then (parseByte a).map fun b => .command (.arrWrite b)
    else if m = "BLK_XFORM".toList then (parseCode a).map fun c => .command (.blkXform c)
    else none
  | [] => none

/-- A line with a colon: BLOCK and VERBATIM (R93). -/
def parseBlockLine (left right : List Char) : Option SourceLine :=
  match wordsOf left with
  | [m] => if m = "VERBATIM".toList then (parseBytes right).map .verbatim else none
  | [m, c] =>
    if m = "BLOCK".toList then
      match parseCode c, parseBytes right with
      | some code, some bytes => some (.block code bytes)
      | _, _ => none
    else none
  | _ => none

/-- One line of source: a comment runs from `;` to the end of the line; an empty line is no command. `none` where the text is no
line the spec writes (R92). -/
def parseLine (cs : List Char) : Option (List SourceLine) :=
  let text := cs.takeWhile (· ≠ ';')
  if wordsOf text = [] then some []
  else
    match text.splitOn ':' with
    | [t] => (parsePlainLine t).map fun l => [l]
    | [l, r] => (parseBlockLine l r).map fun l => [l]
    | _ => none

/-- The commands of several lines, in order. -/
def assembleLines : List (List Char) → Option (List Instr)
  | [] => some []
  | cs :: rest =>
    match parseLine cs, assembleLines rest with
    | some ls, some is => some (ls.flatMap SourceLine.expand ++ is)
    | _, _ => none

/-- The commands of a source text, one command per line (R92). -/
def assemble (text : String) : Option (List Instr) := assembleLines (text.toList.splitOn '\n')

/-- A hexadecimal digit. -/
def hexDigit (v : Nat) : Char := if v < 10 then Char.ofNat (48 + v) else Char.ofNat (55 + v)

/-- A command word in three hexadecimal digits (R92). -/
def hexWord (w : BitVec 12) : String :=
  String.ofList [hexDigit (w.toNat / 256), hexDigit (w.toNat / 16 % 16), hexDigit (w.toNat % 16)]

end Sys2Proof.Machine
end

