-- ==== Sys2Proof/Tests/Slice0.lean ====
section
/-! SUPPORT. Tests of single steps, with the vectors of 95_test_vectors.md (cited as `EX` or by section), the ill-formed terms, and a
witness for the hypotheses of every statement that has some. -/

namespace Sys2Proof.Tests

open Sys2Proof.Machine

/-! ## Small states -/

/-- A buffer holding a list of values from address `a` on. -/
def cellsFrom {α : Type} (a : Nat) : List α → List (Nat × α)
  | [] => []
  | v :: vs => (a, v) :: cellsFrom (a + 1) vs

/-- The values of a buffer in ascending address order. -/
def values {α : Type} (m : List (Nat × α)) : List α := m.map Prod.snd

/-- A field of the next state, if there is one. -/
def after {α : Type} (f : State → α) : Outcome State → Option α
  | .next t => some (f t)
  | .fault _ => none
  | .refused _ => none

/-- STATUS, ERR, ERR_INFO as numbers. -/
def report (s : State) : Nat × Nat × Nat := (s.status.word.toNat, s.err.toNat, s.errInfo.toNat)

/-- A context of `ch` channels, exponent `deg`, `w` by `h` pixels. -/
def geo (ch deg w h : Nat) : Context :=
  withGeometry ch { Context.reset with fmtFamily := if ch = 1 then 1 else 0, width := w, height := h, degree := deg }

/-- A valid context, nothing else done. -/
def loaded (ch deg w h : Nat) : State :=
  { State.reset with ctx := geo ch deg w h, status := { Status.reset with ctxValid := true } }

/-- A block of bytes in BOUT, one block per image. -/
def blockOf (ch deg : Nat) (bytes : List Byte) : State :=
  { loaded ch deg (2 ^ deg) (2 ^ deg) with bout := cellsFrom 0 bytes }

/-- Ready for BLK_XFORM: PERM built, edge state clear, the arrange buffer full. -/
def ready (ch deg w h : Nat) (bytes : List Byte) : State :=
  { loaded ch deg w h with
    perm := buildPerm (geo ch deg w h) []
    arr := cellsFrom 0 bytes
    arrp := bytes.length
    pcol := clearBytes ((geo ch deg w h).heightBlocks * (geo ch deg w h).blockStride) []
    prow := clearBytes ((geo ch deg w h).widthBlocks * (geo ch deg w h).blockStride) []
    status := ⟨true, true, true, true, false, false, false⟩ }

/-- A block transformed and not yet emitted. -/
def transformed (ch deg w h : Nat) (bytes : List Byte) : State :=
  { ready ch deg w h [] with bout := cellsFrom 0 bytes, status := ⟨true, true, true, false, true, false, false⟩ }

/-- A header on the port and four scripted front-end answers. -/
def loading (h : Header) (v o e b : Nat) : State :=
  { State.reset with hdr := h, fe := { FrontEnd.reset with script := [some v, some o, some e, some b] } }

/-- The front-end after the four reads. -/
def readDone : FrontEnd := ⟨[], 4, 32, 0⟩

/-- The header of EX6. -/
def grayHeader : Header := ⟨1, 0, 8, 3, 2, 1⟩

/-- The block of section 2.7, of section 2.4 and of section 2.6. -/
def ramp : List Byte := [10, 1, 2, 3]
def planes : List Byte := [1, 2, 3, 4, 10, 20, 30, 40, 100, 200, 250, 255]

/-! ## Ill-formed terms (30_encoding.md R83, R91) -/

theorem test_wf_refuses_cpId0 : (Instr.cpId0 0 0).wf = false ∧ (Instr.cpId0 0 1).wf = true := by decide
theorem test_wf_refuses_ps0 : (Instr.ps0 0 0).wf = false ∧ (Instr.ps0 0 1).wf = true := by decide
theorem test_wf_refuses_hdCapture : (Instr.hdCapture 0 0 0).wf = false ∧ (Instr.hdCapture 1 0 0).wf = true := by decide
theorem test_wf_refuses_vdAdd : (Instr.vdAdd 0 0 0).wf = false ∧ (Instr.vdAdd 1 0 0).wf = true := by decide

/-! ## Decoding (section 2.1): one word per constructor, written from the encoding of its row -/

theorem test_decode_ctxLoad : decode (.command 0b000100000000) = .ok (.ctxLoad) := by decide
theorem test_decode_permBuild : decode (.command 0b001000000000) = .ok (.permBuild) := by decide
theorem test_decode_esbClear : decode (.command 0b001100000000) = .ok (.esbClear) := by decide
theorem test_decode_arrWrite : decode (.command 0b010011111111) = .ok (.arrWrite 255) := by decide
theorem test_decode_blkXform : decode (.command 0b010111100101) = .ok (.blkXform 0xE5) := by decide
theorem test_decode_blkEmit : decode (.command 0b011000000000) = .ok (.blkEmit) := by decide
theorem test_decode_xfVerbatim : decode (.row .psel 0b00000000) = .ok .xfVerbatim := by decide
theorem test_decode_cpId0 : decode (.row .cpl 0b01100000) = .ok (.cpId0 1 2) := by decide
theorem test_decode_cpId1 : decode (.row .cpl 0b00110001) = .ok (.cpId1 0 3) := by decide
theorem test_decode_cpId2 : decode (.row .cpl 0b11000010) = .ok (.cpId2 3 0) := by decide
theorem test_decode_cpId3 : decode (.row .cpl 0b10010011) = .ok (.cpId3 2 1) := by decide
theorem test_decode_cpId4 : decode (.row .cpl 0b01100100) = .ok (.cpId4 1 2) := by decide
theorem test_decode_cp1p0 : decode (.row .cpl 0b00110101) = .ok (.cp1p0 0 3) := by decide
theorem test_decode_cp2p0 : decode (.row .cpl 0b11000110) = .ok (.cp2p0 3 0) := by decide
theorem test_decode_cp12p0 : decode (.row .cpl 0b10010111) = .ok (.cp12p0 2 1) := by decide
theorem test_decode_cpId8 : decode (.row .cpl 0b01101000) = .ok (.cpId8 1 2) := by decide
theorem test_decode_cp0p1 : decode (.row .cpl 0b00111001) = .ok (.cp0p1 0 3) := by decide
theorem test_decode_cp2p1 : decode (.row .cpl 0b11001010) = .ok (.cp2p1 3 0) := by decide
theorem test_decode_cp02p1 : decode (.row .cpl 0b10011011) = .ok (.cp02p1 2 1) := by decide
theorem test_decode_cpId12 : decode (.row .cpl 0b01101100) = .ok (.cpId12 1 2) := by decide
theorem test_decode_cp0p2 : decode (.row .cpl 0b00111101) = .ok (.cp0p2 0 3) := by decide
theorem test_decode_cp1p2 : decode (.row .cpl 0b11001110) = .ok (.cp1p2 3 0) := by decide
theorem test_decode_cp01p2 : decode (.row .cpl 0b10011111) = .ok (.cp01p2 2 1) := by decide
theorem test_decode_ps0 : decode (.row .psel 0b01000011) = .ok (.ps0 1 3) := by decide
theorem test_decode_ps1 : decode (.row .psel 0b10011000) = .ok (.ps1 2 8) := by decide
theorem test_decode_ps2 : decode (.row .psel 0b11101101) = .ok (.ps2 3 13) := by decide
theorem test_decode_ps3 : decode (.row .psel 0b00110010) = .ok (.ps3 0 2) := by decide
theorem test_decode_hdCapture : decode (.row .hdp 0b10010111) = .ok (.hdCapture 1 1 7) := by decide
theorem test_decode_hdAccum : decode (.row .hdp 0b01111011) = .ok (.hdAccum 0 3 11) := by decide
theorem test_decode_vdAdd : decode (.row .vdp 0b11001010) = .ok (.vdAdd 3 0 10) := by decide

/-- Reserved opcodes and nonzero operands (section 2.1): the fault's detail, from a state without a fault. -/
theorem test_illegal_words :
    [0x000, 0x7AB, 0xF00, 0x101, 0x2FF, 0x310, 0x601].map (fun w =>
      after report (step { State.reset with port := [.command (BitVec.ofNat 12 w)] })) =
    [some (0x40, 7, 0x00), some (0x40, 7, 0x07), some (0x40, 7, 0x0F), some (0x40, 7, 0x81), some (0x40, 7, 0x82),
      some (0x40, 7, 0x83), some (0x40, 7, 0x86)] := by decide

/-! ## CTX_LOAD (section 2.2) -/

/-- The derived registers from `C` to `HB`, and STATUS. -/
def derived (s : State) : List Nat :=
  [s.ctx.channels, s.ctx.blockSize, s.ctx.blockArea, s.ctx.blockSamples, s.ctx.blockStride, s.ctx.widthBlocks,
    s.ctx.heightBlocks, s.status.word.toNat]

theorem test_ctxLoad_succeeds :
    after derived (exec .ctxLoad (loading ⟨0, 1, 32, 640, 480, 3⟩ 16 0 0 8)) = some [4, 8, 64, 256, 32, 80, 60, 0x01] ∧
    after derived (exec .ctxLoad (loading ⟨0, 0, 24, 0, 5, 3⟩ 1 0 1 0)) = some [3, 8, 64, 192, 24, 0, 1, 0x21] ∧
    after derived (exec .ctxLoad (loading ⟨0, 1, 8, 4, 4, 1⟩ 8 0 1 8)) = some [1, 2, 4, 4, 2, 2, 2, 0x01] := by decide

theorem test_ctxLoad_fails :
    after report (exec .ctxLoad (loading ⟨3, 1, 8, 4, 4, 0⟩ 99 7 255 3)) = some (0x40, 1, 1) ∧
    after report (exec .ctxLoad (loading grayHeader 99 1 0 8)) = some (0x40, 1, 2) ∧
    after report (exec .ctxLoad (loading grayHeader 16 0 1 8)) = some (0x40, 2, 8) ∧
    after report (exec .ctxLoad (loading ⟨1, 0, 8, 3, 2, 0⟩ 99 0 0 8)) = some (0x40, 3, 99) ∧
    after report (exec .ctxLoad (loading ⟨1, 0, 8, 3, 2, 0⟩ 8 0 0 8)) = some (0x40, 1, 3) ∧
    after report (exec .ctxLoad { loading ⟨1, 0, 8, 3, 2, 5⟩ 8 0 0 8 with cfg := { Params.default with degMax := some 4 } }) =
      some (0x40, 8, 1) ∧
    after report (exec .ctxLoad { loading ⟨0, 0, 24, 17, 9, 2⟩ 8 0 0 8 with cfg := { Params.default with wbMax := some 4 } }) =
      some (0x40, 8, 2) := by decide

/-! ## The other commands (sections 2.3, 2.7, 2.8, 2.10) -/

theorem test_permBuild_table :
    after (fun t => values t.perm) (exec .permBuild (loaded 3 1 2 2)) =
      some [0, 1, 2, 3, 4, 5, 6, 7, 8, 9, 10, 11, 0, 2, 1, 3, 4, 6, 5, 7, 8, 10, 9, 11, 0, 4, 8, 1, 5, 9, 2, 6, 10, 3, 7, 11,
        0, 4, 8, 2, 6, 10, 1, 5, 9, 3, 7, 11] := by decide

theorem test_permBuild_status :
    after report (exec .permBuild (loaded 1 1 3 2)) = some (0x03, 0, 0) ∧
    after report (exec .permBuild State.reset) = some (0x40, 6, 2) := by decide

theorem test_esbClear :
    after (fun t => (values t.pcol, values t.prow, t.status.word)) (exec .esbClear (loaded 1 1 3 2)) =
      some ([0, 0], [0, 0, 0, 0], 0x05) ∧
    after report (exec .esbClear (ready 1 1 3 2 ramp)) = some (0x4F, 6, 3) := by decide

theorem test_arrWrite :
    after (fun t => (values t.arr, t.arrp, t.status.word)) (exec (.arrWrite 3) { loaded 1 1 3 2 with arr := cellsFrom 0 [10, 1, 2], arrp := 3 }) =
      some (ramp, 4, 0x09) ∧
    after report (exec (.arrWrite 0) (ready 1 1 3 2 ramp)) = some (0x4F, 6, 4) := by decide

/-- BOUT, PCOL, PROW, ARRP and STATUS. -/
def blockState (s : State) : List (List Byte) × Nat × Nat :=
  ([values s.bout, values s.pcol, values s.prow], s.arrp, s.status.word.toNat)

theorem test_blkXform :
    after blockState (exec (.blkXform 0xC0) (ready 1 1 2 2 ramp)) = some ([[10, 11, 12, 16], [11, 5], [12, 16]], 0, 0x17) ∧
    after blockState (exec (.blkXform 0x80) (ready 1 1 2 2 ramp)) = some ([[10, 1, 12, 4], [1, 3], [12, 4]], 0, 0x17) ∧
    after blockState (exec (.blkXform 0x30) (ready 1 1 2 2 ramp)) = some ([[10, 2, 11, 5], [2, 3], [11, 5]], 0, 0x17) ∧
    after blockState (exec (.blkXform 0x00) (ready 1 1 2 2 ramp)) = some ([ramp, [0, 0], [0, 0]], 0, 0x17) := by decide

theorem test_blkXform_faults :
    after report (exec (.blkXform 0xC5) (ready 1 1 2 2 ramp)) = some (0x4F, 5, 0xC5) ∧
    after report (exec (.blkXform 0xC0) (transformed 1 1 2 2 ramp)) = some (0x57, 6, 5) := by decide

theorem test_blkEmit_addresses :
    after (fun t => (t.canvas.map Prod.fst, t.blkX, t.blkY, t.status.word))
        (exec .blkEmit { transformed 3 1 3 3 planes with blkX := 1, blkY := 1 }) =
      some ([30, 31, 32, 33, 34, 35, 42, 43, 44, 45, 46, 47], 0, 2, 0x27) ∧
    after (fun t => (t.canvas, t.blkX, t.blkY, t.status.word)) (exec .blkEmit { transformed 1 1 3 2 [15, 9, 25, 25] with blkX := 0 }) =
      some ([(0, 15), (1, 9), (4, 25), (5, 25)], 1, 0, 0x07) := by decide

theorem test_blkEmit_faults : after report (exec .blkEmit (ready 1 1 3 2 ramp)) = some (0x4F, 6, 6) := by decide

/-! ## The rows of a transformer code (sections 2.3 to 2.6) -/

theorem test_cpId0 : after (fun t => values t.bout) (exec (.cpId0 0 0) (blockOf 3 1 planes)) =
    some [1, 2, 3, 4, 10, 20, 30, 40, 100, 200, 250, 255] := by decide

theorem test_cpId1 : after (fun t => values t.bout) (exec (.cpId1 0 0) (blockOf 3 1 planes)) =
    some [1, 2, 3, 4, 10, 20, 30, 40, 100, 200, 250, 255] := by decide

theorem test_cpId2 : after (fun t => values t.bout) (exec (.cpId2 0 0) (blockOf 3 1 planes)) =
    some [1, 2, 3, 4, 10, 20, 30, 40, 100, 200, 250, 255] := by decide

theorem test_cpId3 : after (fun t => values t.bout) (exec (.cpId3 0 0) (blockOf 3 1 planes)) =
    some [1, 2, 3, 4, 10, 20, 30, 40, 100, 200, 250, 255] := by decide

theorem test_cpId4 : after (fun t => values t.bout) (exec (.cpId4 0 0) (blockOf 3 1 planes)) =
    some [1, 2, 3, 4, 10, 20, 30, 40, 100, 200, 250, 255] := by decide

theorem test_cp1p0 : after (fun t => values t.bout) (exec (.cp1p0 0 0) (blockOf 3 1 planes)) =
    some [1, 2, 3, 4, 11, 22, 33, 44, 100, 200, 250, 255] := by decide

theorem test_cp2p0 : after (fun t => values t.bout) (exec (.cp2p0 0 0) (blockOf 3 1 planes)) =
    some [1, 2, 3, 4, 10, 20, 30, 40, 101, 202, 253, 3] := by decide

theorem test_cp12p0 : after (fun t => values t.bout) (exec (.cp12p0 0 0) (blockOf 3 1 planes)) =
    some [1, 2, 3, 4, 11, 22, 33, 44, 101, 202, 253, 3] := by decide

theorem test_cpId8 : after (fun t => values t.bout) (exec (.cpId8 0 0) (blockOf 3 1 planes)) =
    some [1, 2, 3, 4, 10, 20, 30, 40, 100, 200, 250, 255] := by decide

theorem test_cp0p1 : after (fun t => values t.bout) (exec (.cp0p1 0 0) (blockOf 3 1 planes)) =
    some [11, 22, 33, 44, 10, 20, 30, 40, 100, 200, 250, 255] := by decide

theorem test_cp2p1 : after (fun t => values t.bout) (exec (.cp2p1 0 0) (blockOf 3 1 planes)) =
    some [1, 2, 3, 4, 10, 20, 30, 40, 110, 220, 24, 39] := by decide

theorem test_cp02p1 : after (fun t => values t.bout) (exec (.cp02p1 0 0) (blockOf 3 1 planes)) =
    some [11, 22, 33, 44, 10, 20, 30, 40, 110, 220, 24, 39] := by decide

theorem test_cpId12 : after (fun t => values t.bout) (exec (.cpId12 0 0) (blockOf 3 1 planes)) =
    some [1, 2, 3, 4, 10, 20, 30, 40, 100, 200, 250, 255] := by decide

theorem test_cp0p2 : after (fun t => values t.bout) (exec (.cp0p2 0 0) (blockOf 3 1 planes)) =
    some [101, 202, 253, 3, 10, 20, 30, 40, 100, 200, 250, 255] := by decide

theorem test_cp1p2 : after (fun t => values t.bout) (exec (.cp1p2 0 0) (blockOf 3 1 planes)) =
    some [1, 2, 3, 4, 110, 220, 24, 39, 100, 200, 250, 255] := by decide

theorem test_cp01p2 : after (fun t => values t.bout) (exec (.cp01p2 0 0) (blockOf 3 1 planes)) =
    some [101, 202, 253, 3, 110, 220, 24, 39, 100, 200, 250, 255] := by decide

/-- The arrange bytes of blocks (0,0), (1,0), (0,1), (1,1) of program P2, each through the segment the program uses. -/
theorem test_xfVerbatim_and_ps0 :
    after (fun t => (values t.bout, values t.pcol)) (exec .xfVerbatim (ready 3 1 2 2 [11, 12, 13, 14, 21, 22, 23, 24, 31, 32, 33, 34])) =
      some ([11, 12, 13, 14, 21, 22, 23, 24, 31, 32, 33, 34], [0, 0, 0, 0, 0, 0]) ∧
    after (fun t => values t.bout) (exec (.ps0 2 0) (ready 3 1 2 2 [11, 12, 13, 14, 21, 22, 23, 24, 31, 32, 33, 34])) =
      some [11, 12, 13, 14, 21, 22, 23, 24, 31, 32, 33, 34] := by decide

theorem test_ps1 : after (fun t => values t.bout)
    (exec (.ps1 2 7) (ready 3 1 2 2 [200, 100, 50, 25, 1, 2, 3, 4, 90, 80, 70, 60])) =
    some [200, 50, 100, 25, 1, 3, 2, 4, 90, 70, 80, 60] := by decide

theorem test_ps2 : after (fun t => values t.bout)
    (exec (.ps2 3 5) (ready 3 1 2 2 [1, 2, 3, 4, 5, 6, 7, 8, 9, 10, 11, 12])) =
    some [1, 4, 7, 10, 2, 5, 8, 11, 3, 6, 9, 12] := by decide

theorem test_ps3 : after (fun t => values t.bout)
    (exec (.ps3 1 11) (ready 3 1 2 2 [5, 250, 7, 1, 2, 3, 4, 5, 6, 255, 0, 9])) =
    some [5, 4, 1, 255, 250, 5, 2, 0, 7, 6, 3, 9] := by decide

/-- Section 2.5, the first two rows of its table, as logical rows 0 and 1 of one block. -/
theorem test_hdAccum : after (fun t => (values t.bout, values t.pcol))
    (exec (.hdAccum 0 0 0) { blockOf 1 2 [1, 1, 1, 1, 10, 0, 255, 1, 0, 0, 0, 0, 1, 0, 0, 0] with pcol := cellsFrom 0 [5, 250, 0, 255] }) =
    some ([6, 7, 8, 9, 4, 4, 3, 4, 0, 0, 0, 0, 0, 0, 0, 0], [9, 4, 0, 0]) := by decide

theorem test_hdCapture : after (fun t => (values t.bout, values t.pcol))
    (exec (.hdCapture 1 0 0) (blockOf 1 1 [7, 8, 9, 200])) = some ([7, 8, 9, 200], [8, 200]) := by decide

/-- Section 2.6, both readings of the vertical pass. -/
theorem test_vdAdd :
    after (fun t => (values t.bout, values t.prow))
      (exec (.vdAdd 3 0 0) { blockOf 1 1 [10, 11, 2, 5] with prow := cellsFrom 0 [7, 9] }) = some ([17, 20, 19, 25], [19, 25]) ∧
    after (fun t => (values t.bout, values t.prow))
      (exec (.vdAdd 3 0 0) { blockOf 1 1 [10, 11, 2, 5] with prow := cellsFrom 0 [7, 9], cfg := { Params.default with vpredChained := false } }) =
      some ([17, 20, 9, 14], [9, 14]) := by decide

theorem test_row_illegal : after report (exec (.cp1p0 3 0) (ready 1 1 2 2 ramp)) = some (0x4F, 5, 0xC5) := by decide

/-! ## The host (section 2.9) -/

/-- The host in a phase, with scripted answers. -/
def hosting (p : Phase) (arch : Arch) (answers : List (Option Nat)) (s : State) : State :=
  { s with fe := { FrontEnd.reset with script := answers }, seq := { Sequencer.reset with phase := p, arch := arch } }

/-- The code the host holds, the resets it has asked for, and the failure it reports. -/
def hostState (s : State) : List Nat :=
  [s.seq.code.toNat, s.fe.resets] ++
    match s.seq.failure with
    | none => []
    | some f => [f.number.toNat, f.info.toNat]

theorem test_host_supply :
    after hostState (step (hosting .block .gamma [] (loaded 1 1 3 2))) = some [0xC0, 1] ∧
    after hostState (step (hosting .block .gamma [some 5] (loaded 3 1 3 3))) = some [0xC5, 1] ∧
    after hostState (step (hosting .block .huffman [some 0x7B] (loaded 3 1 3 3))) = some [0x7B, 0] := by decide

theorem test_host_sync :
    after hostState (step (hosting .sync .other [some 1] (loaded 1 1 3 2))) = some [0, 0, 1, 4] ∧
    after hostState (step (hosting .sync .other [some 0] (loaded 1 1 3 2))) = some [0, 0, 4, 0] ∧
    after hostState (step (hosting .sync .huffman [some 0] (loaded 1 1 3 2))) = some [0, 1] ∧
    after hostState (step (hosting .sync .gamma [some 0] (loaded 1 1 3 2))) = some [0, 0] := by decide

theorem test_host_crop :
    cropped { loaded 1 1 3 2 with canvas := cellsFrom 0 [10, 11, 15, 9, 12, 16, 25, 25] } = [10, 11, 15, 12, 16, 25] := by decide

/-! ## The fetch -/

theorem test_fetch_command : after (fun t => t.arrp) (step ((loaded 1 1 3 2).withFetchWord 16 0x40A)) = some 1 := by decide

theorem test_fetch_row : after (fun t => values t.bout) (step ((blockOf 3 1 planes).withFetchWord 8 0x05)) =
    some [1, 2, 3, 4, 11, 22, 33, 44, 100, 200, 250, 255] := by decide

/-! ## Witnesses: states and operands that meet the hypotheses of the statements -/

theorem test_witness_EncodeThenDecode : (Instr.vdAdd 3 2 5).wf = true ∧ (Instr.hdCapture 0 0 1).wf = true := by decide

theorem test_witness_DecodedWordEncodesBack : decode (.command 0x40A) = .ok (.arrWrite 10) ∧ (0x80 : Byte) ≠ 0 := by decide

theorem test_witness_ResetPinFromAnyState : { State.reset with rst := true, stuck := true }.rst = true := by decide

theorem test_witness_StepRunsDecodedInstruction :
    { State.reset with port := [.command 0x100] }.port = .command 0x100 :: [] ∧ State.reset.rst = false ∧
      State.reset.stuck = false ∧ decode (.command 0x100) = .ok .ctxLoad := by decide

theorem test_witness_ReservedWordsTakeIllegalCommand :
    State.reset.status.fault = false ∧ opcodeOf 0x000 = 0 ∧ 7 ≤ (opcodeOf 0x7AB).toNat ∧ 7 ≤ (opcodeOf 0xF00).toNat ∧
      opcodeOf 0x101 ∈ ([1, 2, 3, 6] : List (BitVec 4)) ∧ operandOf 0x101 ≠ 0 ∧
      opcodeOf 0x601 ∈ ([1, 2, 3, 6] : List (BitVec 4)) ∧ operandOf 0x601 ≠ 0 := by decide

/-- A state in a fault. -/
def inFault : State := faulted State.reset 6 2

theorem test_witness_FaultedStateIgnoresAllButLoad :
    inFault.status.fault = true ∧ Instr.blkEmit ≠ .ctxLoad ∧ inFault.rst = false ∧ inFault.stuck = false ∧
      { inFault with port := [.command 0x101] }.port = [.command 0x101] ∧
      decode (.command 0x101) = .error (.nonzeroOperand 1) := by decide

/-- A bulk context of four blocks of three channels (R202), the host at a block with this prefetch buffer. -/
def bulkLoaded (codes : List Byte) : State :=
  { loaded 3 1 3 3 with
    ctx := { geo 3 1 3 3 with encodeType := 1 }
    seq := { Sequencer.reset with phase := .block, codes := codes } }

theorem test_witness_StepStopsOnlyWhenStuck :
    step { State.reset with stuck := true } = .fault .stuckInCtxLoad ∧
      step (hosting .cleared .gamma [some 5, none] (bulkLoaded [])) = .fault .hostBlocked ∧
      step (hosting .sync .gamma [none] (loaded 1 1 3 2)) = .fault .hostBlocked ∧
      step (hosting .block .huffman [none] (loaded 3 1 3 3)) = .fault .hostBlocked ∧
      step (bulkLoaded []) = .fault .hostBlocked ∧
      step (hosting .decode .gamma [some 1, none] (loaded 1 1 3 2)) = .fault .hostBlocked := ⟨rfl, rfl, rfl, rfl, rfl, rfl⟩

theorem test_witness_SequenceFaultWhenNotReady :
    readFields (loading grayHeader 99 0 0 8).fe = (some ⟨99, 0, 0, 8⟩, readDone) ∧
    State.reset.status.fault = false ∧ State.reset.status.ctxValid = false ∧ (ready 1 1 3 2 ramp).status.esbValid = true ∧
      (ready 1 1 3 2 ramp).status.arrFull = true ∧ (transformed 1 1 3 2 ramp).status.boutValid = true ∧
      State.reset.status.permValid = false ∧ State.reset.status.arrFull = false ∧ State.reset.status.boutValid = false ∧
      (ready 1 1 3 2 ramp).status.fault = false ∧ (transformed 1 1 3 2 ramp).status.fault = false := by decide

theorem test_witness_ready : (ready 1 1 3 2 ramp).ReadyToTransform ∧ (ready 3 1 2 2 planes).ReadyToTransform :=
  ⟨⟨rfl, rfl, rfl, rfl, rfl, rfl, rfl⟩, ⟨rfl, rfl, rfl, rfl, rfl, rfl, rfl⟩⟩

theorem test_witness_legal_color : LegalColor 1 12 ∧ LegalColor 3 15 ∧ ¬ LegalColor 1 5 ∧ ¬ LegalColor 2 15 := by
  unfold LegalColor
  decide

theorem test_witness_AbsentPlaneTakesIllegalCode :
    (ready 1 1 3 2 ramp).status.fault = false ∧ (ready 1 1 3 2 ramp).ctx.channels = 1 ∧ colorOp 0xC5 = 5 := by decide

theorem test_witness_FourFieldsReadInOrder :
    (loading grayHeader 8 0 0 8).fe.script =
        some (8 : Byte).toNat :: some (0 : Byte).toNat :: some (0 : Byte).toNat :: some (8 : Byte).toNat :: [] ∧
      State.reset.fe.script = [] := by decide

theorem test_witness_ChannelCountRule :
    (let c := { Context.reset with depth := 8 }; c.fmtFamily = 0 ∧ c.depth ≤ 8) ∧
    (let c := { Context.reset with depth := 9, fmtAlpha := 1 }; c.fmtFamily = 0 ∧ 8 < c.depth ∧ c.fmtAlpha = 1) ∧
    (let c := { Context.reset with depth := 9 }; c.fmtFamily = 0 ∧ 8 < c.depth ∧ c.fmtAlpha = 0) ∧
    { Context.reset with fmtFamily := 1 }.fmtFamily = 1 ∧ { Context.reset with fmtFamily := 2 }.fmtFamily = 2 ∧
    { Context.reset with fmtFamily := 3 }.fmtFamily = 3 := by decide

theorem test_witness_CtxLoadCommits :
    (let s := loading grayHeader 8 0 0 8
     let q : StreamFields := ⟨8, 0, 0, 8⟩
     readFields s.fe = (some q, readDone) ∧ grayHeader = sampleHeader s.cfg s.hdr ∧
      channelCount (latchedContext s q) = some 1 ∧ q.opTable = 0 ∧ (q.version, q.bitCount, q.encodeType) ∈ legalTriples ∧
      grayHeader.degree ≠ 0 ∧ 2 = 2 ^ grayHeader.degree ∧ 2 = (grayHeader.width + 2 - 1) / 2 ∧
      1 = (grayHeader.height + 2 - 1) / 2 ∧ within s.cfg.degMax grayHeader.degree = true ∧
      within s.cfg.wbMax 2 = true ∧ within s.cfg.hbMax 1 = true) := by decide

/-- The stream fields of a list of four bytes are read, and the header is the one on the port. -/
def reads (s : State) (q : StreamFields) : Prop := readFields s.fe = (some q, readDone) ∧ s.hdr = sampleHeader s.cfg s.hdr

theorem test_witness_CtxLoadFailsInOrder_format :
    reads (loading ⟨2, 0, 24, 4, 4, 1⟩ 8 0 0 8) ⟨8, 0, 0, 8⟩ ∧
      channelCount (latchedContext (loading ⟨2, 0, 24, 4, 4, 1⟩ 8 0 0 8) ⟨8, 0, 0, 8⟩) = none ∧
      channelCount (latchedContext (loading grayHeader 8 1 0 8) ⟨8, 1, 0, 8⟩) ≠ none ∧
      (1 : Byte) ≠ 0 ∧ (2 : Byte).extractLsb' 1 7 ≠ 0 := by
  unfold reads
  decide

theorem test_witness_CtxLoadFailsInOrder_version :
    reads (loading grayHeader 99 0 0 8) ⟨99, 0, 0, 8⟩ ∧ (99 : Byte) ∉ ([1, 8, 16] : List Byte) ∧
      (16 : Byte) ∈ ([1, 8, 16] : List Byte) ∧ ((16, 8, 1) : Byte × Byte × Byte) ∉ legalTriples ∧
      ((16, 8, 0) : Byte × Byte × Byte) ∈ legalTriples ∧ (1 : Byte).extractLsb' 1 7 = 0 := by
  unfold reads
  decide

theorem test_witness_CtxLoadFailsInOrder_capacity :
    (⟨1, 0, 8, 3, 2, 0⟩ : Header).degree = 0 ∧ within (some 4) 5 = false ∧ within (some 5) 5 = true ∧
      within (some 4) ((17 + 2 ^ 2 - 1) / 2 ^ 2) = false ∧ within (some 2) ((9 + 2 ^ 2 - 1) / 2 ^ 2) = false := by decide

theorem test_witness_ValidContextIsOneOfFive :
    readFields (loading grayHeader 8 0 0 8).fe = (some ⟨8, 0, 0, 8⟩, readDone) ∧
      after (fun t => t.status.ctxValid) (exec .ctxLoad (loading grayHeader 8 0 0 8)) = some true := by decide

theorem test_witness_CtxLoadFrame : ∃ t, exec .ctxLoad (loading grayHeader 8 0 0 8) = .next t := ⟨_, rfl⟩

theorem test_witness_UnansweredReadSticks :
    readFields ⟨[some 8, none], 0, 0, 0⟩ = (none, ⟨[], 2, 8, 0⟩) := by decide

theorem test_witness_geometry : (geo 1 1 3 2).Geometry ∧ (geo 3 1 3 3).Geometry ∧ (geo 4 1 1 1).Geometry :=
  ⟨⟨by decide, by decide, by decide, by decide, by decide, by decide, by decide, by decide⟩,
    ⟨by decide, by decide, by decide, by decide, by decide, by decide, by decide, by decide⟩,
    ⟨by decide, by decide, by decide, by decide, by decide, by decide, by decide, by decide⟩⟩

/-- For PERM_BUILD and the two statements about its segments; the clauses for one channel and for all elements. -/
theorem test_witness_PermBuild :
    (loaded 1 1 3 2).status.fault = false ∧ (loaded 1 1 3 2).status.ctxValid = true ∧ (loaded 1 1 3 2).ctx.channels = 1 ∧
      (loaded 3 1 3 3).ctx.blockArea = (loaded 3 1 3 3).ctx.blockSize * (loaded 3 1 3 3).ctx.blockSize ∧
      (loaded 3 1 3 3).ctx.blockSamples = (loaded 3 1 3 3).ctx.blockArea * (loaded 3 1 3 3).ctx.channels ∧
      0 < (loaded 1 1 3 2).ctx.blockSamples ∧ 2 < (loaded 3 1 3 3).ctx.channels ∧ 1 < (loaded 3 1 3 3).ctx.blockSize := by
  decide

theorem test_witness_EsbClearZeroesEdgeState :
    (loaded 1 1 3 2).status.fault = false ∧ (loaded 1 1 3 2).status.ctxValid = true ∧
      (loaded 1 1 3 2).status.esbValid = false := by decide

theorem test_witness_ArrWriteAppendsByte :
    (loaded 1 1 3 2).status.fault = false ∧ (loaded 1 1 3 2).status.ctxValid = true ∧
      (loaded 1 1 3 2).status.arrFull = false ∧ (loaded 1 1 3 2).status.boutValid = false ∧
      (loaded 1 1 3 2).status.done = false := by decide

/-- The segments of a ready state are bijections. -/
theorem ready_bijective (bytes : List Byte) (p : Nat) (hp : p < 4) : (ready 3 1 2 2 bytes).SegmentBijective p :=
  SegmentBijective_congr (permBuilt_bijective (loaded 3 1 2 2) rfl rfl p hp) rfl rfl

theorem test_witness_ScatterRowsFollowSegment (p : Nat) (hp : p < 4) :
    (ready 3 1 2 2 planes).SegmentBijective p ∧ (ready 3 1 2 2 planes).status.fault = false ∧
      0 < (ready 3 1 2 2 planes).ctx.blockSamples ∧ LegalColor (ready 3 1 2 2 planes).ctx.channels 5 :=
  ⟨ready_bijective planes p hp, rfl, by decide, .inl (by decide)⟩

theorem test_witness_ScatterRows_entries :
    [0, 12, 24, 36].map (fun a => Memory.read (ready 3 1 2 2 planes).perm (a + 11)) = [some 11, some 11, some 11, some 11] ∧
      ((.xfVerbatim, 0) : Instr × Nat) ∈ ([(.ps0 0 1, 0), (.ps1 0 1, 1), (.ps2 0 1, 2), (.ps3 0 1, 3), (.xfVerbatim, 0)] :
        List (Instr × Nat)) := by decide

/-- For the colour rows, in both clauses, at the last element of a plane. -/
theorem test_witness_ColorRows :
    (blockOf 3 1 planes).status.fault = false ∧ 3 ≤ (blockOf 3 1 planes).ctx.channels ∧
      3 < (blockOf 3 1 planes).ctx.blockArea ∧ (blockOf 1 1 ramp).status.fault = false ∧
      (blockOf 1 1 ramp).ctx.channels < 3 := by decide

theorem test_witness_FourthPlanePassesColorOps : (0xFF : Byte) ≠ 0 ∧ 3 * (geo 4 1 1 1).blockArea ≤ 12 := by decide

/-- For the horizontal and the vertical rows, at the last row and column; both readings of the vertical pass. -/
theorem test_witness_PredictorRows :
    (blockOf 3 1 planes).status.fault = false ∧ 5 < (blockOf 3 1 planes).ctx.blockStride ∧
      1 < (blockOf 3 1 planes).ctx.blockSize ∧ 2 < (blockOf 3 1 planes).ctx.channels ∧
      (blockOf 3 1 planes).cfg.vpredChained = true ∧ { Params.default with vpredChained := false }.vpredChained = false ∧
      (blockOf 3 1 planes).ctx.blockArea = (blockOf 3 1 planes).ctx.blockSize * (blockOf 3 1 planes).ctx.blockSize := by
  decide

theorem test_witness_Transform :
    (ready 3 1 2 2 planes).ReadyToTransform ∧ LegalColor (ready 3 1 2 2 planes).ctx.channels (colorOp 0xE5) ∧
      (ready 3 1 2 2 planes).ctx.Geometry ∧ ∀ p, p < 4 → (ready 3 1 2 2 planes).SegmentBijective p :=
  ⟨test_witness_ready.2, .inl (by decide),
    ⟨by decide, by decide, by decide, by decide, by decide, by decide, by decide, by decide⟩, ready_bijective planes⟩

theorem test_witness_DiffModeHighBitHasNoEffect : (0x40 : Byte) &&& 0x7F ≠ 0 ∧ colorOp 0x40 = 0 := by decide

theorem test_witness_GrayBlockIsDoubleRunningSum :
    (ready 1 1 3 2 ramp).ReadyToTransform ∧ (ready 1 1 3 2 ramp).ctx.Geometry ∧ (ready 1 1 3 2 ramp).ctx.channels = 1 ∧
      (ready 1 1 3 2 ramp).cfg.vpredChained = true ∧
      ∀ k, k < (ready 1 1 3 2 ramp).ctx.blockSamples → Memory.read (ready 1 1 3 2 ramp).perm k = some k :=
  ⟨test_witness_ready.1, test_witness_geometry.1, rfl, rfl, by decide⟩

theorem test_witness_EmitScattersBlockAndAdvances :
    (transformed 1 1 3 2 ramp).status.fault = false ∧ (transformed 1 1 3 2 ramp).status.boutValid = true ∧
      (transformed 1 1 3 2 ramp).blkX < (transformed 1 1 3 2 ramp).ctx.widthBlocks ∧
      { transformed 1 1 3 2 ramp with blkX := 1 }.blkX < (transformed 1 1 3 2 ramp).ctx.widthBlocks := by decide

/-- For the rules of the whole machine: an instruction other than CTX_LOAD, CTX_LOAD, and a step. -/
theorem test_witness_WholeMachine :
    (∃ t, exec (.blkXform 0xC0) (ready 1 1 3 2 ramp) = .next t) ∧
      readFields (loading grayHeader 8 0 0 8).fe = (some ⟨8, 0, 0, 8⟩, readDone) ∧
      (∃ t, exec .ctxLoad (loading grayHeader 8 0 0 8) = .next t) ∧
      ∃ t, step { ready 1 1 3 2 ramp with port := [.command 0x5C0] } = .next t :=
  ⟨⟨_, rfl⟩, by decide, ⟨_, rfl⟩, ⟨_, rfl⟩⟩

theorem test_witness_BufferWriters :
    Instr.ctxLoad ∈ ([.ctxLoad, .permBuild, .blkEmit] : List Instr) ∧ Instr.cp1p0 0 0 ≠ .permBuild ∧
      Instr.esbClear ∈ ([.ctxLoad, .permBuild, .esbClear, .blkEmit] : List Instr) := by decide

/-- A state with a full arrange buffer meets the invariants. -/
theorem test_witness_Inv : (ready 3 1 2 2 planes).Inv where
  faultHasNumber := by decide
  noFaultNoNumber := by decide
  permNeedsContext := by decide
  esbNeedsContext := by decide
  arrNeedsContext := by decide
  boutNeedsContext := by decide
  doneNeedsContext := by decide
  geometry := fun _ => test_witness_Transform.2.2.1
  notBoth := by decide
  counterInGrid := by decide
  permBijective := fun _ => ready_bijective planes
  arrpBound := by decide
  arrFullIff := by decide
  doneNoBlock := by decide

theorem test_witness_Written : (ready 3 1 2 2 planes).Written where
  arr := by decide
  bout := by decide
  pcol := by decide
  prow := by decide

theorem test_witness_MemoryWf : (ready 3 1 2 2 planes).MemoryWf where
  perm := wf_buildPerm List.Pairwise.nil
  arr := by decide
  bout := by decide
  pcol := by decide
  prow := by decide
  canvas := by decide

theorem test_witness_CommandsSeeNoUnwrittenElement :
    ∃ t, exec (.blkXform 0xE5) (ready 3 1 2 2 planes) = .next t := ⟨_, rfl⟩

theorem test_witness_StaleElementsReachNoResult :
    (ready 3 1 2 2 planes).AgreesLive { ready 3 1 2 2 planes with bout := cellsFrom 0 [9], canvas := cellsFrom 5 [7] } where
  rest := rfl
  perm := fun _ _ _ => rfl
  arr := fun _ _ => rfl
  bout := fun h => by cases h
  pcol := fun _ _ _ => rfl
  prow := fun _ _ _ => rfl

/-- At the last element of each space. -/
theorem test_witness_ObservationElements :
    (let s := { ready 1 1 3 2 ramp with bout := cellsFrom 0 ramp, canvas := cellsFrom 0 [10, 11, 15, 9, 12, 16, 25, 25] }
     15 < 4 * s.ctx.blockSamples ∧ Memory.read s.perm 15 = some 3 ∧
      3 < s.ctx.blockSamples ∧ Memory.read s.arr 3 = some 3 ∧ Memory.read s.bout 3 = some 3 ∧
      1 < s.ctx.heightBlocks * s.ctx.blockStride ∧ Memory.read s.pcol 1 = some 0 ∧
      3 < s.ctx.widthBlocks * s.ctx.blockStride ∧ Memory.read s.prow 3 = some 0 ∧
      7 < s.ctx.widthBlocks * s.ctx.blockSize * s.ctx.heightBlocks * s.ctx.blockSize * s.ctx.channels ∧
      Memory.read s.canvas 7 = some 25) := by decide

theorem test_witness_Supplier :
    (loaded 1 1 3 2).ctx.channels < 3 ∧ 3 ≤ (hosting .block .gamma [some 5] (loaded 3 1 3 3)).ctx.channels ∧
      (hosting .block .gamma [some 5] (loaded 3 1 3 3)).ctx.encodeType.getLsbD 0 = false ∧
      (hosting .block .gamma [some 5] (loaded 3 1 3 3)).seq.arch = .gamma ∧
      (hosting .block .gamma [some 15] (loaded 3 1 3 3)).fe.readBits 4 = (some 15, ⟨[], 1, 4, 0⟩) ∧
      (hosting .block .huffman [some 255] (loaded 3 1 3 3)).seq.arch = .huffman ∧
      (hosting .block .huffman [some 255] (loaded 3 1 3 3)).fe.symbol = (some 255, ⟨[], 1, 0, 0⟩) ∧
      (hosting .block .other [] (loaded 3 1 3 3)).seq.arch = .other ∧
      (bulkLoaded [0xC5, 0xCF]).ctx.encodeType.getLsbD 0 = true ∧ 3 ≤ (bulkLoaded [0xC5, 0xCF]).ctx.channels ∧
      (bulkLoaded [0xC5, 0xCF]).seq.codes = [0xC5, 0xCF] := by decide

theorem test_witness_PrefetchReadsOneCodePerBlock :
    prefetch .gamma 2 ⟨[some 5, some 15], 0, 0, 0⟩ = .gives [0xC5, 0xCF] ⟨[], 4, 8, 2⟩ ∧
      none ∈ ([some 5, none] : List (Option Nat)).take 2 ∧ (Arch.huffman ≠ .other) ∧
      (hosting .cleared .huffman [] (bulkLoaded [])).ctx.encodeType.getLsbD 0 = true ∧
      (hosting .cleared .huffman [] (bulkLoaded [])).seq.phase = .cleared ∧ 3 ≤ (bulkLoaded []).ctx.channels ∧
      prefetch .huffman ((bulkLoaded []).ctx.widthBlocks * (bulkLoaded []).ctx.heightBlocks) ⟨[some 1, some 2, some 3, some 4], 0, 0, 0⟩ =
        .gives [1, 2, 3, 4] ⟨[], 4, 0, 0⟩ := ⟨rfl, by decide, by decide, by decide, rfl, by decide, rfl⟩

/-- Answers: inside the script, and past its end, where a gamma read is followed by a reset and a byte by the next byte. -/
theorem test_witness_answers :
    (∀ j v, ([5, 15] : List Nat)[j]? = some v → (⟨[some 5, some 15], 7, 0, 0⟩ : FrontEnd).answer j (7 + 2 * j) = some v) ∧
      (∀ j v, [8, Config.feAnswer 1][j]? = some v → (⟨[some 8], 0, 0, 0⟩ : FrontEnd).answer j (0 + j) = some v) := by
  constructor <;> intro j v h <;> match j, h with
    | 0, h => exact h
    | 1, h => exact h

theorem test_witness_SyncTestsBitFirst :
    (hosting .sync .other [some 1] (loaded 1 1 3 2)).fe.readBits 1 = (some 1, ⟨[], 1, 1, 0⟩) ∧
      (hosting .sync .other [some 0] (loaded 1 1 3 2)).fe.readBits 1 = (some 0, ⟨[], 1, 1, 0⟩) ∧
      (loaded 1 1 3 2).ctx.encodeType.getLsbD 0 = false ∧ (1 : Byte).getLsbD 0 = true ∧
      (hosting .sync .huffman [some 0] (loaded 1 1 3 2)).seq.arch = .huffman := by decide

theorem test_witness_CropKeepsTopLeft :
    1 < (loaded 1 1 3 2).ctx.height ∧ 2 < (loaded 1 1 3 2).ctx.width ∧ 0 < (loaded 1 1 3 2).ctx.channels := by decide

theorem test_witness_HostIssuesOnlyCommands :
    (hosting .built .gamma [] (loaded 1 1 3 2)).port = [] ∧
      after (fun t => t.port) (hostTurn (hosting .built .gamma [] (loaded 1 1 3 2))) = some [.command 0x300] := by decide

/-- For each clause of the host's program. -/
theorem test_witness_HostProgramOrder :
    (let s := { hosting .idle .gamma [] State.reset with seq := { Sequencer.reset with jobs := [⟨grayHeader, .gamma⟩] } }
     s.rst = false ∧ s.stuck = false ∧ s.port = [] ∧ s.seq.jobs = ⟨grayHeader, .gamma⟩ :: [] ∧ s.seq.phase = .idle) ∧
      [Phase.loaded, .built, .cleared, .block, .write, .transform, .emit, .crop].map
        (fun p => (hosting p .gamma [] (loaded 1 1 3 2)).seq.phase) =
        [.loaded, .built, .cleared, .block, .write, .transform, .emit, .crop] ∧
      (loaded 1 1 3 2).status.fault = false ∧ (loaded 1 1 3 2).ctx.channels < 3 ∧
      { hosting .block .gamma [] (loaded 1 1 3 2) with seq := { Sequencer.reset with phase := .block, block := 2 } }.seq.block =
        (loaded 1 1 3 2).ctx.widthBlocks * (loaded 1 1 3 2).ctx.heightBlocks ∧
      syncStream (hosting .sync .huffman [some 0] (loaded 1 1 3 2)) = .gives () ⟨[], 2, 1, 1⟩ ∧
      syncStream (hosting .sync .huffman [some 1] (loaded 1 1 3 2)) = .fails ⟨1, 4⟩ ⟨[], 1, 1, 0⟩ ∧
      prefetch .other 4 FrontEnd.reset = .fails ⟨4, 0⟩ FrontEnd.reset ∧
      supply (bulkLoaded [0xC5]) = .gives 0xC5 FrontEnd.reset ∧
      supply (hosting .block .other [] (loaded 3 1 3 3)) = .fails ⟨4, 0⟩ FrontEnd.reset ∧
      (bulkLoaded [0xC5]).seq.block < (bulkLoaded [0xC5]).ctx.widthBlocks * (bulkLoaded [0xC5]).ctx.heightBlocks ∧
      ([1, 2, 3, 4] : List Nat).length = (hosting .decode .gamma [] (loaded 1 1 3 2)).ctx.blockSamples ∧
      (hosting .loaded .gamma [] inFault).status.fault = true ∧ (hosting .loaded .gamma [] inFault).seq.phase = .loaded := by
  refine ⟨by decide, rfl, rfl, by decide, by decide, rfl, rfl, rfl, rfl, rfl, by decide, rfl, rfl, rfl⟩

/-! ## The source text of 30_encoding.md R92, R93 -/

/-- A source text's command words in three hexadecimal digits. -/
def wordsOfSource (text : String) : Option (List (Option String)) :=
  (assemble text).map fun is => is.map fun i =>
    match encode i with
    | .command w => some (hexWord w)
    | .row _ _ => none

/-- R92: the three spellings of one code, and the words it gives. -/
theorem test_source_spellings :
    wordsOfSource "BLK_XFORM 0xE5 ; hex\nBLK_XFORM 0b11100101\nBLK_XFORM d=3,p=2,c=5\n\nARR_WRITE 10\nCTX_LOAD" =
      some [some "5E5", some "5E5", some "5E5", some "40A", some "100"] := by decide

/-- 95_test_vectors.md P2: INIT, and a block of its program (VERBATIM's operands shortened); a line the spec does not write. -/
theorem test_source_pseudo :
    wordsOfSource "INIT\nBLOCK 0x97: 200,100, 50\nVERBATIM: 11,34" =
      some [some "100", some "200", some "300", some "4C8", some "464", some "432", some "597", some "600", some "40B",
        some "422", some "500", some "600"] ∧
      assemble "ARR_WRITE 256" = none ∧ assemble "JUMP 3" = none := by decide

end Sys2Proof.Tests
end

section
/-! PROOFS. The scope's statements (00_scope.md): what one step is, the ports that are the host's only way to the BTE, the parameters
no step changes. -/

namespace Sys2Proof.Machine

/-! The fetch (00_scope.md R6, 20_memory.md R68). -/

/-- The turn when nothing stands in the way of a word that decodes. -/
theorem nextTurn_of_decode {s : State} {it : PortWord} {rest : List PortWord} {i : Instr} (hr : s.rst = false)
    (hs : s.stuck = false) (hp : s.port = it :: rest) (hd : decode it = .ok i) : nextTurn s = .run i := by
  simp [nextTurn, hr, hs, hp, hd]

theorem step_of_run {s : State} {i : Instr} (h : nextTurn s = .run i) : step s = exec i (takeWord s) := by
  simp only [step, h]

theorem takeWord_of_port {s : State} {it : PortWord} {rest : List PortWord} (hp : s.port = it :: rest) :
    takeWord s = { s with port := rest } := by
  rw [takeWord, hp]
  rfl

/-- Settles O6: the turn is the decoded instruction's, and the word it ran from has left the port. -/
theorem stepRunsDecodedInstruction : Obligations.StepRunsDecodedInstruction := by
  intro s it rest i hr hs hp hd
  rw [step_of_run (nextTurn_of_decode hr hs hp hd), takeWord_of_port hp]

/-! The host's moves (45_host_sequencer.md R210, R211). -/

/-- Everything a move of the host can be: the start of the next decode call, or, inside one, calls of the front-end, words put at the
command port and a write of its own variables. -/
theorem hostTurn_cases {s t : State} (h : hostTurn s = .next t) :
    t = nextJob s ∨ t = { s with fe := t.fe, port := t.port, seq := t.seq } := by
  unfold hostTurn at h
  cases hp : s.seq.phase <;> simp only [hp] at h
  case idle | finished | failed =>
    cases h
    exact .inl rfl
  case built | write | transform | crop =>
    cases h
    exact .inr rfl
  case loaded | sync | decode | emit =>
    split at h <;> cases h <;> exact .inr rfl
  case cleared | block =>
    split at h
    · split at h <;> cases h <;> exact .inr rfl
    · cases h
      exact .inr rfl

/-- The start of a decode call writes the header port, the command port and the host's own variables. -/
theorem nextJob_keeps (s : State) :
    nextJob s = { s with hdr := (nextJob s).hdr, port := (nextJob s).port, seq := (nextJob s).seq } := by
  unfold nextJob
  split <;> rfl

/-- Settles O59: the start of a decode call and every move inside one are writes of the ports, the front-end and the host's own
variables. -/
theorem hostTouchesOnlyPorts : Obligations.HostTouchesOnlyPorts := by
  intro s t h
  rcases hostTurn_cases h with rfl | e
  · rw [nextJob_keeps]
  · rw [e]

/-! The parameters (00_scope.md R8). -/

@[simp] theorem takeFault_cfg (k : FaultKind) (b : Byte) (s : State) : (takeFault k b s).cfg = s.cfg := by
  rcases takeFault_cases k b s with ⟨_, e⟩ | ⟨_, e⟩ <;> simp [e]

@[simp] theorem transform_cfg (code : Byte) (s : State) : (transform code s).cfg = s.cfg := by rw [transform_keeps]

@[simp] theorem finishLoad_cfg (c : Context) (r : Except (FaultKind × Byte) Context) (s : State) :
    (finishLoad c r s).cfg = s.cfg := by
  unfold finishLoad
  split <;> simp

/-- CTX_LOAD, its reads answered or not, keeps the parameters. -/
theorem execCtxLoad_cfg {s t : State} (h : execCtxLoad s = .next t) : t.cfg = s.cfg := by
  unfold execCtxLoad at h
  split at h
  · cases h
    rfl
  · cases h
    exact finishLoad_cfg _ _ _

/-- No instruction changes the parameters: `exec_cases` leaves to show only the two effects that branch on the code, BLK_XFORM's and
the colour rows'. -/
theorem exec_cfg {i : Instr} {s t : State} (h : exec i s = .next t) : t.cfg = s.cfg := by
  by_cases hi : i = .ctxLoad
  · subst hi
    exact execCtxLoad_cfg h
  · rcases exec_cases hi h with rfl | ⟨_, _, _, _, rfl⟩ | ⟨_, _, rfl⟩ | ⟨_, _, rfl⟩ | ⟨_, _, _, rfl⟩ | ⟨_, _, _, _, rfl⟩ |
      ⟨_, _, rfl⟩ | ⟨_, ⟨_, _, rfl⟩ | ⟨_, _, rfl⟩ | rfl | rfl | rfl⟩
    any_goals rfl
    · exact transform_cfg _ _
    · exact applyColor_cfg _ _

/-- Settles O44: the four kinds of turn that answer a next state, each by its own frame. -/
theorem stepKeepsParameters : Obligations.StepKeepsParameters := by
  intro s t h
  rcases step_cases h with rfl | ⟨i, h⟩ | (rfl | ⟨n, b, _, _, rfl⟩) | h
  · rfl
  · exact (exec_cfg h).trans rfl
  · rfl
  · rfl
  · rw [hostTouchesOnlyPorts s t h]

end Sys2Proof.Machine
end

section
/-! PROOFS. The state's statements (10_state.md): what reset leaves, which instruction writes which register and buffer, the
invariants every step keeps, and the free values no command sees. -/

namespace Sys2Proof.Machine

/-! What CTX_LOAD can do (40_context_validator.md R100, R111, R112; 60_exceptions.md R244). -/

/-- CTX_LOAD once its reads are answered: it commits a context with its geometry, or it records a fault; either way a new decode
call has begun and every buffer stays. -/
theorem loadContext_cases (q : StreamFields) (fe : FrontEnd) (s : State) :
    (∃ c, c.Geometry ∧ loadContext q fe s = { s with
      status := Status.afterLoad (c.widthBlocks == 0 || c.heightBlocks == 0)
      err := 0, errInfo := 0, ctx := c, blkX := 0, blkY := 0, arrp := 0, fe := fe }) ∨
    ∃ c n b, n ≠ 0 ∧ loadContext q fe s = { s with
      status := { Status.reset with fault := true }
      err := n, errInfo := b, ctx := c, blkX := 0, blkY := 0, arrp := 0, fe := fe, freeCtr := s.freeCtr + 1 } := by
  unfold loadContext
  cases h : checkContext s.cfg (latchedContext s q) with
  | ok c => exact .inl ⟨c, geometry_of_checkContext h, rfl⟩
  | error f => exact .inr ⟨_, f.1.number, f.2, by cases f.1 <;> decide, rfl⟩

/-- CTX_LOAD waits for ever for a read, or its four reads are answered. -/
theorem execCtxLoad_cases {s t : State} (h : execCtxLoad s = .next t) :
    (∃ fe, t = { s with fe := fe, stuck := true }) ∨ ∃ q fe, t = loadContext q fe s := by
  unfold execCtxLoad at h
  split at h <;> cases h
  · exact .inl ⟨_, rfl⟩
  · exact .inr ⟨_, _, rfl⟩

/-- CTX_LOAD leaves every buffer as it was (70_reset_and_hazards.md R261). -/
theorem execCtxLoad_buffers {s t : State} (h : execCtxLoad s = .next t) :
    t.perm = s.perm ∧ t.arr = s.arr ∧ t.bout = s.bout ∧ t.pcol = s.pcol ∧ t.prow = s.prow ∧ t.canvas = s.canvas := by
  rcases execCtxLoad_cases h with ⟨_, rfl⟩ | ⟨q, fe, rfl⟩
  · exact ⟨rfl, rfl, rfl, rfl, rfl, rfl⟩
  · rcases loadContext_cases q fe s with ⟨_, _, e⟩ | ⟨_, _, _, _, e⟩ <;> rw [e] <;> exact ⟨rfl, rfl, rfl, rfl, rfl, rfl⟩

/-! Who writes the context registers, the block counter and the buffers (10_state.md R25, R28; 20_memory.md R60). -/

@[simp] theorem transform_blkX (code : Byte) (s : State) : (transform code s).blkX = s.blkX := by rw [transform_keeps]
@[simp] theorem transform_blkY (code : Byte) (s : State) : (transform code s).blkY = s.blkY := by rw [transform_keeps]
@[simp] theorem transform_perm (code : Byte) (s : State) : (transform code s).perm = s.perm := by rw [transform_keeps]
@[simp] theorem transform_canvas (code : Byte) (s : State) : (transform code s).canvas = s.canvas := by rw [transform_keeps]

/-- What a row of a transformer code does in a state that admits it: the last case of `exec_cases`. -/
def RowEffect (s t : State) : Prop :=
  (∃ p, p < 4 ∧ t = scatter p s) ∨ (∃ c, LegalColor s.ctx.channels c ∧ t = applyColor c s) ∨
    t = horizontalAccumulate s ∨ t = horizontalCapture s ∨ t = vertical s

/-- A row writes BOUT and the edge state only. -/
theorem RowEffect.keeps {s t : State} (h : RowEffect s t) :
    t = { s with bout := t.bout, pcol := t.pcol, prow := t.prow } := by
  rcases h with ⟨_, _, rfl⟩ | ⟨_, _, rfl⟩ | rfl | rfl | rfl
  case inr.inl => rw [applyColor_keeps]
  all_goals rfl

/-- No instruction but CTX_LOAD writes a context register. -/
theorem exec_ctx {i : Instr} {s t : State} (hi : i ≠ .ctxLoad) (h : exec i s = .next t) : t.ctx = s.ctx := by
  rcases exec_cases hi h with rfl | ⟨_, _, _, _, rfl⟩ | ⟨_, _, rfl⟩ | ⟨_, _, rfl⟩ | ⟨_, _, _, rfl⟩ | ⟨_, _, _, _, rfl⟩ |
    ⟨_, _, rfl⟩ | ⟨_, effect⟩
  any_goals rfl
  · exact transform_ctx _ _
  · rw [RowEffect.keeps effect]

/-- Settles O41: no effect `exec_cases` lists writes the context, and both endings of an answered CTX_LOAD begin a new call. -/
theorem onlyLoadWritesContext : Obligations.OnlyLoadWritesContext := by
  refine ⟨fun i s t hi h => exec_ctx hi h, fun s t q fe hq h => ?_⟩
  obtain rfl : loadContext q fe s = t := Host.Outcome.next.inj ((execCtxLoad_of_read hq).symm.trans h)
  rcases loadContext_cases q fe s with ⟨_, _, e⟩ | ⟨_, _, _, _, e⟩ <;> rw [e] <;> exact ⟨rfl, rfl, rfl, rfl, rfl, rfl, rfl⟩

/-- Settles O42: no effect `exec_cases` lists for the other instructions writes the counter. -/
theorem onlyEmitAdvancesCounter : Obligations.OnlyEmitAdvancesCounter := by
  intro i s t hi he h
  rcases exec_cases hi h with rfl | ⟨_, _, _, _, rfl⟩ | ⟨_, _, rfl⟩ | ⟨_, _, rfl⟩ | ⟨_, _, _, rfl⟩ | ⟨_, _, _, _, rfl⟩ |
    ⟨hi, _⟩ | ⟨_, effect⟩
  any_goals exact ⟨rfl, rfl⟩
  · exact ⟨transform_blkX _ _, transform_blkY _ _⟩
  · exact absurd hi he
  · rw [RowEffect.keeps effect]
    exact ⟨rfl, rfl⟩

/-- A row of a transformer code is none of the commands that leave BOUT. -/
theorem not_command_of_encode_row {i : Instr} {u : SubUnit} {code : Byte} (hw : encode i = .row u code) :
    ¬ (i ∈ ([.ctxLoad, .permBuild, .esbClear, .blkEmit] : List Instr) ∨ ∃ b, i = .arrWrite b) := by
  rintro (hi | ⟨b, rfl⟩)
  · simp only [List.mem_cons, List.not_mem_nil, or_false] at hi
    rcases hi with rfl | rfl | rfl | rfl <;> cases hw
  · cases hw

/-- Settles O43: CTX_LOAD leaves all six buffers, each command writes its own, and the rows are none of the commands the last two
clauses name. -/
theorem bufferWriters : Obligations.BufferWriters := by
  intro i s t h
  by_cases hi : i = .ctxLoad
  · subst hi
    obtain ⟨hperm, harr, hbout, hpcol, hprow, hcanvas⟩ := execCtxLoad_buffers h
    exact ⟨fun _ => hperm, fun _ => harr, fun _ => hcanvas, fun _ => ⟨hpcol, hprow⟩, fun _ => hbout⟩
  rcases exec_cases hi h with rfl | ⟨_, _, _, _, rfl⟩ | ⟨rfl, _, rfl⟩ | ⟨rfl, _, rfl⟩ | ⟨_, rfl, _, rfl⟩ | ⟨_, rfl, _, _, rfl⟩ |
    ⟨rfl, _, rfl⟩ | ⟨⟨_, hw⟩, effect⟩
  · simp
  · simp
  · simp [permBuilt]
  · simp [esbCleared]
  · simp [sampleWritten]
  · simp [completeTransform]
  · simp [advance, emitBlock]
  · have hnot := not_command_of_encode_row hw
    rw [RowEffect.keeps effect]
    refine ⟨fun _ => rfl, fun _ => rfl, fun _ => rfl, fun hc => absurd (hc.imp_left fun hm => ?_) hnot,
      fun hc => absurd hc hnot⟩
    simp only [List.mem_cons] at hm ⊢
    tauto

/-! The invariants (10_state.md R40). -/

/-- A state without a valid context meets the invariants when its flags are clear but FAULT and the error registers agree with
FAULT. -/
theorem inv_of_flags_clear {s : State} {b : Bool} (hs : s.status = { Status.reset with fault := b })
    (hf : b = true → s.err ≠ 0) (hc : b = false → s.err = 0 ∧ s.errInfo = 0) : s.Inv := by
  constructor
  case faultHasNumber => simpa [hs] using hf
  case noFaultNoNumber => simpa [hs] using hc
  all_goals simp [hs, Status.reset]

/-- Settles O45: no flag is set, so nothing is promised, and no element is written. -/
theorem resetMeetsInvariants : Obligations.ResetMeetsInvariants := by
  refine ⟨inv_of_flags_clear (b := false) rfl (by simp) fun _ => ⟨rfl, rfl⟩, ?_, reset_memoryWf⟩
  constructor <;> simp [State.reset, Status.reset]

/-- Settles O4: reset is a literal, whose registers are 0 and whose buffers are empty lists. -/
theorem resetState : Obligations.ResetState :=
  ⟨by decide, rfl, rfl, rfl, rfl, rfl, fun _ => ⟨rfl, rfl, rfl, rfl, rfl, rfl⟩⟩

/-- The bijection (f) speaks of the context and of PERM only. -/
theorem State.Inv.permBijective_congr {s t : State} (h : s.Inv) (hc : t.ctx = s.ctx) (hp : t.perm = s.perm)
    (hv : s.status.permValid = true) : ∀ p, p < 4 → t.SegmentBijective p :=
  fun p hlt => SegmentBijective_congr (h.permBijective hv p hlt) hc hp

theorem inv_faulted {s : State} (h : s.Inv) {n : BitVec 4} (hn : n ≠ 0) (b : Byte) : (faulted s n b).Inv :=
  { h with
    faultHasNumber := fun _ => hn
    noFaultNoNumber := fun hf => by simp at hf
    permBijective := h.permBijective_congr rfl rfl }

theorem inv_permBuilt {s : State} (h : s.Inv) (hr : s.status.readyPermBuild = true) : (permBuilt s).Inv :=
  { h with
    permNeedsContext := fun _ => hr
    permBijective := fun _ => permBuilt_bijective s (h.geometry hr).area (h.geometry hr).samples }

theorem inv_esbCleared {s : State} (h : s.Inv) (hr : s.status.readyEsbClear = true) : (esbCleared s).Inv :=
  { h with
    esbNeedsContext := fun _ => (Bool.and_eq_true_iff.mp hr).1
    permBijective := h.permBijective_congr rfl rfl }

/-- ARR_WRITE: the pointer was below `N`, because ARR_FULL was clear, and ARR_FULL is set exactly when it reaches `N`. -/
theorem inv_sampleWritten {s : State} (h : s.Inv) (b : Byte) (hr : s.status.readyArrWrite = true) :
    (sampleWritten b s).Inv := by
  simp only [Status.readyArrWrite, Bool.and_eq_true, Bool.not_eq_true'] at hr
  obtain ⟨⟨⟨hctx, hfull⟩, hbout⟩, hdone⟩ := hr
  obtain ⟨-, hpos, -⟩ := (h.geometry hctx).pos
  have hlt : s.arrp < s.ctx.blockSamples := by
    have hle := h.arrpBound hctx
    have hne : s.arrp ≠ s.ctx.blockSamples := fun e => by simp [h.arrFullIff.mpr ⟨e, hpos, hctx⟩] at hfull
    omega
  exact { h with
    arrNeedsContext := fun _ => hctx
    notBoth := fun hb => by simp [sampleWritten, Status.afterWrite, hbout] at hb
    permBijective := h.permBijective_congr rfl rfl
    arrpBound := fun _ => hlt
    arrFullIff := by simp [sampleWritten, Status.afterWrite, hfull, hpos, hctx]
    doneNoBlock := fun hd => by simp [sampleWritten, Status.afterWrite, hdone] at hd }

/-- BLK_XFORM empties ARR and fills BOUT, in a state where no block was done and DONE was clear. -/
theorem inv_completeTransform {s : State} (h : s.Inv) (code : Byte) (hr : s.ReadyToTransform) :
    (completeTransform (transform code s)).Inv := by
  obtain ⟨-, hpos, -⟩ := (h.geometry hr.context).pos
  rw [transform_keeps]
  exact { h with
    arrNeedsContext := fun hf => by cases hf
    boutNeedsContext := fun _ => hr.context
    notBoth := fun hb => by simp [completeTransform, Status.afterTransform] at hb
    permBijective := h.permBijective_congr rfl rfl
    arrpBound := fun _ => Nat.zero_le _
    arrFullIff := by simp [completeTransform, Status.afterTransform, hpos.ne]
    doneNoBlock := fun hd => by simp [completeTransform, Status.afterTransform, hr.notDone] at hd }

/-- The block counter's advance stays inside the grid unless the block was the last (44_frame_assembler.md R192). -/
theorem nextBlk_inside {s : State} (hx : s.blkX < s.ctx.widthBlocks) (hy : s.blkY < s.ctx.heightBlocks)
    (hlast : nextBlkY s ≠ s.ctx.heightBlocks) : nextBlkX s < s.ctx.widthBlocks ∧ nextBlkY s < s.ctx.heightBlocks := by
  unfold nextBlkX nextBlkY at *
  by_cases hrow : s.blkX + 1 < s.ctx.widthBlocks
  · rw [if_pos hrow, if_pos hrow]
    exact ⟨hrow, hy⟩
  · rw [if_neg hrow] at hlast ⊢
    rw [if_neg hrow]
    omega

/-- BLK_EMIT: DONE was clear, because BOUT_VALID was set, so the block stood inside the grid; the next one does too unless it was the
last. -/
theorem inv_advance {s : State} (h : s.Inv) (hb : s.status.boutValid = true) : (advance (emitBlock s)).Inv := by
  have hctx := h.boutNeedsContext hb
  have hfull : s.status.arrFull = false := by simpa [hb] using h.notBoth
  have hdone : s.status.done = false := by
    cases hd : s.status.done
    · rfl
    · simp [h.doneNoBlock hd] at hb
  obtain ⟨hx, hy⟩ := h.counterInGrid hdone hctx
  exact { h with
    boutNeedsContext := fun hf => by cases hf
    doneNeedsContext := fun _ => hctx
    notBoth := fun hb => by simp [advance, Status.afterEmit] at hb
    counterInGrid := fun hd _ =>
      nextBlk_inside (s := emitBlock s) hx hy (by simpa [advance, Status.afterEmit, emitBlock, hdone] using hd)
    permBijective := h.permBijective_congr rfl rfl
    doneNoBlock := fun _ => ⟨hfull, rfl⟩ }

/-- An answered CTX_LOAD: nothing of a block is done, and after a commit the first block is inside the grid unless the grid is
empty. -/
theorem inv_loadContext {s : State} (q : StreamFields) (fe : FrontEnd) : (loadContext q fe s).Inv := by
  rcases loadContext_cases q fe s with ⟨c, hg, e⟩ | ⟨c, n, b, hn, e⟩ <;> rw [e]
  · obtain ⟨-, hpos, -⟩ := hg.pos
    constructor
    case geometry => exact fun _ => hg
    case counterInGrid => simp [Status.afterLoad, Nat.pos_iff_ne_zero]
    case arrFullIff => simp [Status.afterLoad, Status.reset, hpos.ne]
    all_goals simp [Status.afterLoad, Status.reset]
  · exact inv_of_flags_clear rfl (fun _ => hn) (by simp)

/-- Every instruction keeps the invariants: CTX_LOAD by its two endings, the others effect by effect. -/
theorem inv_exec {i : Instr} {s t : State} (h : s.Inv) (he : exec i s = .next t) : t.Inv := by
  by_cases hi : i = .ctxLoad
  · subst hi
    rcases execCtxLoad_cases he with ⟨_, rfl⟩ | ⟨q, fe, rfl⟩
    · exact Inv_congr h rfl rfl rfl rfl rfl rfl rfl rfl
    · exact inv_loadContext q fe
  rcases exec_cases hi he with rfl | ⟨_, b, hn, _, rfl⟩ | ⟨_, hr, rfl⟩ | ⟨_, hr, rfl⟩ | ⟨b, _, hr, rfl⟩ |
    ⟨code, _, hr, _, rfl⟩ | ⟨_, hb, rfl⟩ | ⟨_, effect⟩
  · exact h
  · exact inv_faulted h hn b
  · exact inv_permBuilt h hr
  · exact inv_esbCleared h hr
  · exact inv_sampleWritten h b hr
  · exact inv_completeTransform h code hr
  · exact inv_advance h hb
  · rw [RowEffect.keeps effect]
    exact Inv_congr h rfl rfl rfl rfl rfl rfl rfl rfl

theorem inv_takeWord {s : State} (h : s.Inv) : (takeWord s).Inv := Inv_congr h rfl rfl rfl rfl rfl rfl rfl rfl

/-- Settles O46: the reset pin clears all flags, an instruction is `inv_exec`, a rejected word at most records a fault, and the host
writes no field the invariants speak of. -/
theorem stepKeepsInvariants : Obligations.StepKeepsInvariants := by
  intro s t h hs
  rcases step_cases hs with rfl | ⟨i, he⟩ | (rfl | ⟨n, b, hn, _, rfl⟩) | hh
  · exact inv_of_flags_clear (b := false) rfl (by simp) fun _ => ⟨rfl, rfl⟩
  · exact inv_exec (inv_takeWord h) he
  · exact inv_takeWord h
  · exact inv_faulted (inv_takeWord h) hn b
  · rw [hostTouchesOnlyPorts s t hh]
    exact Inv_congr h rfl rfl rfl rfl rfl rfl rfl rfl

/-! The counter that names free values (10_state.md R37; 70_reset_and_hazards.md R263): every element a command reads is written. -/

/-- A command whose effect, in a state that is ready for it, does not see the counter, does not see it at all. -/
theorem runCommand_counter {op : BitVec 4} {ready : Bool} {e e' s t : State} {k : Nat}
    (he : s.status.fault = false → ready = true → e' = e.setFreeCtr k) (h : runCommand op ready e s = .next t) :
    runCommand op ready e' (s.setFreeCtr k) = .next (t.setFreeCtr k) := by
  rcases runCommand_same (s := s) (t := s.setFreeCtr k) (e' := e') rfl h with ⟨_, rfl, h'⟩ | ⟨hf, hr, rfl, h'⟩ | ⟨_, rfl, h'⟩
  · exact h'
  · rw [h', he hf hr]
  · exact h'

/-- A scatter through a bijective segment writes the whole block. -/
theorem scatter_writtenBelow {s : State} {p : Nat} (hb : s.SegmentBijective p) :
    WrittenBelow s.ctx.blockSamples (scatter p s).bout := fun a ha => by
  obtain ⟨i, hi, hr⟩ := hb.all a ha
  have hread := scatter_read (permAt_inj hb) hi
  rw [permAt_of_read hr] at hread
  rw [hread]
  rfl

/-- Steps 2 to 6 of BLK_XFORM: the scatter reads ARR below `N` and writes all of BOUT, which the later steps read, and the edge
state is written throughout. -/
theorem transform_counter {s : State} {code : Byte} (k : Nat) (hI : s.Inv) (hW : s.Written) (hr : s.ReadyToTransform)
    (hl : LegalColor s.ctx.channels (colorOp code)) :
    transform code (s.setFreeCtr k) = (transform code s).setFreeCtr k := by
  have g := hI.geometry hr.context
  obtain ⟨hS, -, -⟩ := g.pos
  obtain ⟨hx, hy⟩ := hI.counterInGrid hr.notDone hr.context
  have hrows : s.ctx.blockStride * s.ctx.blockSize ≤ s.ctx.blockSamples := by
    rw [g.stride, g.samples, g.area, Nat.mul_right_comm]
  have hplanes : s.ctx.channels * s.ctx.blockArea ≤ s.ctx.blockSamples := by rw [g.samples, Nat.mul_comm]
  have hcol := Nat.mul_le_mul_right s.ctx.blockStride hy
  have hrow := Nat.mul_le_mul_right s.ctx.blockStride hx
  rw [Nat.succ_mul] at hcol hrow
  have harr : WrittenBelow s.ctx.blockSamples s.arr := fun a ha =>
    hW.arr hr.context a (by rwa [(hI.arrFullIff.mp hr.arr).1])
  have hpcol : WrittenBelow (s.ctx.heightBlocks * s.ctx.blockStride) s.pcol := hW.pcol hr.esb
  have hprow : WrittenBelow (s.ctx.widthBlocks * s.ctx.blockStride) s.prow := hW.prow hr.esb
  unfold transform
  split
  · exact scatter_counter (hI.permBijective hr.perm 0 (by decide)) harr
  · have hb := hI.permBijective hr.perm _ (permSelector code).isLt
    have hscatter := scatter_writtenBelow hb
    rw [scatter_counter hb harr, applyColor_counter (s := scatter _ s) hl hplanes hscatter,
      horizontal_counter (n := s.ctx.blockSamples) (q := s.ctx.heightBlocks * s.ctx.blockStride) (by simpa using hrows)
      (fun a ha => applyColor_bout_isSome (hscatter a ha)) (by simpa using hS) (by simpa using hcol)
      (by simpa using hpcol),
      vertical_counter (n := s.ctx.blockSamples) (q := s.ctx.widthBlocks * s.ctx.blockStride) (by simpa using g.area)
      (by simpa using hplanes) (fun a ha => horizontal_isSome.1 (applyColor_bout_isSome (hscatter a ha)))
      (by simpa [← g.stride, Nat.mul_comm s.ctx.channels] using hrow) (by simpa using hprow)]

/-- BLK_XFORM with its legality check: an illegal code is a fault, which reads no element. -/
theorem blockTransformed_counter {s : State} {code : Byte} (k : Nat) (hI : s.Inv) (hW : s.Written) (hr : s.ReadyToTransform) :
    blockTransformed code (s.setFreeCtr k) = (blockTransformed code s).setFreeCtr k := by
  unfold blockTransformed
  rw [State.setFreeCtr_ctx]
  split
  next hl =>
    rw [transform_counter k hI hW hr ((legalCode_iff_legalColor _ _).mp hl)]
    rfl
  next =>
    rw [takeFault_of_clear hr.clear, takeFault_of_clear (s := s.setFreeCtr k) hr.clear]
    rfl

/-- BLK_EMIT reads BOUT inside the block only. -/
theorem emitBlock_counter {s : State} (k : Nat) (hI : s.Inv) (hW : s.Written) (hb : s.status.boutValid = true) :
    emitBlock (s.setFreeCtr k) = (emitBlock s).setFreeCtr k := by
  have g := hI.geometry (hI.boutNeedsContext hb)
  have hread : ∀ {c y x}, c < s.ctx.channels → y < s.ctx.blockSize → x < s.ctx.blockSize →
      (s.setFreeCtr k).boutIn s.bout (planarAddr s.ctx c y x) = s.boutIn s.bout (planarAddr s.ctx c y x) := fun hc hy hx =>
    byteAt_counter (hW.bout hb _ (by rw [g.samples, Nat.mul_comm]; exact planarAddr_lt g.area hc hy hx))
  refine congrArg (fun m => (s.setCanvas m).setFreeCtr k) ?_
  refine forUp_congr fun c hc m => forUp_congr fun y hy m => forUp_congr fun x hx m => ?_
  exact congrArg (Memory.write m _) (hread hc hy hx)

/-- Settles O49: PERM_BUILD, ESB_CLEAR and ARR_WRITE read no element, BLK_XFORM and BLK_EMIT read written ones. -/
theorem commandsSeeNoUnwrittenElement : Obligations.CommandsSeeNoUnwrittenElement := by
  intro s t i k hI hW hi h
  rcases hi with rfl | rfl | ⟨b, rfl⟩ | ⟨code, rfl⟩ | rfl
  · exact runCommand_counter (fun _ _ => rfl) h
  · exact runCommand_counter (fun _ _ => rfl) h
  · exact runCommand_counter (fun _ _ => rfl) h
  · exact runCommand_counter (fun hf hr => blockTransformed_counter k hI hW ((readyBlkXform_iff hf).mp hr)) h
  · exact runCommand_counter (e := advance (emitBlock s))
      (fun _ hb => congrArg advance (emitBlock_counter k hI hW hb)) h

end Sys2Proof.Machine
end

section
/-! PROOFS. The memory's statements (20_memory.md): the canonical form every step keeps, the bytes BLK_EMIT puts on the canvas, and
the observation port. -/

namespace Sys2Proof.Machine

/-! The canonical form (20_memory.md R60, R64). -/

/-- The canonical form speaks of the six buffers only. -/
theorem memoryWf_congr {s t : State} (h : s.MemoryWf) (e : t.perm = s.perm ∧ t.arr = s.arr ∧ t.bout = s.bout ∧
    t.pcol = s.pcol ∧ t.prow = s.prow ∧ t.canvas = s.canvas) : t.MemoryWf := by
  obtain ⟨hperm, harr, hbout, hpcol, hprow, hcanvas⟩ := e
  exact ⟨hperm ▸ h.perm, harr ▸ h.arr, hbout ▸ h.bout, hpcol ▸ h.pcol, hprow ▸ h.prow, hcanvas ▸ h.canvas⟩

theorem RowEffect.memoryWf {s t : State} (effect : RowEffect s t) (h : s.MemoryWf) : t.MemoryWf := by
  rcases effect with ⟨_, _, rfl⟩ | ⟨_, _, rfl⟩ | rfl | rfl | rfl
  · exact memoryWf_scatter h
  · exact memoryWf_applyColor h
  · exact memoryWf_horizontalAccumulate h
  · exact memoryWf_horizontalCapture h
  · exact memoryWf_vertical h

/-- Every instruction keeps the canonical form: CTX_LOAD leaves the buffers, and each other effect writes its own element by
element. -/
theorem memoryWf_exec {i : Instr} {s t : State} (h : s.MemoryWf) (he : exec i s = .next t) : t.MemoryWf := by
  by_cases hi : i = .ctxLoad
  · subst hi
    exact memoryWf_congr h (execCtxLoad_buffers he)
  rcases exec_cases hi he with rfl | ⟨_, _, _, _, rfl⟩ | ⟨_, _, rfl⟩ | ⟨_, _, rfl⟩ | ⟨_, _, _, rfl⟩ | ⟨code, _, _, _, rfl⟩ |
    ⟨_, _, rfl⟩ | ⟨_, effect⟩
  · exact h
  · exact { h with }
  · exact { h with perm := wf_buildPerm h.perm }
  · exact { h with pcol := wf_clearBytes h.pcol, prow := wf_clearBytes h.prow }
  · exact { h with arr := Memory.wf_write h.arr _ _ }
  · exact { memoryWf_transform code h with }
  · exact { h with canvas := wf_emitBlock h.canvas }
  · exact RowEffect.memoryWf effect h

/-- Settles O47: the reset pin empties the buffers, an instruction is `memoryWf_exec`, a rejected word and a move of the host write
no buffer. -/
theorem stepKeepsMemoryWf : Obligations.StepKeepsMemoryWf := by
  intro s t h hs
  have htake : (takeWord s).MemoryWf := { h with }
  rcases step_cases hs with rfl | ⟨i, he⟩ | (rfl | ⟨n, b, _, _, rfl⟩) | hh
  · exact { reset_memoryWf with }
  · exact memoryWf_exec htake he
  · exact htake
  · exact { htake with }
  · rw [hostTouchesOnlyPorts s t hh]
    exact { h with }

/-! BLK_EMIT (20_memory.md R66; 44_frame_assembler.md R190, R192). -/

/-- Settles O40: the canvas is `emitBlock_spec`'s, and the advance writes the counter and STATUS only. -/
theorem emitScattersBlockAndAdvances : Obligations.EmitScattersBlockAndAdvances := by
  intro s hf hb hx
  obtain ⟨hsample, hother⟩ := emitBlock_spec s hx
  exact ⟨advance (emitBlock s), runCommand_of_ready hf hb, hsample, hother, rfl, rfl, rfl⟩

/-! The observation port (20_memory.md R70). -/

/-- Where the spec gives a value, the port gives it. -/
theorem observe_of_observed {s : State} {space : BitVec 3} {i v : Nat} (h : observed s space.toNat i = some v) :
    observe s space i = v := by
  simp [observe, h]

theorem observe_register {s : State} {i v : Nat} (h : registerAt s i = some v) : observe s 0 i = v :=
  observe_of_observed h

theorem inExtent_of_read {α : Type} {m : List (Nat × α)} {extent a : Nat} {v : α} (ha : a < extent)
    (h : Memory.read m a = some v) : inExtent m extent a = some v := by
  rw [inExtent, if_pos ha, h]

theorem byteInExtent_of_read {m : ByteMemory} {extent a : Nat} {v : Byte} (ha : a < extent)
    (h : Memory.read m a = some v) : byteInExtent m extent a = some v.toNat := by
  rw [byteInExtent, inExtent_of_read ha h, Option.map_some]

/-- Settles O51: space 0 gives each of the twenty-two registers. -/
theorem observationRegisters : Obligations.ObservationRegisters := by
  intro s
  and_intros <;> exact observe_register rfl

/-- Settles O52: PERM gives its index, the five byte spaces the number of their byte. -/
theorem observationElements : Obligations.ObservationElements := by
  intro s a
  refine ⟨fun v ha h => observe_of_observed (inExtent_of_read ha h), ?_⟩
  and_intros <;> exact fun v ha h => observe_of_observed (byteInExtent_of_read ha h)

end Sys2Proof.Machine
end

section
/-! PROOFS. The encodings' statements (30_encoding.md): a word and its instruction determine each other, what a reserved command word
does, and a transformer code as the rows of its fields, in order. -/

namespace Sys2Proof.Machine

/-! The command words (30_encoding.md R84, R88). -/

theorem decodeBare_of_zero {w : BitVec 12} (i : Instr) (h : operandOf w = 0) : decodeBare i w = .ok i := if_pos h

theorem decodeBare_of_ne {w : BitVec 12} (i : Instr) (h : operandOf w ≠ 0) :
    decodeBare i w = .error (.nonzeroOperand (opcodeOf w)) := if_neg h

/-- An operandless command word that decodes has operand 0 and is that command's. -/
theorem decodeBare_ok {i j : Instr} {w : BitVec 12} (h : decodeBare i w = .ok j) : operandOf w = 0 ∧ j = i := by
  by_cases hw : operandOf w = 0
  · rw [decodeBare_of_zero i hw] at h
    exact ⟨hw, (Except.ok.inj h).symm⟩
  · rw [decodeBare_of_ne i hw] at h
    cases h

/-- A command word is the one put together from its opcode and its operand. -/
theorem commandOf_eq {op : BitVec 4} {b : Byte} {w : BitVec 12} (hop : (opcodeOf w).toNat = op.toNat) (hb : operandOf w = b) :
    commandOf op b = w := by
  rw [← BitVec.eq_of_toNat_eq hop, ← hb, commandOf_fields]

/-- A command word that decodes is its instruction's encoding: the opcode picks the instruction, the operand is its operand or 0. -/
theorem encode_of_decodeCommand {w : BitVec 12} {i : Instr} (h : decodeCommand w = .ok i) :
    encode i = .command w ∧ i.wf = true := by
  have word : ∀ {op : BitVec 4} {b : Byte}, (opcodeOf w).toNat = op.toNat → operandOf w = b →
      PortWord.command (commandOf op b) = .command w := fun hop hb => congrArg _ (commandOf_eq hop hb)
  unfold decodeCommand at h
  split at h
  case h_1 hop | h_2 hop | h_3 hop | h_6 hop =>
    obtain ⟨hb, rfl⟩ := decodeBare_ok h
    exact ⟨word hop hb, rfl⟩
  case h_4 hop | h_5 hop =>
    cases h
    exact ⟨word hop rfl, rfl⟩
  case h_7 => cases h

/-! The fields of a transformer code (30_encoding.md R81, R82, R83). -/

theorem codeOf_eq_zero_iff (d p : BitVec 2) (c : BitVec 4) : codeOf d p c = 0#8 ↔ d = 0#2 ∧ p = 0#2 ∧ c = 0#4 := by
  revert d p c
  decide

theorem codeOf_append_eq_zero_iff (d1 d0 : BitVec 1) (p : BitVec 2) (c : BitVec 4) :
    codeOf (d1 ++ d0) p c = 0#8 ↔ d1 = 0#1 ∧ d0 = 0#1 ∧ p = 0#2 ∧ c = 0#4 := by
  revert d1 d0 p c
  decide

theorem accumulates_codeOf_append (d1 d0 : BitVec 1) (p : BitVec 2) (c : BitVec 4) :
    accumulates (codeOf (d1 ++ d0) p c) = (d0 == 1#1) := by
  revert d1 d0 p c
  decide

@[simp] theorem diffHigh_codeOf_append (d1 d0 : BitVec 1) (p : BitVec 2) (c : BitVec 4) : diffHigh (codeOf (d1 ++ d0) p c) = d1 := by
  revert d1 d0 p c
  decide

/-- `diff_mode` is its bit 1 and the bit that picks the horizontal branch. -/
theorem diffHigh_append (code : Byte) : diffHigh code ++ BitVec.ofBool (accumulates code) = diffMode code := by
  revert code
  decide

/-- The verbatim code is one instruction, whatever sub-unit it is addressed to. -/
@[simp] theorem decodeRow_zero (u : SubUnit) : decodeRow u 0 = .xfVerbatim := rfl

/-! A nonzero code at a sub-unit is the encoding of the row read there (30_encoding.md R91). -/

theorem encode_decodeSelector (code : Byte) : encode (decodeSelector code) = .row .psel code := by
  have e := codeOf_fields code
  have values : ∀ p : BitVec 2, p = 0 ∨ p = 1 ∨ p = 2 ∨ p = 3 := by decide
  unfold decodeSelector
  rcases values (permSelector code) with h | h | h | h <;> rw [h] at e ⊢ <;> exact congrArg _ e

theorem encode_decodeColor (code : Byte) : encode (decodeColor code) = .row .cpl code := by
  have e := codeOf_fields code
  unfold decodeColor
  rcases color_values (colorOp code) with h | h | h | h | h | h | h | h | h | h | h | h | h | h | h | h <;>
    rw [h] at e ⊢ <;> exact congrArg _ e

theorem encode_decodeHorizontal (code : Byte) : encode (decodeHorizontal code) = .row .hdp code := by
  have e := codeOf_fields code
  rw [← diffHigh_append] at e
  unfold decodeHorizontal
  cases h : accumulates code <;> rw [h] at e <;> exact congrArg _ e

theorem encode_decodeRow {code : Byte} (u : SubUnit) (h : code ≠ 0) : encode (decodeRow u code) = .row u code := by
  simp only [decodeRow, h, if_false]
  cases u
  · exact encode_decodeSelector code
  · exact encode_decodeColor code
  · exact encode_decodeHorizontal code
  · exact congrArg _ (codeOf_fields code)

/-- A row other than XF_VERBATIM is well-formed exactly when its code is not 0x00. -/
theorem wf_iff_of_encode_row {i : Instr} {u : SubUnit} {code : Byte} (he : encode i = .row u code) (hi : i ≠ .xfVerbatim) :
    i.wf = true ↔ code ≠ 0 := by
  cases i <;> cases he
  case xfVerbatim => contradiction
  case hdCapture | hdAccum => simp [Instr.wf, codeOf_append_eq_zero_iff, imp_iff_not_or, or_assoc]
  all_goals simp [Instr.wf, codeOf_eq_zero_iff, imp_iff_not_or, or_assoc]

/-- What a sub-unit reads in a row's own code is the row: its fixed field picks the row, the free fields are its operands. -/
theorem decodeRow_of_encode {i : Instr} {u : SubUnit} {code : Byte} (he : encode i = .row u code) (hc : code ≠ 0) :
    decodeRow u code = i := by
  cases i <;> cases he <;> simp only [decodeRow, hc, if_false]
  case xfVerbatim => contradiction
  case ps0 | ps1 | ps2 | ps3 => simp [decodeSelector]
  case hdCapture | hdAccum => simp [decodeHorizontal, accumulates_codeOf_append, -accumulates_codeOf]
  case vdAdd => simp
  all_goals simp [decodeColor]

/-- A command is read back from its word. -/
theorem decodeCommand_of_encode {i : Instr} {w : BitVec 12} (he : encode i = .command w) : decodeCommand w = .ok i := by
  cases i <;> cases he
  case arrWrite | blkXform => simp [decodeCommand]
  case ctxLoad | permBuild | esbClear | blkEmit => simp [decodeCommand, decodeBare_of_zero]

/-- Settles O1: a command is read back from its word; a row other than XF_VERBATIM has, being well-formed, a nonzero code, in which its
sub-unit reads that row. -/
theorem encodeThenDecode : Obligations.EncodeThenDecode := by
  intro i hwf
  cases he : encode i with
  | command w => exact decodeCommand_of_encode he
  | row u code =>
    by_cases hi : i = .xfVerbatim
    · subst hi
      cases he
      rfl
    · exact congrArg _ (decodeRow_of_encode he ((wf_iff_of_encode_row he hi).mp hwf))

/-- Settles O2: a command word by the opcode it decodes at, a code by the sub-unit that reads it; XF_VERBATIM is no row of a nonzero
code, since it encodes to 0x00. -/
theorem decodedWordEncodesBack : Obligations.DecodedWordEncodesBack := by
  refine ⟨fun w i h => encode_of_decodeCommand h, fun u code hc => ?_, fun u => ⟨decodeRow_zero u, rfl⟩⟩
  have he := encode_decodeRow u hc
  refine ⟨he, (wf_iff_of_encode_row he fun hv => ?_).mpr hc⟩
  rw [hv] at he
  cases he
  contradiction

/-- Settles O3: each word is read by evaluation; the code 0x00 is `decodeRow_zero`. -/
theorem specWordsDecode : Obligations.SpecWordsDecode :=
  ⟨rfl, rfl, rfl, rfl, rfl, rfl, rfl, rfl, rfl, rfl, rfl, rfl, rfl, decodeRow_zero⟩

/-! The words the decoder rejects (30_encoding.md R88; 60_exceptions.md R230, R237). -/

theorem decodeCommand_of_reserved {w : BitVec 12} (h : opcodeOf w = 0 ∨ 7 ≤ (opcodeOf w).toNat) :
    decodeCommand w = .error (.reservedOpcode (opcodeOf w)) := by
  have hop : (opcodeOf w).toNat = 0 ∨ 7 ≤ (opcodeOf w).toNat := h.imp_left (congrArg BitVec.toNat)
  unfold decodeCommand
  split
  case h_7 => rfl
  all_goals omega

theorem decodeCommand_of_operand {w : BitVec 12} (hop : opcodeOf w ∈ ([1, 2, 3, 6] : List (BitVec 4)))
    (hb : operandOf w ≠ 0) : decodeCommand w = .error (.nonzeroOperand (opcodeOf w)) := by
  simp only [List.mem_cons, List.not_mem_nil, or_false] at hop
  rcases hop with h | h | h | h <;> simp [decodeCommand, h, decodeBare_of_ne _ hb]

theorem nextTurn_of_reject {s : State} {it : PortWord} {rest : List PortWord} {r : Reject} (hr : s.rst = false)
    (hs : s.stuck = false) (hp : s.port = it :: rest) (hd : decode it = .error r) : nextTurn s = .reject r := by
  simp [nextTurn, hr, hs, hp, hd]

/-- A rejected word leaves the port and takes IllegalCommand; the flags are not looked at. -/
theorem step_of_reject {s : State} {it : PortWord} {rest : List PortWord} {r : Reject} (hr : s.rst = false)
    (hs : s.stuck = false) (hp : s.port = it :: rest) (hd : decode it = .error r) :
    step s = .next (takeIllegalCommand r { s with port := rest }) := by
  rw [← takeWord_of_port hp]
  simp only [step, nextTurn_of_reject hr hs hp hd]

/-- Settles O7: the decoder rejects the word, with a cause that gives the fault its detail. -/
theorem reservedWordsTakeIllegalCommand : Obligations.ReservedWordsTakeIllegalCommand := by
  intro s w rest hr hs hp hf
  refine ⟨fun hop => ?_, fun hop hb => ?_⟩
  · rw [step_of_reject hr hs hp (decodeCommand_of_reserved hop)]
    exact congrArg _ (takeFault_of_clear hf)
  · rw [step_of_reject hr hs hp (decodeCommand_of_operand hop hb)]
    exact congrArg _ (takeFault_of_clear hf)

/-! The rows of a code one after another (30_encoding.md R91; 43_block_transform.md R162). -/

theorem execAll_cons {i : Instr} {is : List Instr} {s t : State} (h : exec i s = .next t) :
    execAll (i :: is) s = execAll is t := by
  simp only [execAll, h]

theorem rowsOf_of_ne {code : Byte} (h : code ≠ 0) : rowsOf code =
    [decodeRow .psel code, decodeRow .cpl code, decodeRow .hdp code, decodeRow .vdp code] := if_neg h

theorem transform_of_ne {code : Byte} (h : code ≠ 0) (s : State) :
    transform code s = vertical (horizontal code (applyColor (colorOp code) (scatter (permSelector code).toNat s))) := if_neg h

/-- The rows of a legal code, run in order, do what steps 2 to 6 of BLK_XFORM do: no row changes FAULT or the number of planes, so each
finds the code as legal as the one before it did. -/
theorem execAll_rowsOf {s : State} {code : Byte} (hf : s.status.fault = false) (hl : LegalColor s.ctx.channels (colorOp code)) :
    execAll (rowsOf code) s = .next (transform code s) := by
  have legal := (legalCode_iff_legalColor _ _).mpr hl
  by_cases hc : code = 0
  · subst hc
    exact execAll_cons (runRow_of_legal hf legal)
  · rw [rowsOf_of_ne hc, transform_of_ne hc]
    have row : ∀ {t e : State}, t.status = s.status → t.ctx = s.ctx → runRow code e t = .next e := fun hs hg =>
      runRow_of_legal (by rw [hs, hf]) (by rw [hg, legal])
    refine (execAll_cons ((exec_selector _ hc).trans (row rfl rfl))).trans ?_
    refine (execAll_cons ((exec_color _ hc).trans (row (by simp) (by simp)))).trans ?_
    refine (execAll_cons ((exec_horizontal _ hc).trans (row (by simp) (by simp)))).trans ?_
    exact execAll_cons ((exec_vertical _ hc).trans (row (by simp) (by simp)))

/-- Settles O35: the rows leave `transform`'s state, to which BLK_XFORM adds the flags and ARRP. -/
theorem transformIsItsRowsInOrder : Obligations.TransformIsItsRowsInOrder := by
  intro s code hr hl
  exact ⟨transform code s, execAll_rowsOf hr.clear hl, execBlkXform_of_ready hr hl⟩

/-! Bit 1 of `diff_mode` (30_encoding.md R82; 43_block_transform.md R179 (c)). -/

theorem colorOp_or_high (code : Byte) : colorOp (code ||| 0x80) = colorOp code := by
  revert code
  decide

theorem permSelector_or_high (code : Byte) : permSelector (code ||| 0x80) = permSelector code := by
  revert code
  decide

theorem accumulates_or_high (code : Byte) : accumulates (code ||| 0x80) = accumulates code := by
  revert code
  decide

theorem or_high_ne_zero (code : Byte) : code ||| 0x80 ≠ 0 := by
  revert code
  decide

/-- The transform of a nonzero code does not look at bit 1 of `diff_mode`. -/
theorem transform_or_high {code : Byte} (h : code ≠ 0) (s : State) : transform (code ||| 0x80) s = transform code s := by
  rw [transform_of_ne (or_high_ne_zero code), transform_of_ne h, colorOp_or_high, permSelector_or_high]
  simp only [horizontal, accumulates_or_high]

theorem blockTransformed_of_legal {s : State} {code : Byte} (hl : LegalColor s.ctx.channels (colorOp code)) :
    blockTransformed code s = completeTransform (transform code s) := if_pos ((legalCode_iff_legalColor _ _).mpr hl)

/-- Settles O38: both codes are legal, so behind the same gate both effects are the same transform. -/
theorem diffModeHighBitHasNoEffect : Obligations.DiffModeHighBitHasNoEffect := by
  intro s code hlow hl
  have hc : code ≠ 0 := fun h => hlow (by rw [h]; rfl)
  have hl' : LegalColor s.ctx.channels (colorOp (code ||| 0x80)) := by rwa [colorOp_or_high]
  have same : blockTransformed (code ||| 0x80) s = blockTransformed code s := by
    rw [blockTransformed_of_legal hl', blockTransformed_of_legal hl, transform_or_high hc]
  exact congrArg (runCommand 5 s.status.readyBlkXform · s) same

end Sys2Proof.Machine
end

section
/-! PROOFS. The context validator's statements (40_context_validator.md): the fields CTX_LOAD reads, the checks in their order, and
what a load that passes, or fails, leaves. -/

namespace Sys2Proof.Machine

/-! The stream fields (40_context_validator.md R100, R101). -/

theorem ofNat_mod_byte (v : Nat) : BitVec.ofNat 8 (v % 2 ^ 8) = BitVec.ofNat 8 v :=
  BitVec.eq_of_toNat_eq (by simp)

/-- A read of 8 raw bits that is answered: the answer's low byte, and the answer after it is next. -/
theorem FrontEnd.readBits_byte {fe : FrontEnd} {v : Nat} (h : fe.answer 0 fe.calls = some v) :
    ∃ f, fe.readBits 8 = (some (v % 2 ^ 8), f) ∧
      f = { fe with script := fe.script.drop 1, calls := fe.calls + 1, rawBits := fe.rawBits + 8 } ∧
      ∀ j call, f.answer j call = fe.answer (j + 1) call :=
  ⟨_, readBits_of_answer 8 h, rfl, fun j call => answer_drop fe _ j call rfl⟩

/-- The next four answers become the four fields, in order. -/
theorem readFields_of_answers {fe : FrontEnd} {v o e b : Nat} (hv : fe.answer 0 fe.calls = some v)
    (ho : fe.answer 1 (fe.calls + 1) = some o) (he : fe.answer 2 (fe.calls + 2) = some e)
    (hb : fe.answer 3 (fe.calls + 3) = some b) :
    readFields fe = (some ⟨BitVec.ofNat 8 v, BitVec.ofNat 8 o, BitVec.ofNat 8 e, BitVec.ofNat 8 b⟩,
      { fe with script := fe.script.drop 4, calls := fe.calls + 4, rawBits := fe.rawBits + 32 }) := by
  obtain ⟨f1, r1, e1, a1⟩ := FrontEnd.readBits_byte hv
  obtain ⟨f2, r2, e2, a2⟩ := FrontEnd.readBits_byte (fe := f1) (v := o) (by rw [a1, e1, ho])
  obtain ⟨f3, r3, e3, a3⟩ := FrontEnd.readBits_byte (fe := f2) (v := e) (by rw [a2, a1, e2, e1, he])
  obtain ⟨f4, r4, e4, -⟩ := FrontEnd.readBits_byte (fe := f3) (v := b) (by rw [a3, a2, a1, e3, e2, e1, hb])
  simp only [readFields, r1, r2, r3, r4, ofNat_mod_byte]
  simp [e4, e3, e2, e1]

/-- Past the script's end every answer is a free value. -/
theorem FrontEnd.answer_of_script_nil {fe : FrontEnd} (h : fe.script = []) (j call : Nat) :
    fe.answer j call = some (Config.feAnswer call) := by
  simp [FrontEnd.answer, h]

/-- Settles O13: four scripted answers, or four free ones, through `readFields_of_answers`. -/
theorem fourFieldsReadInOrder : Obligations.FourFieldsReadInOrder := by
  refine ⟨fun fe v o e b rest h => ?_, fun fe h => ?_⟩
  · have scripted := readFields_of_answers (fe := fe) (v := v.toNat) (o := o.toNat) (e := e.toNat) (b := b.toNat)
    simpa [FrontEnd.answer, h] using scripted
  · have free := FrontEnd.answer_of_script_nil h
    have answered := readFields_of_answers (free 0 _) (free 1 _) (free 2 _) (free 3 _)
    rw [h, List.drop_nil, ← h] at answered
    exact ⟨_, answered⟩

/-! Each check of CTX_LOAD (40_context_validator.md R102 to R110). -/

/-- Settles O14: the branches of R102 in their order. -/
theorem channelCountRule : Obligations.ChannelCountRule := by
  intro c
  refine ⟨fun hf hd => if_pos ⟨hf, hd⟩, fun hf hd ha => ?_, fun hf hd ha => ?_, fun hf => ?_, fun hf => ?_⟩
  · simp [channelCount, hf, ha, Nat.not_le.mpr hd]
  · simp [channelCount, hf, ha, Nat.not_le.mpr hd]
  · simp [channelCount, hf]
  · rcases hf with hf | hf <;> simp [channelCount, hf]

/-- Only the two known families have a channel count (R102, R103). -/
theorem family_of_channelCount {c : Context} {ch : Nat} (h : channelCount c = some ch) : c.fmtFamily = 0 ∨ c.fmtFamily = 1 := by
  unfold channelCount at h
  split at h
  case isTrue hf => exact .inl hf.1
  split at h
  case isTrue hf => exact .inl hf.1
  split at h
  case isTrue hf => exact .inl hf
  split at h
  case isTrue hf => exact .inr hf
  cases h

theorem metadataOk_iff {c : Context} : metadataOk c = true ↔ c.opTable = 0 ∧ c.encodeType.extractLsb' 1 7 = 0 := by
  simp [metadataOk]

theorem capacityFault_of_degree {cfg : Params} {c : Context} (h : within cfg.degMax c.degree = false) :
    capacityFault cfg c = some (.resourceLimit, 1) := by
  simp [capacityFault, h]

theorem capacityFault_of_grid {cfg : Params} {c : Context} (hd : within cfg.degMax c.degree = true)
    (h : within cfg.wbMax c.widthBlocks = false ∨ within cfg.hbMax c.heightBlocks = false) :
    capacityFault cfg c = some (.resourceLimit, 2) := by
  rcases h with h | h <;> simp [capacityFault, hd, h]

theorem capacityFault_of_within {cfg : Params} {c : Context} (hd : within cfg.degMax c.degree = true)
    (hw : within cfg.wbMax c.widthBlocks = true) (hh : within cfg.hbMax c.heightBlocks = true) :
    capacityFault cfg c = none := by
  simp [capacityFault, hd, hw, hh]

/-! The checks in their order (40_context_validator.md R108): the first that fails decides. -/

section
variable {cfg : Params} {c : Context} {ch : Nat}

theorem checkContext_of_unknownFormat (h : channelCount c = none) : checkContext cfg c = .error (.corruptData, 1) := by
  simp only [checkContext, h]

theorem checkContext_of_metadata (hc : channelCount c ≠ none) (h : ¬ metadataOk c = true) :
    checkContext cfg c = .error (.corruptData, 2) := by
  obtain ⟨ch, hc⟩ := Option.ne_none_iff_exists'.mp hc
  simp only [checkContext, hc, h, if_false, Bool.false_eq_true]

theorem checkContext_of_versionFault (hc : channelCount c ≠ none) (hm : metadataOk c = true) {f : FaultKind × Byte}
    (h : versionFault c = some f) : checkContext cfg c = .error f := by
  obtain ⟨ch, hc⟩ := Option.ne_none_iff_exists'.mp hc
  simp only [checkContext, hc, hm, h, if_true]

theorem checkContext_of_degree_zero (hc : channelCount c ≠ none) (hm : metadataOk c = true) (hv : versionFault c = none)
    (h : c.degree = 0) : checkContext cfg c = .error (.corruptData, 3) := by
  obtain ⟨ch, hc⟩ := Option.ne_none_iff_exists'.mp hc
  simp only [checkContext, hc, hm, hv, h, if_true]

theorem checkContext_of_capacityFault (hc : channelCount c = some ch) (hm : metadataOk c = true) (hv : versionFault c = none)
    (hd : c.degree ≠ 0) {f : FaultKind × Byte} (h : capacityFault cfg (withGeometry ch c) = some f) :
    checkContext cfg c = .error f := by
  simp only [checkContext, hc, hm, hv, hd, h, if_true, if_false]

theorem checkContext_of_pass (hc : channelCount c = some ch) (hm : metadataOk c = true) (hv : versionFault c = none)
    (hd : c.degree ≠ 0) (h : capacityFault cfg (withGeometry ch c) = none) :
    checkContext cfg c = .ok (withGeometry ch c) := by
  simp only [checkContext, hc, hm, hv, hd, h, if_true, if_false]

end

/-! The two endings of an answered CTX_LOAD (40_context_validator.md R111, R112). -/

section
variable {s : State} {q : StreamFields} {fe : FrontEnd}

/-- A context that passed is committed (R111). -/
theorem exec_ctxLoad_of_ok (hq : readFields s.fe = (some q, fe)) {c : Context}
    (h : checkContext s.cfg (latchedContext s q) = .ok c) :
    exec .ctxLoad s = .next { s with
      status := Status.afterLoad (c.widthBlocks == 0 || c.heightBlocks == 0)
      err := 0, errInfo := 0, ctx := c, blkX := 0, blkY := 0, arrp := 0, fe := fe } := by
  refine (execCtxLoad_of_read hq).trans ?_
  rw [loadContext, h]
  rfl

/-- A check that fails ends CTX_LOAD in its fault (R112): the new call's flags are clear, so the fault is recorded. -/
theorem exec_ctxLoad_of_error (hq : readFields s.fe = (some q, fe)) {kind : FaultKind} {info : Byte}
    (h : checkContext s.cfg (latchedContext s q) = .error (kind, info)) :
    exec .ctxLoad s = .next { s with
      status := { Status.reset with fault := true }
      err := kind.number, errInfo := info, ctx := unspecifiedGeometry s.freeCtr (latchedContext s q)
      blkX := 0, blkY := 0, arrp := 0, fe := fe, freeCtr := s.freeCtr + 1 } := by
  refine (execCtxLoad_of_read hq).trans ?_
  rw [loadContext, h]
  rfl

theorem loadFails_of_error (hq : readFields s.fe = (some q, fe)) {kind : FaultKind} {info : Byte}
    (h : checkContext s.cfg (latchedContext s q) = .error (kind, info)) : LoadFails s q fe kind.number info :=
  ⟨_, exec_ctxLoad_of_error hq h, rfl, rfl, rfl, rfl, rfl, rfl, rfl, rfl, rfl, rfl, rfl⟩

end

/-- Settles O15: every check passes, and the committed context is the latched one with its geometry. -/
theorem ctxLoadCommits : Obligations.CtxLoadCommits := by
  rintro s q fe ch h size columns rows hq rfl hc hop htriple hd rfl rfl rfl hdeg hcols hrows
  obtain ⟨henc, -⟩ := of_mem_legalTriples htriple
  have pass : checkContext s.cfg (latchedContext s q) = .ok (withGeometry ch (latchedContext s q)) :=
    checkContext_of_pass hc (metadataOk_iff.mpr ⟨hop, henc⟩) ((versionFault_eq_none henc).mpr htriple) hd
      (capacityFault_of_within hdeg hcols hrows)
  rw [exec_ctxLoad_of_ok hq pass, Bool.decide_or]
  rfl

/-- Settles O16: the equation of `checkContext` for the first check that fails. -/
theorem ctxLoadFailsInOrder : Obligations.CtxLoadFailsInOrder := by
  rintro s q fe h hq rfl
  refine ⟨fun hc => loadFails_of_error hq (checkContext_of_unknownFormat hc), fun hc hbad => ?_, fun hc hop henc => ?_⟩
  · refine loadFails_of_error hq (checkContext_of_metadata hc fun hm => ?_)
    obtain ⟨hop, henc⟩ := metadataOk_iff.mp hm
    exact hbad.elim (· hop) (· henc)
  have hm : metadataOk (latchedContext s q) = true := metadataOk_iff.mpr ⟨hop, henc⟩
  refine ⟨fun hver => ?_, fun hver htriple => ?_, fun htriple => ?_⟩
  · exact loadFails_of_error hq (checkContext_of_versionFault hc hm (versionFault_of_unknown hver))
  · exact loadFails_of_error hq (checkContext_of_versionFault hc hm (versionFault_of_known henc hver htriple))
  have hv : versionFault (latchedContext s q) = none := (versionFault_eq_none henc).mpr htriple
  obtain ⟨ch, hch⟩ := Option.ne_none_iff_exists'.mp hc
  refine ⟨fun hd => ?_, fun hd hdeg => ?_, fun hd hdeg hgrid => ?_⟩
  · exact loadFails_of_error hq (checkContext_of_degree_zero hc hm hv hd)
  · exact loadFails_of_error hq (checkContext_of_capacityFault hch hm hv hd (capacityFault_of_degree hdeg))
  · exact loadFails_of_error hq (checkContext_of_capacityFault hch hm hv hd (capacityFault_of_grid hdeg hgrid))

/-- Settles O17: a load that failed leaves CTX_VALID clear, so the checks passed, and what they let pass is `checkContext_ok`. -/
theorem validContextIsOneOfFive : Obligations.ValidContextIsOneOfFive := by
  intro s t q fe hq ht hvalid
  cases hcheck : checkContext s.cfg (latchedContext s q) with
  | error f =>
    cases (exec_ctxLoad_of_error hq hcheck).symm.trans ht
    cases hvalid
  | ok c =>
    cases (exec_ctxLoad_of_ok hq hcheck).symm.trans ht
    obtain ⟨ch, hc, hm, hv, hd, rfl⟩ := checkContext_ok hcheck
    obtain ⟨hop, henc⟩ := metadataOk_iff.mp hm
    exact ⟨hop, (versionFault_eq_none henc).mp hv, family_of_channelCount hc, hd, rfl⟩

/-- Settles O18: a stuck load writes the front-end and the mark, an answered one what `loadContext_cases` lists. -/
theorem ctxLoadFrame : Obligations.CtxLoadFrame := by
  intro s t h
  rcases execCtxLoad_cases h with ⟨_, rfl⟩ | ⟨q, fe, rfl⟩
  · and_intros <;> rfl
  · rcases loadContext_cases q fe s with ⟨_, _, e⟩ | ⟨_, _, _, _, e⟩ <;> rw [e] <;> and_intros <;> rfl

end Sys2Proof.Machine
end

section
/-! PROOFS. The permutation table's statements (41_permutation_rom.md): what PERM_BUILD leaves, how its four segments relate, and the
rows that scatter a block through them. -/

namespace Sys2Proof.Machine

/-! PERM_BUILD (R120 to R128). -/

section
variable {s : State} {c y x k : Nat}

/-- PERM_BUILD under a context. -/
theorem exec_permBuild_of_ctxValid (hf : s.status.fault = false) (hv : s.status.ctxValid = true) :
    exec .permBuild s = .next (permBuilt s) :=
  runCommand_of_ready hf hv

/-- The entries of sample `(c, y, x)`: planar positions in segments 1 and 2, interleaved ones in segments 3 and 4 (R121 to R124). -/
theorem permBuilt_read (hA : s.ctx.blockArea = s.ctx.blockSize * s.ctx.blockSize)
    (hN : s.ctx.blockSamples = s.ctx.blockArea * s.ctx.channels) (hc : c < s.ctx.channels) (hy : y < s.ctx.blockSize)
    (hx : x < s.ctx.blockSize) :
    Memory.read (permBuilt s).perm (planarAddr s.ctx c y x) = some (planarAddr s.ctx c y x) ∧
    Memory.read (permBuilt s).perm (s.ctx.blockSamples + planarAddr s.ctx c y x) = some (planarAddr s.ctx c x y) ∧
    Memory.read (permBuilt s).perm (2 * s.ctx.blockSamples + ((y * s.ctx.blockSize + x) * s.ctx.channels + c)) =
      some (planarAddr s.ctx c y x) ∧
    Memory.read (permBuilt s).perm (3 * s.ctx.blockSamples + ((y * s.ctx.blockSize + x) * s.ctx.channels + c)) =
      some (planarAddr s.ctx c x y) := by
  have entries := (buildPerm_spec hA hN s.perm).1 c y x hc hy hx
  simp only [permAddr, Nat.zero_mul, Nat.zero_add, Nat.one_mul] at entries
  exact entries

/-- Segment 4 is segment 3 followed by segment 2: the interleaved position of a sample goes to its planar one, and that to the
transposed one (R127). -/
theorem permBuilt_segment_four (hg : s.ctx.Geometry) (hk : k < s.ctx.blockSamples) :
    (permBuilt s).permAt (3 * s.ctx.blockSamples + k) =
      (permBuilt s).permAt (s.ctx.blockSamples + (permBuilt s).permAt (2 * s.ctx.blockSamples + k)) := by
  obtain ⟨c, y, x, hc, hy, hx, rfl⟩ := exists_pixel hg.area hg.samples hk
  obtain ⟨-, second, third, fourth⟩ := permBuilt_read hg.area hg.samples hc hy hx
  rw [permAt_of_read fourth, permAt_of_read third, permAt_of_read second]

/-- Segment 2 is its own inverse: it transposes a sample's row and column, twice (R122). -/
theorem permBuilt_segment_two_involutive (hg : s.ctx.Geometry) (hk : k < s.ctx.blockSamples) :
    (permBuilt s).permAt (s.ctx.blockSamples + (permBuilt s).permAt (s.ctx.blockSamples + k)) = k := by
  obtain ⟨c, y, x, hc, hy, hx, rfl⟩ := exists_planar hg.area hg.samples hk
  obtain ⟨-, transposed, -⟩ := permBuilt_read hg.area hg.samples hc hy hx
  obtain ⟨-, back, -⟩ := permBuilt_read hg.area hg.samples hc hx hy
  rw [permAt_of_read transposed, permAt_of_read back]

/-- With one channel the interleaved position of a sample is its planar one, so segments 3 and 4 repeat 1 and 2 (R127). -/
theorem permBuilt_one_channel (hg : s.ctx.Geometry) (hone : s.ctx.channels = 1) (hk : k < s.ctx.blockSamples) :
    (permBuilt s).permAt (2 * s.ctx.blockSamples + k) = (permBuilt s).permAt k ∧
    (permBuilt s).permAt (3 * s.ctx.blockSamples + k) = (permBuilt s).permAt (s.ctx.blockSamples + k) := by
  obtain ⟨c, y, x, hc, hy, hx, rfl⟩ := exists_planar hg.area hg.samples hk
  obtain ⟨first, second, third, fourth⟩ := permBuilt_read hg.area hg.samples hc hy hx
  have position : (y * s.ctx.blockSize + x) * s.ctx.channels + c = planarAddr s.ctx c y x := by
    obtain rfl : c = 0 := by omega
    rw [planarAddr, hone, Nat.mul_one, Nat.zero_mul, Nat.zero_add, Nat.add_zero]
  rw [position] at third fourth
  rw [permAt_of_read first, permAt_of_read second, permAt_of_read third, permAt_of_read fourth]
  exact ⟨rfl, rfl⟩

end

/-- Settles O20: the entries are `permBuilt_read`'s, and past the four segments PERM reads as before. -/
theorem permBuildFillsSegments : Obligations.PermBuildFillsSegments := by
  intro s hf hv hA hN
  obtain ⟨-, past⟩ := buildPerm_spec hA hN s.perm
  exact ⟨permBuilt s, exec_permBuild_of_ctxValid hf hv, fun _ _ _ hc hy hx => permBuilt_read hA hN hc hy hx, past, rfl⟩

/-- Settles O21: the table PERM_BUILD leaves is `permBuilt_bijective`'s. -/
theorem permSegmentsAreBijections : Obligations.PermSegmentsAreBijections := by
  intro s hf hv hg
  exact ⟨permBuilt s, exec_permBuild_of_ctxValid hf hv, permBuilt_bijective s hg.area hg.samples⟩

/-- Settles O22: each relation holds entry by entry, at the sample the entry's position names. -/
theorem permSegmentRelations : Obligations.PermSegmentRelations := by
  intro s hf hv hg
  exact ⟨permBuilt s, exec_permBuild_of_ctxValid hf hv, fun k hk =>
    ⟨permBuilt_segment_four hg hk, permBuilt_segment_two_involutive hg hk, fun hone => permBuilt_one_channel hg hone hk⟩⟩

/-! The scatter rows (R129; 43_block_transform.md R165, R166). -/

/-- A scatter row of a legal code does the scatter of its segment; the code of XF_VERBATIM, 0x00, is legal for every context. -/
theorem exec_scatterRow {s : State} {d : BitVec 2} {c : BitVec 4} {i : Instr} {p : Nat}
    (hi : (i, p) ∈ ([(.ps0 d c, 0), (.ps1 d c, 1), (.ps2 d c, 2), (.ps3 d c, 3), (.xfVerbatim, 0)] : List (Instr × Nat)))
    (hf : s.status.fault = false) (hl : LegalColor s.ctx.channels c) : exec i s = .next (scatter p s) := by
  have legal : ∀ q, legalCode s.ctx.channels (codeOf d q c) = true := fun q => by
    rwa [legalCode_iff_legalColor, colorOp_codeOf]
  have legal_zero : legalCode s.ctx.channels 0 = true := (legalCode_iff_legalColor _ _).mpr (.inr (by decide))
  simp only [List.mem_cons, List.not_mem_nil, or_false, Prod.mk.injEq] at hi
  rcases hi with ⟨rfl, rfl⟩ | ⟨rfl, rfl⟩ | ⟨rfl, rfl⟩ | ⟨rfl, rfl⟩ | ⟨rfl, rfl⟩
  case inr.inr.inr.inr => exact runRow_of_legal hf legal_zero
  all_goals exact runRow_of_legal hf (legal _)

/-- A scatter through a bijective segment: the sample at position `k` goes to the index written there (R129). -/
theorem scatter_read_of_entry {s : State} {p k j : Nat} (hb : s.SegmentBijective p) (hk : k < s.ctx.blockSamples)
    (hj : Memory.read s.perm (permAddr s.ctx p k) = some j) : Memory.read (scatter p s).bout j = some (s.arrAt k) := by
  have sample := scatter_read (permAt_inj hb) hk
  rwa [permAt_of_read hj] at sample

/-- Settles O25: each row is the scatter through its segment, which writes BOUT below `N` only. -/
theorem scatterRowsFollowSegment : Obligations.ScatterRowsFollowSegment := by
  intro s d c i p hi hf hl hb
  exact ⟨scatter p s, exec_scatterRow hi hf hl, fun _ _ hk hj => scatter_read_of_entry hb hk hj,
    fun _ ha => scatter_bout_other hb ha, rfl⟩

end Sys2Proof.Machine
end

section
/-! PROOFS. The colour predictor table's statements (42_color_predictor_lut.md): which rows change nothing, which add a plane into
others, and what a code that names an absent plane does. -/

namespace Sys2Proof.Machine

/-! The rows as entries of the table (R140, R158; 43_block_transform.md R163). -/

/-- A row of the table is the entry its own code's colour op selects, behind the gate of that code. -/
theorem exec_of_encode_color {i : Instr} {code : Byte} (he : encode i = .row .cpl code) (s : State) :
    exec i s = runRow code (applyColor (colorOp code) s) s := by
  cases i <;> cases he <;> rw [colorOp_codeOf] <;> rfl

/-- A nonzero code at any sub-unit is a row behind the gate of that code. -/
theorem exec_decodeRow (u : SubUnit) {code : Byte} (hc : code ≠ 0) (s : State) :
    ∃ effect, exec (decodeRow u code) s = runRow code effect s := by
  cases u
  · exact ⟨_, exec_selector s hc⟩
  · exact ⟨_, exec_color s hc⟩
  · exact ⟨_, exec_horizontal s hc⟩
  · exact ⟨_, exec_vertical s hc⟩

theorem legalCode_eq_false {channels : Nat} {code : Byte} (h : ¬ LegalColor channels (colorOp code)) :
    legalCode channels code = false :=
  Bool.eq_false_iff.mpr (h ∘ (legalCode_iff_legalColor _ _).mp)

/-- A legal row with nothing to do answers the state it was given, faulted or not. -/
theorem runRow_self {code : Byte} {s : State} (hl : legalCode s.ctx.channels code = true) : runRow code s s = .next s := by
  cases hf : s.status.fault
  · exact runRow_of_legal hf hl
  · exact runRow_of_fault hf

/-- The gate of a row whose colour op adds planes: it passes three planes and faults with the row's code below. -/
theorem exec_addingRow {i : Instr} {d p : BitVec 2} {c : BitVec 4} {s : State} (he : encode i = .row .cpl (codeOf d p c))
    (hc : identityColor c = false) (hf : s.status.fault = false) :
    (3 ≤ s.ctx.channels → exec i s = .next (applyColor c s)) ∧
    (s.ctx.channels < 3 → ∃ code, encode i = .row .cpl code ∧ exec i s = .next (faulted s 5 code)) := by
  have gate := exec_of_encode_color he s
  rw [colorOp_codeOf] at gate
  have legal_iff : legalCode s.ctx.channels (codeOf d p c) = true ↔ 3 ≤ s.ctx.channels := by
    simp [legalCode_iff, hc]
  refine ⟨fun h3 => gate.trans (runRow_of_legal hf (legal_iff.mpr h3)),
    fun h3 => ⟨_, he, gate.trans (runRow_of_illegal hf ?_)⟩⟩
  exact Bool.eq_false_iff.mpr fun hl => Nat.not_le_of_lt h3 (legal_iff.mp hl)

/-- Settles O12: no colour op of the code 0x00 adds planes, so at every sub-unit the code is a row behind its gate, which faults;
BLK_XFORM passes its gate and faults at the same test. -/
theorem absentPlaneTakesIllegalCode : Obligations.AbsentPlaneTakesIllegalCode := by
  intro s code hf hl
  have illegal := legalCode_eq_false hl
  refine ⟨fun u => ?_, fun hr => ?_⟩
  · have hc : code ≠ 0 := by
      rintro rfl
      exact hl (.inr (by decide))
    obtain ⟨effect, row⟩ := exec_decodeRow u hc s
    exact row.trans (runRow_of_illegal hf illegal)
  · have effect : blockTransformed code s = faulted s 5 code := by
      rw [blockTransformed, illegal]
      exact takeFault_of_clear hf
    exact (runCommand_of_ready hf ((readyBlkXform_iff hf).mpr hr)).trans (congrArg _ effect)

/-! The entries that add planes (R140, R141). -/

theorem planeAddr_ne_of_outside {g : Context} {k i a : Nat}
    (ha : ¬ (k * g.blockArea ≤ a ∧ a < k * g.blockArea + g.blockArea)) (hi : i < g.blockArea) : planeAddr g k i ≠ a := by
  unfold planeAddr
  omega

/-- The single-target rows: the colour op each encodes is no identity and adds one plane into another. -/
theorem singleTarget_entry {d p : BitVec 2} {i : Instr} {t b : Nat}
    (hi : (i, t, b) ∈ ([(.cp1p0 d p, 1, 0), (.cp2p0 d p, 2, 0), (.cp0p1 d p, 0, 1), (.cp2p1 d p, 2, 1),
      (.cp0p2 d p, 0, 2), (.cp1p2 d p, 1, 2)] : List (Instr × Nat × Nat))) :
    ∃ c, encode i = .row .cpl (codeOf d p c) ∧ identityColor c = false ∧ t ≠ b ∧
      ∀ s, applyColor c s = addPlane t b s := by
  simp only [List.mem_cons, List.not_mem_nil, or_false, Prod.mk.injEq] at hi
  rcases hi with ⟨rfl, rfl, rfl⟩ | ⟨rfl, rfl, rfl⟩ | ⟨rfl, rfl, rfl⟩ | ⟨rfl, rfl, rfl⟩ | ⟨rfl, rfl, rfl⟩ |
    ⟨rfl, rfl, rfl⟩ <;>
    exact ⟨_, rfl, by decide, by decide, fun _ => rfl⟩

/-- The dual-target rows: the colour op each encodes is no identity and adds one plane into the two others. -/
theorem dualTarget_entry {d p : BitVec 2} {i : Instr} {t u b : Nat}
    (hi : (i, t, u, b) ∈ ([(.cp12p0 d p, 1, 2, 0), (.cp02p1 d p, 0, 2, 1), (.cp01p2 d p, 0, 1, 2)] :
      List (Instr × Nat × Nat × Nat))) :
    ∃ c, encode i = .row .cpl (codeOf d p c) ∧ identityColor c = false ∧ (t ≠ u ∧ t ≠ b ∧ u ≠ b) ∧
      ∀ s, applyColor c s = addPlanes t u b s := by
  simp only [List.mem_cons, List.not_mem_nil, or_false, Prod.mk.injEq] at hi
  rcases hi with ⟨rfl, rfl, rfl, rfl⟩ | ⟨rfl, rfl, rfl, rfl⟩ | ⟨rfl, rfl, rfl, rfl⟩ <;>
    exact ⟨_, rfl, by decide, by decide, fun _ => rfl⟩

/-- Settles O27: the row's colour op is an `addPlane`, which reads no sample it has written. -/
theorem singleTargetColorRows : Obligations.SingleTargetColorRows := by
  intro s d p i target base hi hf
  obtain ⟨c, he, hc, hne, entry⟩ := singleTarget_entry hi
  obtain ⟨passes, faults⟩ := exec_addingRow he hc hf
  rw [entry] at passes
  exact ⟨fun h3 => ⟨addPlane target base s, passes h3, fun _ hk => addPlane_read hne hk,
    fun _ ha => addPlane_other fun _ hk => planeAddr_ne_of_outside ha hk, rfl⟩, faults⟩

/-- Settles O28: the row's colour op is an `addPlanes`, whose base plane is neither target and so keeps its samples. -/
theorem dualTargetColorRows : Obligations.DualTargetColorRows := by
  intro s d p i target₁ target₂ base hi hf
  obtain ⟨c, he, hc, ⟨htu, htb, hub⟩, entry⟩ := dualTarget_entry hi
  obtain ⟨passes, faults⟩ := exec_addingRow he hc hf
  rw [entry] at passes
  obtain ⟨sums, others⟩ := addPlanes_invariant (s := s) htu htb hub
  exact ⟨fun h3 => ⟨addPlanes target₁ target₂ base s, passes h3, sums,
    fun a ht hu => others a fun _ hk => ⟨planeAddr_ne_of_outside ht hk, planeAddr_ne_of_outside hu hk⟩, rfl⟩, faults⟩

/-- Settles O29: whichever of its three answers the row gives, the fault and the unchanged state keep BOUT, and no colour op writes
past the third plane. -/
theorem fourthPlanePassesColorOps : Obligations.FourthPlanePassesColorOps := by
  intro s code a hc ha
  obtain ⟨t, row⟩ := runRow_next code (applyColor (colorOp code) s) s
  refine ⟨t, (exec_color s hc).trans row, ?_⟩
  obtain ⟨-, rfl⟩ | ⟨-, -, rfl⟩ | ⟨-, -, rfl⟩ := runRow_cases row
  · rfl
  · exact applyColor_read_high ha
  · rfl

/-! The identity entries (R142 to R146, R150, R154). -/

/-- The identity rows: the colour op each encodes is legal for every context and changes nothing. -/
theorem identity_entry {d p : BitVec 2} {i : Instr}
    (hi : i ∈ ([.cpId0 d p, .cpId1 d p, .cpId2 d p, .cpId3 d p, .cpId4 d p, .cpId8 d p, .cpId12 d p] : List Instr)) :
    ∃ c, encode i = .row .cpl (codeOf d p c) ∧ identityColor c = true ∧ ∀ s, applyColor c s = s := by
  simp only [List.mem_cons, List.not_mem_nil, or_false] at hi
  rcases hi with rfl | rfl | rfl | rfl | rfl | rfl | rfl <;> exact ⟨_, rfl, by decide, fun _ => rfl⟩

/-- Settles O26: an identity row is legal whatever the context, and its effect is the state itself. -/
theorem identityColorRows : Obligations.IdentityColorRows := by
  intro s d p i hi
  obtain ⟨c, he, hc, entry⟩ := identity_entry hi
  have row := exec_of_encode_color he s
  rw [colorOp_codeOf, entry] at row
  exact row.trans (runRow_self (by simp [legalCode_iff, hc]))

end Sys2Proof.Machine
end

section
/-! PROOFS. The block transform's statements (43_block_transform.md): the edge state's clear and the arrange buffer's write, the two
predictors as rows, and BLK_XFORM as a whole. -/

namespace Sys2Proof.Machine

/-! ESB_CLEAR and ARR_WRITE (R160, R161). -/

theorem clearBytes_read_eq (n a : Nat) (m : ByteMemory) :
    Memory.read (clearBytes n m) a = if a < n then some 0 else Memory.read m a := by
  split
  next h => exact clearBytes_read h
  next h => exact clearBytes_other (Nat.le_of_not_lt h)

/-- Settles O23: the gate passes, and each of the two buffers is a clear of its extent. -/
theorem esbClearZeroesEdgeState : Obligations.EsbClearZeroesEdgeState := by
  intro s hf hctx hesb
  have ready : s.status.readyEsbClear = true := by simp [Status.readyEsbClear, hctx, hesb]
  exact ⟨esbCleared s, runCommand_of_ready hf ready, fun _ => clearBytes_read_eq _ _ _, fun _ => clearBytes_read_eq _ _ _, rfl⟩

/-- Settles O24: the gate passes, and ARR_FULL, clear before, is set by the last byte alone. -/
theorem arrWriteAppendsByte : Obligations.ArrWriteAppendsByte := by
  intro s b hf hctx hfull hbout hdone
  have ready : s.status.readyArrWrite = true := by simp [Status.readyArrWrite, hctx, hfull, hbout, hdone]
  have flags : s.status.afterWrite (s.arrp + 1 == s.ctx.blockSamples) =
      { s.status with arrFull := decide (s.arrp + 1 = s.ctx.blockSamples) } := by
    simp [Status.afterWrite, hfull, beq_eq_decide]
  exact ⟨sampleWritten b s, runCommand_of_ready hf ready, fun a => Memory.read_write _ _ a _,
    congrArg ((s.setArr (Memory.write s.arr s.arrp b)).setArrp (s.arrp + 1)).setStatus flags⟩

/-! The rows of the two predictors, run alone (R163, R168 to R174). -/

section
variable {s : State} {d p : BitVec 2} {d1 : BitVec 1} {c : BitVec 4} {a r x : Nat}

/-- A row whose colour op is legal does its effect. -/
theorem runRow_codeOf_of_legal {effect : State} (hf : s.status.fault = false) (hl : LegalColor s.ctx.channels c) :
    runRow (codeOf d p c) effect s = .next effect :=
  runRow_of_legal hf (by rwa [legalCode_iff_legalColor, colorOp_codeOf])

theorem exec_hdAccum_of_legal (hf : s.status.fault = false) (hl : LegalColor s.ctx.channels c) :
    exec (.hdAccum d1 p c) s = .next (horizontalAccumulate s) := runRow_codeOf_of_legal hf hl

theorem exec_hdCapture_of_legal (hf : s.status.fault = false) (hl : LegalColor s.ctx.channels c) :
    exec (.hdCapture d1 p c) s = .next (horizontalCapture s) := runRow_codeOf_of_legal hf hl

theorem exec_vdAdd_of_legal (hf : s.status.fault = false) (hl : LegalColor s.ctx.channels c) :
    exec (.vdAdd d p c) s = .next (vertical s) := runRow_codeOf_of_legal hf hl

theorem pcolAddr_ne_of_outside {g : Context} {b : Nat}
    (ha : ¬ (b * g.blockStride ≤ a ∧ a < b * g.blockStride + g.blockStride)) (hr : r < g.blockStride) :
    pcolAddr g b r ≠ a := by
  unfold pcolAddr
  omega

theorem prowAddr_ne_of_outside {g : Context} {b ch : Nat}
    (ha : ¬ (b * g.blockStride ≤ a ∧ a < b * g.blockStride + g.channels * g.blockSize)) (hc : ch < g.channels)
    (hx : x < g.blockSize) : prowAddr g b ch x ≠ a := by
  have := pair_lt hc hx
  unfold prowAddr
  omega

theorem rowAddr_ne_of_le {g : Context} (ha : g.blockStride * g.blockSize ≤ a) (hr : r < g.blockStride)
    (hx : x < g.blockSize) : rowAddr g r x ≠ a :=
  ((pair_lt hr hx).trans_le ha).ne

theorem planarAddr_ne_of_le {g : Context} {ch y : Nat} (hA : g.blockArea = g.blockSize * g.blockSize)
    (ha : g.channels * g.blockArea ≤ a) (hc : ch < g.channels) (hy : y < g.blockSize) (hx : x < g.blockSize) :
    planarAddr g ch y x ≠ a :=
  ((planarAddr_lt hA hc hy hx).trans_le ha).ne

/-- The accumulate branch leaves in the column state what it leaves at the row's right edge (R171): the seed and the whole row. -/
theorem horizontalAccumulate_edge (hS : 0 < s.ctx.blockSize) (hr : r < s.ctx.blockStride) :
    (horizontalAccumulate s).pcolAt (pcolAddr s.ctx s.blkY r) =
      (horizontalAccumulate s).boutAt (rowAddr s.ctx r (s.ctx.blockSize - 1)) := by
  obtain ⟨sums, -, edges, -⟩ := horizontalAccumulate_spec s
  have last := sums r (s.ctx.blockSize - 1) hr (Nat.sub_one_lt_of_lt hS)
  rw [Nat.sub_one_add_one hS.ne'] at last
  exact (byteAt_of_read (edges r hr)).trans (byteAt_of_read last).symm

/-- The capture branch leaves the row's right edge in the column state (R170, R171). -/
theorem horizontalCapture_edge (hr : r < s.ctx.blockStride) :
    (horizontalCapture s).pcolAt (pcolAddr s.ctx s.blkY r) =
      (horizontalCapture s).boutAt (rowAddr s.ctx r (s.ctx.blockSize - 1)) :=
  byteAt_of_read (horizontalCapture_read hr)

theorem verticalValue_of_chained {ch y : Nat} (h : s.cfg.vpredChained = true) (m q : ByteMemory) :
    verticalValue s m q ch y x =
      s.prowIn q (prowAddr s.ctx s.blkX ch x) + sumTo (fun j => s.boutIn m (planarAddr s.ctx ch j x)) (y + 1) :=
  if_pos h

theorem verticalValue_of_unchained {ch y : Nat} (h : s.cfg.vpredChained = false) (m q : ByteMemory) :
    verticalValue s m q ch y x = s.boutIn m (planarAddr s.ctx ch y x) + s.prowIn q (prowAddr s.ctx s.blkX ch x) :=
  if_neg (Bool.eq_false_iff.mp h)

/-- The vertical pass, chained: the row state and the column down to the sample (R172). -/
theorem vertical_chained_read {ch y : Nat} (hch : s.cfg.vpredChained = true)
    (hA : s.ctx.blockArea = s.ctx.blockSize * s.ctx.blockSize) (hc : ch < s.ctx.channels) (hy : y < s.ctx.blockSize)
    (hx : x < s.ctx.blockSize) :
    Memory.read (vertical s).bout (planarAddr s.ctx ch y x) =
      some (s.prowAt (prowAddr s.ctx s.blkX ch x) + sumTo (fun j => s.boutAt (planarAddr s.ctx ch j x)) (y + 1)) := by
  obtain ⟨samples, -, -, -⟩ := vertical_spec s hA
  exact (samples ch y x hc hy hx).trans (congrArg some (verticalValue_of_chained hch _ _))

/-- The vertical pass leaves BOUT outside the planes of the block. -/
theorem vertical_bout_other (hA : s.ctx.blockArea = s.ctx.blockSize * s.ctx.blockSize)
    (ha : s.ctx.channels * s.ctx.blockArea ≤ a) : Memory.read (vertical s).bout a = Memory.read s.bout a := by
  obtain ⟨-, others, -, -⟩ := vertical_spec s hA
  exact others a fun _ _ _ => planarAddr_ne_of_le hA ha

/-- The vertical pass leaves every row state but its block's. -/
theorem vertical_prow_other (hA : s.ctx.blockArea = s.ctx.blockSize * s.ctx.blockSize)
    (ha : ¬ (s.blkX * s.ctx.blockStride ≤ a ∧ a < s.blkX * s.ctx.blockStride + s.ctx.channels * s.ctx.blockSize)) :
    Memory.read (vertical s).prow a = Memory.read s.prow a := by
  obtain ⟨-, -, -, others⟩ := vertical_spec s hA
  exact others a fun _ _ => prowAddr_ne_of_outside ha

end

/-- Settles O30: the sums are `horizontalAccumulate_spec`'s, whose addresses lie in the block's rows and in its slot of PCOL. The
name `accumulateRow` is the model's. -/
theorem accumulateRow_holds : Obligations.AccumulateRow := by
  intro s d1 p c hf hl
  obtain ⟨sums, boutOthers, edges, pcolOthers⟩ := horizontalAccumulate_spec s
  exact ⟨horizontalAccumulate s, exec_hdAccum_of_legal hf hl, sums, edges,
    fun a ha => boutOthers a fun _ _ => rowAddr_ne_of_le ha, fun a ha => pcolOthers a fun _ => pcolAddr_ne_of_outside ha, rfl⟩

/-- Settles O31: the capture writes PCOL only, at the block's slot. -/
theorem captureRow : Obligations.CaptureRow := by
  intro s d1 p c hf hl
  exact ⟨horizontalCapture s, exec_hdCapture_of_legal hf hl, fun _ hr => horizontalCapture_read hr,
    fun _ ha => horizontalCapture_other fun _ => pcolAddr_ne_of_outside ha, rfl⟩

/-- Settles O32, row by row of the table. -/
theorem columnStateIsRightEdge : Obligations.ColumnStateIsRightEdge := by
  intro s d1 p c i hi hf hl hS
  simp only [List.mem_cons, List.not_mem_nil, or_false] at hi
  rcases hi with rfl | rfl
  · exact ⟨horizontalAccumulate s, exec_hdAccum_of_legal hf hl, fun _ hr => horizontalAccumulate_edge hS hr⟩
  · exact ⟨horizontalCapture s, exec_hdCapture_of_legal hf hl, fun _ hr => horizontalCapture_edge hr⟩

/-- Settles O33: the samples are `vertical_chained_read`'s; the row state takes the value of the last row, which sums the whole
column. -/
theorem verticalChained : Obligations.VerticalChained := by
  intro s d p c hf hl hch hA
  obtain ⟨-, -, edges, -⟩ := vertical_spec s hA
  refine ⟨vertical s, exec_vdAdd_of_legal hf hl, fun _ _ _ => vertical_chained_read hch hA, fun ch x hc hx => ?_,
    fun _ => vertical_bout_other hA, fun _ => vertical_prow_other hA, rfl⟩
  have edge := edges ch x hc hx
  rw [verticalValue_of_chained hch, Nat.sub_one_add_one (Nat.ne_zero_of_lt hx)] at edge
  exact edge

/-- Settles O34: the values are `vertical_spec`'s, not chained; the row state takes that of the last row. -/
theorem verticalUnchained : Obligations.VerticalUnchained := by
  intro s d p c hf hl hch hA
  obtain ⟨samples, -, edges, -⟩ := vertical_spec s hA
  exact ⟨vertical s, exec_vdAdd_of_legal hf hl,
    fun ch y x hc hy hx => (samples ch y x hc hy hx).trans (congrArg some (verticalValue_of_unchained hch _ _)),
    fun ch x hc hx => (edges ch x hc hx).trans (congrArg some (verticalValue_of_unchained hch _ _)),
    fun _ => vertical_bout_other hA, fun _ => vertical_prow_other hA, rfl⟩

/-! BLK_XFORM (R162 to R176). -/

section
variable {s : State} {code : Byte} {a : Nat}

theorem transform_zero (s : State) : transform 0 s = scatter 0 s := rfl

/-- The transform writes the whole block: the scatter does, and no later step unwrites an element. -/
theorem transform_writtenBelow (hb : ∀ p, p < 4 → s.SegmentBijective p) :
    WrittenBelow s.ctx.blockSamples (transform code s).bout := by
  intro a ha
  by_cases hc : code = 0
  · subst hc
    exact scatter_writtenBelow (hb 0 (by decide)) a ha
  · rw [transform_of_ne hc]
    have written := scatter_writtenBelow (hb _ (permSelector code).isLt) a ha
    exact vertical_isSome.1 (horizontal_isSome.1 (applyColor_bout_isSome written))

/-- No step of a legal code's transform writes BOUT from `N` on: the scatter's entries, the planes and the rows end there. -/
theorem transform_bout_other (hl : LegalColor s.ctx.channels (colorOp code)) (hg : s.ctx.Geometry)
    (hb : ∀ p, p < 4 → s.SegmentBijective p) (ha : s.ctx.blockSamples ≤ a) :
    Memory.read (transform code s).bout a = Memory.read s.bout a := by
  have planes : s.ctx.channels * s.ctx.blockArea ≤ a := by rwa [Nat.mul_comm, ← hg.samples]
  have rows : s.ctx.blockStride * s.ctx.blockSize ≤ a := by
    rwa [hg.stride, Nat.mul_right_comm, ← hg.area, ← hg.samples]
  by_cases hc : code = 0
  · subst hc
    exact scatter_bout_other (hb 0 (by decide)) ha
  · rw [transform_of_ne hc, vertical_bout_other (by simpa using hg.area) (by simpa using planes),
      horizontal_bout_other (by simpa using rows), applyColor_read_other (by simpa using hl) (by simpa using planes),
      scatter_bout_other (hb _ (permSelector code).isLt) ha]

/-- Of the transform's steps the horizontal one alone writes PCOL. -/
theorem transform_pcol_other
    (ha : ¬ (s.blkY * s.ctx.blockStride ≤ a ∧ a < s.blkY * s.ctx.blockStride + s.ctx.blockStride)) :
    Memory.read (transform code s).pcol a = Memory.read s.pcol a := by
  by_cases hc : code = 0
  · subst hc
    rfl
  · rw [transform_of_ne hc, vertical_pcol, horizontal_pcol_other (by simpa using ha), applyColor_pcol, scatter_pcol]

/-- Of the transform's steps the vertical one alone writes PROW. -/
theorem transform_prow_other (hg : s.ctx.Geometry)
    (ha : ¬ (s.blkX * s.ctx.blockStride ≤ a ∧ a < s.blkX * s.ctx.blockStride + s.ctx.blockStride)) :
    Memory.read (transform code s).prow a = Memory.read s.prow a := by
  by_cases hc : code = 0
  · subst hc
    rfl
  · have slot : s.ctx.channels * s.ctx.blockSize = s.ctx.blockStride := by rw [hg.stride, Nat.mul_comm]
    rw [transform_of_ne hc, vertical_prow_other (by simpa using hg.area) (by simpa [slot] using ha), horizontal_prow,
      applyColor_prow, scatter_prow]

end

/-- Settles O36, buffer by buffer; what is left of the state is `transform_keeps`'s. -/
theorem transformFrame : Obligations.TransformFrame := by
  intro s code hr hl hg hb
  refine ⟨_, execBlkXform_of_ready hr hl, transform_writtenBelow hb, fun _ => transform_bout_other hl hg hb,
    fun _ => transform_pcol_other, fun _ => transform_prow_other hg, ?_⟩
  exact congrArg (fun t : State => { t with status := s.transformedStatus, arrp := 0 }) (transform_keeps code s)

/-- Settles O37: the code 0x00 is legal for every context and its transform is the scatter through segment 1 alone. -/
theorem verbatimBlockKeepsEdgeState : Obligations.VerbatimBlockKeepsEdgeState := by
  intro s hr hb
  have ran := execBlkXform_of_ready (code := 0) hr (.inr (by decide))
  rw [transform_zero] at ran
  refine ⟨_, ran, fun k j hk hj => scatter_read_of_entry hb hk ?_, fun _ => scatter_bout_other hb, rfl⟩
  rwa [permAddr, Nat.zero_mul, Nat.zero_add]

/-! The grayscale block (R165, R169, R172): code 0xC0 scatters through segment 1, changes no colour and accumulates. -/

theorem sumTo_congr {f g : Nat → Byte} {n : Nat} (h : ∀ i, i < n → f i = g i) : sumTo f n = sumTo g n := by
  induction n with
  | zero => rfl
  | succ n ih => rw [sumTo, sumTo, ih fun i hi => h i (Nat.lt_succ_of_lt hi), h n (Nat.lt_succ_self n)]

theorem transform_gray (s : State) : transform 0xC0 s = vertical (horizontalAccumulate (scatter 0 s)) := rfl

/-- A scatter through the identity copies the block. -/
theorem scatter_boutAt_of_identity {s : State} (hid : ∀ k, k < s.ctx.blockSamples → Memory.read s.perm k = some k) {k : Nat}
    (hk : k < s.ctx.blockSamples) : (scatter 0 s).boutAt k = s.arrAt k := by
  have entry : ∀ i, i < s.ctx.blockSamples → s.permAt (permAddr s.ctx 0 i) = i := fun i hi =>
    permAt_of_read (by rw [permAddr, Nat.zero_mul, Nat.zero_add, hid i hi])
  have copied := scatter_read (p := 0) (fun i j hi hj h => by rwa [entry i hi, entry j hj] at h) hk
  rw [entry k hk] at copied
  exact byteAt_of_read copied

/-- With one channel the accumulate branch after an identity scatter leaves the running sums of ARR's rows. -/
theorem horizontalAccumulate_scatter_boutAt {s : State} (hg : s.ctx.Geometry) (hone : s.ctx.channels = 1)
    (hid : ∀ k, k < s.ctx.blockSamples → Memory.read s.perm k = some k) {j x : Nat} (hj : j < s.ctx.blockSize)
    (hx : x < s.ctx.blockSize) :
    (horizontalAccumulate (scatter 0 s)).boutAt (rowAddr s.ctx j x) =
      s.pcolAt (pcolAddr s.ctx s.blkY j) + sumTo (fun k => s.arrAt (rowAddr s.ctx j k)) (x + 1) := by
  have rows : s.ctx.blockStride = s.ctx.blockSize := by rw [hg.stride, hone, Nat.mul_one]
  have samples : s.ctx.blockSamples = s.ctx.blockSize * s.ctx.blockSize := by rw [hg.samples, hone, Nat.mul_one, hg.area]
  obtain ⟨sums, -, -, -⟩ := horizontalAccumulate_spec (scatter 0 s)
  have row : sumTo (fun k => (scatter 0 s).boutAt (rowAddr s.ctx j k)) (x + 1) =
      sumTo (fun k => s.arrAt (rowAddr s.ctx j k)) (x + 1) :=
    sumTo_congr fun k hk => scatter_boutAt_of_identity hid (samples ▸ pair_lt hj (by omega))
  exact (byteAt_of_read (sums j x (rows ▸ hj) hx)).trans (congrArg (s.pcolAt (pcolAddr s.ctx s.blkY j) + ·) row)

/-- Settles O39: the vertical pass sums down each column what the horizontal one left; with one channel sample `(y, x)` of the planar
block is sample `x` of logical row `y`. -/
theorem grayBlockIsDoubleRunningSum : Obligations.GrayBlockIsDoubleRunningSum := by
  intro s hr hg hone hch hid
  have ran := execBlkXform_of_ready (code := 0xC0) hr (.inr (by decide))
  rw [transform_gray] at ran
  refine ⟨_, ran, fun y x hy hx => ?_⟩
  have planar : ∀ j, planarAddr s.ctx 0 j x = rowAddr s.ctx j x := fun j => by
    rw [planarAddr, Nat.zero_mul, Nat.zero_add, rowAddr]
  have slot : prowAddr s.ctx s.blkX 0 x = s.blkX * s.ctx.blockStride + x := by rw [prowAddr, Nat.zero_mul, Nat.add_zero]
  have column : sumTo (fun j => (horizontalAccumulate (scatter 0 s)).boutAt (planarAddr s.ctx 0 j x)) (y + 1) =
      sumTo (fun j => s.pcolAt (pcolAddr s.ctx s.blkY j) + sumTo (fun k => s.arrAt (rowAddr s.ctx j k)) (x + 1)) (y + 1) :=
    sumTo_congr fun j hj => by rw [planar, horizontalAccumulate_scatter_boutAt hg hone hid (by omega) hx]
  have sample : Memory.read (vertical (horizontalAccumulate (scatter 0 s))).bout (planarAddr s.ctx 0 y x) =
      some (s.prowAt (prowAddr s.ctx s.blkX 0 x) +
        sumTo (fun j => (horizontalAccumulate (scatter 0 s)).boutAt (planarAddr s.ctx 0 j x)) (y + 1)) :=
    vertical_chained_read (s := horizontalAccumulate (scatter 0 s)) hch hg.area (hone ▸ Nat.one_pos) hy hx
  rw [planar, slot, column] at sample
  exact sample

end Sys2Proof.Machine
end

section
/-! PROOFS. The surroundings' statements (45_host_sequencer.md): the supplier, the prefetch, the synchronisation, the cropper, and the
host program that calls them. -/

namespace Sys2Proof.Machine

/-! The supplier (45_host_sequencer.md R203 to R206). -/

/-- Settles O53: with fewer than three channels the supplier is its fixed code and its conditional reset. -/
theorem supplierFixedCode : Obligations.SupplierFixedCode := by
  intro s hc
  rw [supply, if_pos hc]
  rfl

/-- With three channels or more, not bulk, the supplier is the Huffman-or-gamma rule and leaves the prefetch buffer. -/
theorem supply_of_rule {s : State} (hc : 3 ≤ s.ctx.channels) (hb : bulkMode s = false) :
    supply s = readCode s.seq.arch s.fe ∧ codesAfterSupply s = s.seq.codes := by
  simp [supply, codesAfterSupply, hb, Nat.not_lt.mpr hc]

/-- In bulk mode with three channels or more the supplier pops the prefetch buffer. -/
theorem supply_of_bulk {s : State} (hc : 3 ≤ s.ctx.channels) (hb : bulkMode s = true) {c : Byte} {rest : List Byte}
    (hq : s.seq.codes = c :: rest) : supply s = .gives c s.fe ∧ codesAfterSupply s = rest := by
  simp [supply, codesAfterSupply, hb, hq, Nat.not_lt.mpr hc]

theorem readCode_gamma_of_read {fe f : FrontEnd} {v : Nat} (h : fe.readBits 4 = (some v, f)) :
    readCode .gamma fe = .gives (0xC0#8 ||| BitVec.ofNat 8 v) f.resync := by
  simp only [readCode, h]

theorem readCode_huffman_of_symbol {fe f : FrontEnd} {code : Byte} (h : fe.symbol = (some code, f)) :
    readCode .huffman fe = .gives code f := by
  simp only [readCode, h]

/-- A raw read of `n` bits gives a value below `2^n` (R200). -/
theorem FrontEnd.readBits_lt {fe f : FrontEnd} {n v : Nat} (h : fe.readBits n = (some v, f)) : v < 2 ^ n := by
  unfold FrontEnd.readBits at h
  split at h <;> cases h
  exact Nat.mod_lt _ (Nat.two_pow_pos n)

/-- The codes of the gamma rule have both `diff_mode` bits set and `perm_selector` 0 (R206, R213). -/
theorem gammaCode_high : ∀ v < 16, (0xC0#8 ||| BitVec.ofNat 8 v) &&& 0xF0 = 0xC0 := by decide

/-- Settles O54: the Huffman-or-gamma rule, or the head of the prefetch buffer. -/
theorem supplierMultiChannelCode : Obligations.SupplierMultiChannelCode := by
  intro s hc
  refine ⟨fun hb => ?_, fun hb c rest hq => supply_of_bulk hc hb hq⟩
  obtain ⟨supplied, kept⟩ := supply_of_rule hc hb
  refine ⟨kept, fun v f ha hv => ?_, fun code f ha hs => ?_, fun ha => ?_⟩
  · have small := FrontEnd.readBits_lt hv
    exact ⟨_, by rw [supplied, ha, readCode_gamma_of_read hv], rfl, gammaCode_high v small, small⟩
  · rw [supplied, ha, readCode_huffman_of_symbol hs]
  · rw [supplied, ha]
    rfl

/-! The synchronisation (45_host_sequencer.md R209). -/

/-- Settles O56: the bit decides first, then the architecture, then, for gamma, the bulk mode. -/
theorem syncTestsBitFirst : Obligations.SyncTestsBitFirst := by
  intro s b f hread
  refine ⟨fun hb => ?_, fun hb ha => ?_, fun hb ha => ?_, fun hb ha hbulk => ?_, fun hb ha hbulk => ?_⟩
  · simp only [syncStream, hread, if_pos hb]
    rfl
  · simp only [syncStream, hread, hb, ha]
    rfl
  · simp [syncStream, hread, hb, ha]
  · simp only [syncStream, hread, hb, ha, bulkMode, hbulk]
    rfl
  · simp only [syncStream, hread, hb, ha, bulkMode, hbulk]
    rfl

/-! Several reads in order (45_host_sequencer.md R200, R208): the answers to the next reads, one read every `k` calls. -/

/-- The next reads, `k` calls from one to the next, are answered `vs` in order. -/
def FrontEnd.Answers (fe : FrontEnd) (k : Nat) (vs : List Nat) : Prop :=
  ∀ j v, vs[j]? = some v → fe.answer j (fe.calls + k * j) = some v

/-- The first read has the first answer. -/
theorem FrontEnd.Answers.head {fe : FrontEnd} {k v : Nat} {vs : List Nat} (h : fe.Answers k (v :: vs)) :
    fe.answer 0 fe.calls = some v := h 0 v rfl

/-- One read and `k` calls on, the other answers are next. -/
theorem FrontEnd.Answers.tail {fe g : FrontEnd} {k v : Nat} {vs : List Nat} (h : fe.Answers k (v :: vs))
    (hs : g.script = fe.script.drop 1) (hc : g.calls = fe.calls + k) : g.Answers k vs := by
  intro j w hw
  have later := h (j + 1) w hw
  rwa [FrontEnd.answer_drop fe g j _ hs, hc, Nat.add_assoc, Nat.add_comm k, ← Nat.mul_succ]

/-- A block of bytes is the answers to as many calls, in order (R211). -/
theorem FrontEnd.decode_of_answers {fe : FrontEnd} {vs : List Nat} (h : fe.Answers 1 vs) :
    fe.decode vs.length = (some (vs.map (BitVec.ofNat 8)),
      { fe with script := fe.script.drop vs.length, calls := fe.calls + vs.length }) := by
  induction vs generalizing fe with
  | nil => rfl
  | cons v vs ih =>
    have rest := ih (h.tail (g := fe.advanced) rfl rfl)
    simp only [List.length_cons, FrontEnd.decode, FrontEnd.symbol_of_answer h.head, rest]
    simp +arith [FrontEnd.advanced]

/-! The prefetch (45_host_sequencer.md R208). -/

/-- One code, then the others. -/
theorem prefetch_succ_of_gives {arch : Arch} {n : Nat} {fe f g : FrontEnd} {c : Byte} {cs : List Byte}
    (first : readCode arch fe = .gives c f) (rest : prefetch arch n f = .gives cs g) :
    prefetch arch (n + 1) fe = .gives (c :: cs) g := by
  simp only [prefetch, first, rest]

/-- The gamma rule's prefetch: two calls a code, the raw read and the reset. -/
theorem prefetch_gamma_of_answers {fe : FrontEnd} {vs : List Nat} (h : fe.Answers 2 vs) :
    prefetch .gamma vs.length fe = .gives (vs.map fun v => 0xC0#8 ||| BitVec.ofNat 8 (v % 16))
      { script := fe.script.drop vs.length, calls := fe.calls + 2 * vs.length, rawBits := fe.rawBits + 4 * vs.length,
        resets := fe.resets + vs.length } := by
  induction vs generalizing fe with
  | nil => rfl
  | cons v vs ih =>
    have first := readCode_gamma_of_read (FrontEnd.readBits_of_answer 4 h.head)
    rw [List.length_cons, prefetch_succ_of_gives first (ih (h.tail rfl rfl))]
    simp +arith [FrontEnd.resync, FrontEnd.advanced]

/-- The Huffman rule's prefetch reads what a decode of as many bytes reads. -/
theorem prefetch_huffman_of_decode {fe g : FrontEnd} {n : Nat} {bs : List Byte} (h : fe.decode n = (some bs, g)) :
    prefetch .huffman n fe = .gives bs g := by
  induction n generalizing fe bs with
  | zero =>
    cases h
    rfl
  | succ n ih =>
    unfold FrontEnd.decode at h
    split at h
    · cases h
    · rename_i first
      split at h <;> cases h
      rename_i rest
      exact prefetch_succ_of_gives (readCode_huffman_of_symbol first) (ih rest)

/-- An architecture that is neither fails at the first code asked for. -/
theorem prefetch_other (n : Nat) (fe : FrontEnd) :
    prefetch .other n fe = if n = 0 then .gives [] fe else .fails ⟨4, 0⟩ fe := by
  cases n <;> rfl

/-- A code of the Huffman-or-gamma rule: its one read is never answered and it blocks, or it is given and the script is one entry
shorter. -/
theorem readCode_cases {arch : Arch} (ha : arch ≠ .other) (fe : FrontEnd) :
    readCode arch fe = .blocked ∨
    ∃ c f, readCode arch fe = .gives c f ∧ f.script = fe.script.drop 1 ∧ none ∉ fe.script.take 1 := by
  cases hread : fe.answer 0 fe.calls with
  | none =>
    left
    cases arch with
    | gamma => simp only [readCode, FrontEnd.readBits, FrontEnd.call_eq, hread]
    | huffman => simp only [readCode, FrontEnd.symbol, FrontEnd.call_eq, hread]
    | other => exact absurd rfl ha
  | some v =>
    right
    have answered : none ∉ fe.script.take 1 := by
      rw [← FrontEnd.answer_zero_none fe fe.calls, hread]
      exact Option.some_ne_none v
    cases arch with
    | gamma => exact ⟨_, _, readCode_gamma_of_read (FrontEnd.readBits_of_answer 4 hread), rfl, answered⟩
    | huffman => exact ⟨_, _, readCode_huffman_of_symbol (FrontEnd.symbol_of_answer hread), rfl, answered⟩
    | other => exact absurd rfl ha

/-- A prefetch with a read that is never answered among its own blocks there (60_exceptions.md R244). -/
theorem prefetch_of_unanswered {arch : Arch} {fe : FrontEnd} {n : Nat} (ha : arch ≠ .other) (h : none ∈ fe.script.take n) :
    prefetch arch n fe = .blocked := by
  induction n generalizing fe with
  | zero => simp at h
  | succ n ih =>
    rcases readCode_cases ha fe with blocked | ⟨c, f, given, script, answered⟩
    · simp only [prefetch, blocked]
    · have later := ((none_mem_take_succ _ _).mp h).resolve_left answered
      simp only [prefetch, given, ih (script ▸ later)]

/-- A prefetch that succeeds gives as many codes as it was asked for. -/
theorem prefetch_length {arch : Arch} {n : Nat} {fe g : FrontEnd} {cs : List Byte} (h : prefetch arch n fe = .gives cs g) :
    cs.length = n := by
  induction n generalizing fe cs with
  | zero =>
    cases h
    rfl
  | succ n ih =>
    unfold prefetch at h
    split at h
    · cases h
    · cases h
    · split at h <;> cases h
      rename_i rest
      exact congrArg (· + 1) (ih rest)

/-- The host keeps the codes of a prefetch that succeeds. -/
theorem hostTurn_of_prefetched {s : State} {codes : List Byte} {g : FrontEnd} (hph : s.seq.phase = .cleared)
    (hc : 3 ≤ s.ctx.channels) (hb : bulkMode s = true)
    (given : prefetch s.seq.arch (s.ctx.widthBlocks * s.ctx.heightBlocks) s.fe = .gives codes g) :
    hostTurn s = .next { s with fe := g, seq := { s.seq with phase := .sync, codes := codes } } := by
  simp only [hostTurn, hph, if_pos (And.intro hb hc), given]
  rfl

/-- Settles O55: the gamma and the Huffman rule by the answers in order, the other architectures, the blocked read, and the host's
own prefetch. -/
theorem prefetchReadsOneCodePerBlock : Obligations.PrefetchReadsOneCodePerBlock := by
  refine ⟨fun fe vs h => prefetch_gamma_of_answers h, fun fe vs h => ?_, fun fe n => prefetch_other n fe,
    fun arch fe n ha h => prefetch_of_unanswered ha h,
    fun s codes g hph hc hb given => ⟨hostTurn_of_prefetched hph hc hb given, prefetch_length given⟩⟩
  exact prefetch_huffman_of_decode (FrontEnd.decode_of_answers fun j v hv => by rw [Nat.one_mul, h j v hv])

/-! The cropper (45_host_sequencer.md R214). -/

/-- `n` pieces of `m` elements each, one after another, have `n * m` elements. -/
theorem length_flatMap_range {α : Type} {f : Nat → List α} {m : Nat} (n : Nat) (h : ∀ i, (f i).length = m) :
    ((List.range n).flatMap f).length = n * m := by
  simp [List.length_flatMap, h]

/-- Element `j` of piece `i`, when all pieces have `m` elements. -/
theorem getElem?_flatMap_range {α : Type} {f : Nat → List α} {n m i j : Nat} (h : ∀ i, (f i).length = m) (hi : i < n)
    (hj : j < m) : ((List.range n).flatMap f)[i * m + j]? = (f i)[j]? := by
  induction n with
  | zero => exact absurd hi (Nat.not_lt_zero i)
  | succ n ih =>
    have before := length_flatMap_range n h
    rw [List.range_succ, List.flatMap_append, List.flatMap_singleton]
    rcases Nat.lt_succ_iff_lt_or_eq.mp hi with hlt | rfl
    · rw [List.getElem?_append_left (by rw [before]; exact pair_lt hlt hj), ih hlt]
    · rw [List.getElem?_append_right (by omega), before, Nat.add_sub_cancel_left]

/-- The bytes the cropper takes of one pixel. -/
def croppedPixel (s : State) (y x : Nat) : List Byte :=
  (List.range s.ctx.channels).map fun c => BitVec.ofNat 8 (observe s 6 (canvasAddr s.ctx y x c))

/-- The bytes the cropper takes of one row. -/
def croppedRow (s : State) (y : Nat) : List Byte := (List.range s.ctx.width).flatMap (croppedPixel s y)

theorem cropped_eq_rows (s : State) : cropped s = (List.range s.ctx.height).flatMap (croppedRow s) := rfl

theorem croppedPixel_length (s : State) (y x : Nat) : (croppedPixel s y x).length = s.ctx.channels := by simp [croppedPixel]

theorem croppedRow_length (s : State) (y : Nat) : (croppedRow s y).length = s.ctx.width * s.ctx.channels :=
  length_flatMap_range _ (croppedPixel_length s y)

/-- Settles O57: a byte of the output is found by its row, then its pixel, then its channel. -/
theorem cropKeepsTopLeft : Obligations.CropKeepsTopLeft := by
  intro s
  rw [cropped_eq_rows]
  refine ⟨?_, fun y x c hy hx hc => ?_⟩
  · rw [length_flatMap_range _ (croppedRow_length s), ← Nat.mul_assoc, Nat.mul_comm s.ctx.width]
  · rw [Nat.add_mul, Nat.mul_assoc, Nat.add_assoc, getElem?_flatMap_range (croppedRow_length s) hy (pair_lt hx hc), croppedRow,
      getElem?_flatMap_range (croppedPixel_length s y) hx hc, croppedPixel, List.getElem?_map, List.getElem?_range hc]
    rfl

/-! The words the host places (45_host_sequencer.md R210, R211, R216). -/

/-- From `s` to `t` words of commands, and only such words, are added to the port. -/
def State.IssuesTo (s t : State) : Prop :=
  ∃ is : List Instr, t.port = s.port ++ is.map encode ∧ ∀ i ∈ is, ∃ w, encode i = .command w

theorem State.IssuesTo.of_port_eq {s t : State} (h : t.port = s.port) : s.IssuesTo t := ⟨[], by simpa using h, by simp⟩

theorem State.IssuesTo.of_command {s t : State} {i : Instr} {w : BitVec 12} (h : t.port = s.port ++ [encode i])
    (hi : encode i = .command w) : s.IssuesTo t := ⟨[i], h, by simpa using ⟨w, hi⟩⟩

/-- Every move of the host that touches the port puts the word of one of the six commands there, the move that hands a block over one
word a byte. -/
theorem hostTurn_issues {s t : State} (h : hostTurn s = .next t) : s.IssuesTo t := by
  unfold hostTurn at h
  cases hph : s.seq.phase <;> simp only [hph] at h
  case idle | finished | failed =>
    cases h
    unfold nextJob
    split
    · exact .of_port_eq rfl
    · exact .of_command rfl rfl
  case loaded =>
    split at h <;> cases h
    · exact .of_port_eq rfl
    · exact .of_command rfl rfl
  case built =>
    cases h
    exact .of_command rfl rfl
  case cleared | block =>
    split at h
    · split at h <;> cases h <;> exact .of_port_eq rfl
    · cases h
      exact .of_port_eq rfl
  case sync | decode => split at h <;> cases h <;> exact .of_port_eq rfl
  case write =>
    cases h
    refine ⟨s.seq.buf.map .arrWrite, ?_, fun i hi => ?_⟩
    · rw [List.map_map]
      rfl
    · obtain ⟨b, -, rfl⟩ := List.mem_map.mp hi
      exact ⟨_, rfl⟩
  case transform =>
    cases h
    exact .of_command rfl rfl
  case emit =>
    split at h <;> cases h
    · exact .of_port_eq rfl
    · exact .of_command rfl rfl
  case crop =>
    cases h
    exact .of_port_eq rfl

/-- Settles O58: every word on the port is a command's encoding, which decodes to that command. -/
theorem hostIssuesOnlyCommands : Obligations.HostIssuesOnlyCommands := by
  intro s t hp h it hit
  obtain ⟨is, port, commands⟩ := hostTurn_issues h
  rw [port, hp, List.nil_append] at hit
  obtain ⟨i, hi, rfl⟩ := List.mem_map.mp hit
  obtain ⟨w, hw⟩ := commands i hi
  exact ⟨w, i, hw, hw ▸ decodeCommand_of_encode hw⟩

/-! The host program, move by move (45_host_sequencer.md R210 to R212, R214). -/

/-- With nothing in its way and an empty port, the step is the host's move. -/
theorem step_of_empty_port {s : State} (hr : s.rst = false) (hs : s.stuck = false) (hp : s.port = []) :
    step s = hostTurn s := by
  simp [step, nextTurn, hr, hs, hp]

/-- A command issued at an empty port is the only word there. -/
theorem issue_of_empty_port {s : State} (i : Instr) (hp : s.port = []) : issue i s = { s with port := [encode i] } := by
  rw [issue, hp]
  rfl

/-- Between decode calls the host takes the next job. -/
theorem hostTurn_of_waiting {s : State} (hph : s.seq.phase ∈ ([.idle, .finished, .failed] : List Phase)) :
    hostTurn s = .next (nextJob s) := by
  simp only [List.mem_cons, List.not_mem_nil, or_false] at hph
  rcases hph with h | h | h <;> simp only [hostTurn, h]

/-- A fault after CTX_LOAD or in a block ends the decode call (R212). -/
theorem hostTurn_of_fault {s : State} (hph : s.seq.phase ∈ ([.loaded, .emit] : List Phase)) (hf : s.status.fault = true) :
    hostTurn s = .next (giveUp (reportedFault s) s) := by
  simp only [List.mem_cons, List.not_mem_nil, or_false] at hph
  rcases hph with h | h <;> simp only [hostTurn, h, if_pos hf]

/-- Outside bulk mode, or with fewer than three channels, there is no prefetch (R208). -/
theorem hostTurn_of_no_prefetch {s : State} (hph : s.seq.phase = .cleared)
    (hn : s.ctx.channels < 3 ∨ bulkMode s = false) : hostTurn s = .next (goTo .sync s) := by
  have skipped : ¬ (bulkMode s = true ∧ 3 ≤ s.ctx.channels) := by
    rintro ⟨hb, hc⟩
    rcases hn with hn | hn
    · exact absurd hc (Nat.not_le.mpr hn)
    · exact Bool.false_ne_true (hn.symm.trans hb)
  simp only [hostTurn, hph, if_neg skipped]

/-- A prefetch that fails ends the decode call (R212). -/
theorem hostTurn_of_failed_prefetch {s : State} {e : Failure} {g : FrontEnd} (hph : s.seq.phase = .cleared)
    (hc : 3 ≤ s.ctx.channels) (hb : bulkMode s = true)
    (failed : prefetch s.seq.arch (s.ctx.widthBlocks * s.ctx.heightBlocks) s.fe = .fails e g) :
    hostTurn s = .next (giveUp e (s.setFe g)) := by
  simp only [hostTurn, hph, if_pos (And.intro hb hc), failed]

/-- Settles O60: with an empty port the step is the host's move, and each clause is the move of one phase. -/
theorem hostProgramOrder : Obligations.HostProgramOrder := by
  intro s hr hs hp
  rw [step_of_empty_port hr hs hp]
  refine ⟨fun hph => ?waiting, fun hph hf => ?loaded, fun hph hf => ?fault, fun hph => ?built, fun hph hn => ?noPrefetch,
    fun hph hc hb => ?prefetch, fun hph => ?sync, fun hph hn => ?lastBlock, fun hph hn => ?supply,
    fun hph vs hlen answers => ?decode, fun hph => ?write, fun hph => ?transform, fun hph hf => ?emit, fun hph => ?crop⟩
  case waiting =>
    rw [hostTurn_of_waiting hph, nextJob]
    refine ⟨fun hj => by rw [hj], fun j rest hj => ?_⟩
    simp only [hj, startJob, issue_of_empty_port, State.setSeq_port, State.setHdr_port, hp]
    rfl
  case fault =>
    rw [hostTurn_of_fault hph hf]
    rfl
  case noPrefetch =>
    rw [hostTurn_of_no_prefetch hph hn]
    rfl
  case prefetch =>
    exact ⟨fun codes g given => hostTurn_of_prefetched hph hc hb given,
      fun e g failed => hostTurn_of_failed_prefetch hph hc hb failed⟩
  case sync =>
    refine ⟨fun g given => ?_, fun e g failed => ?_⟩
    · simp only [hostTurn, hph, given]
      rfl
    · simp only [hostTurn, hph, failed]
      rfl
  case lastBlock =>
    simp only [hostTurn, hph, if_neg (Nat.not_lt.mpr hn)]
    rfl
  case supply =>
    refine ⟨fun c g given => ?_, fun e g failed => ?_⟩
    · simp only [hostTurn, hph, if_pos hn, given]
      rfl
    · simp only [hostTurn, hph, if_pos hn, failed]
      rfl
  case decode =>
    have bytes := FrontEnd.decode_of_answers (fe := s.fe) (vs := vs) fun j v hv => by rw [Nat.one_mul, answers j v hv]
    simp only [hostTurn, hph, ← hlen, bytes]
    rfl
  case loaded | emit =>
    simp only [hostTurn, hph, hf, issue_of_empty_port, State.setSeq_port, hp]
    rfl
  case built | transform =>
    simp only [hostTurn, hph, issue_of_empty_port, hp]
    rfl
  case write =>
    simp only [hostTurn, hph, hp, List.nil_append]
    rfl
  case crop =>
    simp only [hostTurn, hph]
    rfl

end Sys2Proof.Machine
end

section
/-! PROOFS. The exceptions' statements (60_exceptions.md): when a step stops, what the faulted state ignores, a read that is never
answered, and the commands out of sequence. -/

namespace Sys2Proof.Machine

/-! When a step stops (60_exceptions.md R244, R245). -/

/-- Every instruction but CTX_LOAD stands behind the gate of the commands or the gate of the rows. -/
theorem exec_gate {i : Instr} (hi : i ≠ .ctxLoad) (s : State) :
    (∃ op ready effect, exec i s = runCommand op ready effect s) ∨ ∃ code effect, exec i s = runRow code effect s := by
  cases i
  case ctxLoad => contradiction
  case permBuild | esbClear | arrWrite | blkXform | blkEmit => exact .inl ⟨_, _, _, rfl⟩
  all_goals exact .inr ⟨_, _, rfl⟩

/-- CTX_LOAD answers a next state: a stuck one, or the one its answered reads lead to. -/
theorem execCtxLoad_next (s : State) : ∃ t, execCtxLoad s = .next t := by
  unfold execCtxLoad
  split <;> exact ⟨_, rfl⟩

theorem exec_next (i : Instr) (s : State) : ∃ t, exec i s = .next t := by
  by_cases hi : i = .ctxLoad
  · subst hi
    exact execCtxLoad_next s
  · rcases exec_gate hi s with ⟨op, ready, effect, e⟩ | ⟨code, effect, e⟩ <;> rw [e]
    · exact runCommand_next op ready effect s
    · exact runRow_next code effect s

/-- A code of the Huffman-or-gamma rule blocks when its one read is never answered. -/
theorem readCode_blocked_iff {arch : Arch} {fe : FrontEnd} :
    readCode arch fe = .blocked ↔ arch ≠ .other ∧ none ∈ fe.script.take 1 := by
  cases arch with
  | gamma =>
    rw [← FrontEnd.readBits_none fe 4, readCode]
    rcases fe.readBits 4 with ⟨_ | v, f⟩ <;> simp
  | huffman =>
    rw [← FrontEnd.symbol_none, readCode]
    rcases fe.symbol with ⟨_ | b, f⟩ <;> simp
  | other => simp [readCode]

/-- A prefetch blocks at the first of its reads that is never answered, and at nothing else. -/
theorem prefetch_blocked_iff {arch : Arch} {n : Nat} {fe : FrontEnd} :
    prefetch arch n fe = .blocked ↔ arch ≠ .other ∧ none ∈ fe.script.take n := by
  refine ⟨fun h => ?_, fun ⟨ha, h⟩ => prefetch_of_unanswered ha h⟩
  have ha : arch ≠ .other := by
    rintro rfl
    rw [prefetch_other] at h
    split at h <;> cases h
  refine ⟨ha, ?_⟩
  induction n generalizing fe with
  | zero => cases h
  | succ n ih =>
    rw [none_mem_take_succ]
    rcases readCode_cases ha fe with blocked | ⟨c, f, given, script, -⟩
    · exact .inl (readCode_blocked_iff.mp blocked).2
    · refine .inr (script ▸ ih (fe := f) ?_)
      simp only [prefetch, given] at h
      split at h
      · assumption
      all_goals cases h

/-- The synchronisation blocks when its one bit is never answered. -/
theorem syncStream_blocked_iff {s : State} : syncStream s = .blocked ↔ none ∈ s.fe.script.take 1 := by
  rw [← FrontEnd.readBits_none s.fe 1]
  unfold syncStream
  rcases s.fe.readBits 1 with ⟨_ | b, f⟩
  · simp
  · by_cases hb : b = 0
    · cases s.seq.arch <;> simp [hb]
    · simp [hb]

/-- The supplier blocks with three channels or more: in its read, or at an empty prefetch buffer. -/
theorem supply_blocked_iff {s : State} : supply s = .blocked ↔ 3 ≤ s.ctx.channels ∧
    ((bulkMode s = false ∧ s.seq.arch ≠ .other ∧ none ∈ s.fe.script.take 1) ∨ (bulkMode s = true ∧ s.seq.codes = [])) := by
  by_cases hc : s.ctx.channels < 3
  · simp [supply, hc]
  · have hc : 3 ≤ s.ctx.channels := Nat.le_of_not_lt hc
    cases hb : bulkMode s
    · rw [(supply_of_rule hc hb).1, readCode_blocked_iff]
      simp [hc]
    · cases hq : s.seq.codes with
      | nil => simp [supply, hc, hb, hq]
      | cons c rest =>
        rw [(supply_of_bulk hc hb hq).1]
        simp

/-- The decode of a block is never answered when one of its bytes is not. -/
theorem FrontEnd.decode_none_iff {n : Nat} {fe : FrontEnd} : (fe.decode n).1 = none ↔ none ∈ fe.script.take n := by
  induction n generalizing fe with
  | zero => simp [FrontEnd.decode]
  | succ n ih =>
    have script := FrontEnd.symbol_script fe
    rw [none_mem_take_succ, ← FrontEnd.symbol_none, ← script, ← ih, FrontEnd.decode]
    rcases fe.symbol with ⟨_ | b, f⟩
    · simp
    · dsimp only
      rcases FrontEnd.decode n f with ⟨_ | bs, g⟩ <;> simp

/-- The host's next move is blocked when the procedure its phase calls is. -/
theorem hostBlocked_iff {s : State} : s.HostBlocked ↔
    (s.seq.phase = .cleared ∧ bulkMode s = true ∧ 3 ≤ s.ctx.channels ∧
      prefetch s.seq.arch (s.ctx.widthBlocks * s.ctx.heightBlocks) s.fe = .blocked) ∨
    (s.seq.phase = .sync ∧ syncStream s = .blocked) ∨
    (s.seq.phase = .block ∧ s.seq.block < s.ctx.widthBlocks * s.ctx.heightBlocks ∧ supply s = .blocked) ∨
    (s.seq.phase = .decode ∧ (s.fe.decode s.ctx.blockSamples).1 = none) := by
  rw [prefetch_blocked_iff, syncStream_blocked_iff, supply_blocked_iff, FrontEnd.decode_none_iff]
  rfl

/-- A move of the host stops when it is blocked, and answers a next state when it is not. -/
theorem hostTurn_blocked_or_next (s : State) :
    (s.HostBlocked ∧ hostTurn s = .fault .hostBlocked) ∨ (¬ s.HostBlocked ∧ ∃ t, hostTurn s = .next t) := by
  rw [hostBlocked_iff]
  unfold hostTurn
  cases s.seq.phase <;> simp only [reduceCtorEq, false_and, true_and, false_or, or_false, not_false_eq_true]
  case idle | finished | failed | built | write | transform | crop => exact ⟨_, rfl⟩
  case loaded | emit => split <;> exact ⟨_, rfl⟩
  case cleared =>
    by_cases hb : bulkMode s = true ∧ 3 ≤ s.ctx.channels
    · rw [if_pos hb]
      cases prefetch s.seq.arch (s.ctx.widthBlocks * s.ctx.heightBlocks) s.fe <;> simp [hb]
    · rw [if_neg hb]
      exact .inr ⟨fun h => hb ⟨h.1, h.2.1⟩, _, rfl⟩
  case sync => cases syncStream s <;> simp
  case block =>
    by_cases hn : s.seq.block < s.ctx.widthBlocks * s.ctx.heightBlocks
    · rw [if_pos hn]
      cases supply s <;> simp [hn]
    · simp [hn]
  case decode =>
    rcases s.fe.decode s.ctx.blockSamples with ⟨_ | bs, g⟩ <;> simp

theorem step_of_rst {s : State} (hr : s.rst = true) : step s = .next (applyReset s) := by
  simp [step, nextTurn, hr]

theorem step_of_stuck {s : State} (hr : s.rst = false) (hs : s.stuck = true) : step s = .fault .stuckInCtxLoad := by
  simp [step, nextTurn, hr, hs]

/-- A word at the port never stops the step: it runs its instruction or is rejected. -/
theorem step_next_of_word {s : State} {it : PortWord} {rest : List PortWord} (hr : s.rst = false) (hs : s.stuck = false)
    (hp : s.port = it :: rest) : ∃ t, step s = .next t := by
  cases hd : decode it with
  | ok i =>
    rw [stepRunsDecodedInstruction s it rest i hr hs hp hd]
    exact exec_next i _
  | error r => exact ⟨_, step_of_reject hr hs hp hd⟩

/-- Settles O10, turn by turn: the reset pin and a word at the port answer a next state, a stuck CTX_LOAD stops the step, and at an
empty port the move of the host decides. -/
theorem stepStopsOnlyWhenStuck : Obligations.StepStopsOnlyWhenStuck := by
  intro s
  cases hr : s.rst
  case true => simp [step_of_rst hr]
  cases hs : s.stuck
  case true => simp [step_of_stuck hr hs, eq_comm]
  cases hp : s.port with
  | cons it rest =>
    obtain ⟨t, next⟩ := step_next_of_word hr hs hp
    simp [next]
  | nil =>
    rw [step_of_empty_port hr hs hp]
    rcases hostTurn_blocked_or_next s with ⟨hb, stop⟩ | ⟨hb, t, next⟩
    · simp [stop, hb, eq_comm]
    · simp [next, hb]

/-! The faulted state (60_exceptions.md R239, R241). -/

theorem takeIllegalCommand_of_fault {s : State} (r : Reject) (h : s.status.fault = true) : takeIllegalCommand r s = s := by
  cases r <;> exact takeFault_of_fault h

/-- Settles O8: both gates ignore what they are given while FAULT is set, and a rejected word finds its fault entry closed. -/
theorem faultedStateIgnoresAllButLoad : Obligations.FaultedStateIgnoresAllButLoad := by
  refine ⟨fun i s hf hi => ?_, fun s it rest r hf hr hs hp hd => ?_⟩
  · rcases exec_gate hi s with ⟨op, ready, effect, e⟩ | ⟨code, effect, e⟩
    · exact e.trans (runCommand_of_fault hf)
    · exact e.trans (runRow_of_fault hf)
  · rw [step_of_reject hr hs hp hd]
    exact congrArg _ (takeIllegalCommand_of_fault r hf)

/-! A CTX_LOAD that waits for ever (60_exceptions.md R244; 70_reset_and_hazards.md R260). -/

/-- Settles O19: the unanswered read leaves the mark, the mark stops the step while the pin is low, and the reset clears it. -/
theorem unansweredReadSticks : Obligations.UnansweredReadSticks := by
  intro s fe hread
  refine ⟨?_, step_of_stuck rfl rfl, _, step_of_rst rfl, rfl⟩
  simp only [exec, execCtxLoad, hread]
  rfl

/-! Commands out of sequence (60_exceptions.md R236). -/

theorem versionFault_kind_ne {c : Context} {f : FaultKind × Byte} (h : versionFault c = some f) : f.1 ≠ .sequenceFault := by
  unfold versionFault at h
  split at h
  case h_4 =>
    cases h
    simp
  all_goals
    split at h
    · cases h
    · cases h
      simp

theorem capacityFault_kind {cfg : Params} {c : Context} {f : FaultKind × Byte} (h : capacityFault cfg c = some f) :
    f.1 = .resourceLimit := by
  unfold capacityFault at h
  split at h
  · split at h
    · cases h
    · cases h
      rfl
  · cases h
    rfl

/-- The checks of CTX_LOAD look at no flag: none of them raises SequenceFault. -/
theorem checkContext_kind_ne {cfg : Params} {c : Context} {f : FaultKind × Byte} (h : checkContext cfg c = .error f) :
    f.1 ≠ .sequenceFault := by
  unfold checkContext at h
  split at h
  · cases h
    simp
  · split at h
    · split at h
      · cases h
        exact versionFault_kind_ne ‹_›
      · split at h
        · cases h
          simp
        · split at h <;> cases h
          simp [capacityFault_kind ‹_›]
    · cases h
      simp

theorem FaultKind.number_eq_six {k : FaultKind} : k.number = 6 ↔ k = .sequenceFault := by
  cases k <;> decide

/-- An answered CTX_LOAD ends with ERR 0 or with the number of a check that failed. -/
theorem exec_ctxLoad_err_ne_six {s : State} {q : StreamFields} {fe : FrontEnd} (hq : readFields s.fe = (some q, fe)) :
    ∃ t, exec .ctxLoad s = .next t ∧ t.err ≠ 6 := by
  cases hc : checkContext s.cfg (latchedContext s q) with
  | ok c => exact ⟨_, exec_ctxLoad_of_ok hq hc, by simp⟩
  | error f => exact ⟨_, exec_ctxLoad_of_error hq hc, fun h => checkContext_kind_ne hc (FaultKind.number_eq_six.mp h)⟩

/-- Settles O11: an answered CTX_LOAD commits or ends in a fault of its own checks; every other command finds its gate closed, its
precondition being the negation of the clause's hypothesis. -/
theorem sequenceFaultWhenNotReady : Obligations.SequenceFaultWhenNotReady := by
  refine ⟨fun s q fe hq => exec_ctxLoad_err_ne_six hq, fun s b code hf => ?_⟩
  refine ⟨fun h => runCommand_of_not_ready hf h, fun h => runCommand_of_not_ready hf ?_,
    fun h => runCommand_of_not_ready hf ?_, fun h => runCommand_of_not_ready hf ?_, fun h => runCommand_of_not_ready hf h⟩
  · simpa only [Status.readyEsbClear, Bool.and_eq_false_iff, Bool.not_eq_false'] using h
  · simpa only [Status.readyArrWrite, Bool.and_eq_false_iff, Bool.not_eq_false', or_assoc] using h
  · simpa only [Status.readyBlkXform, Bool.and_eq_false_iff, Bool.not_eq_false', or_assoc] using h

end Sys2Proof.Machine
end

section
/-! PROOFS. The statements on reset and hazards (70_reset_and_hazards.md): the reset pin, that every instruction answers, what the
flags promise of the buffers, and that nothing of one decode call reaches the next. -/

namespace Sys2Proof.Machine

/-! The reset pin (R260), and an answer from every instruction (R270). -/

/-- Settles O5: the pin is the first thing a step looks at, and the registers and buffers it leaves are those of reset. -/
theorem resetPinFromAnyState : Obligations.ResetPinFromAnyState := by
  intro s hr
  obtain ⟨word, -⟩ := resetState
  exact ⟨applyReset s, step_of_rst hr, word, rfl, rfl, rfl, rfl, rfl, rfl, rfl, fun _ => ⟨rfl, rfl, rfl, rfl, rfl, rfl⟩,
    rfl, rfl, rfl, rfl, rfl⟩

/-- Settles O9: CTX_LOAD answers whatever its reads do, and every other instruction stands behind a gate that answers. -/
theorem everyInstructionAnswersNext : Obligations.EveryInstructionAnswersNext := exec_next

/-! What the flags promise (R263). -/

/-- With no byte arranged, no block ready and the edge state invalid, nothing is promised. -/
theorem written_of_flags_clear {s : State} (ha : s.arrp = 0) (hb : s.status.boutValid = false)
    (he : s.status.esbValid = false) : s.Written := by
  constructor <;> simp [ha, hb, he]

/-- An answered CTX_LOAD begins a decode call, in which nothing is promised yet. -/
theorem written_loadContext {s : State} (q : StreamFields) (fe : FrontEnd) : (loadContext q fe s).Written := by
  rcases loadContext_cases q fe s with ⟨_, _, e⟩ | ⟨_, _, _, _, e⟩ <;> rw [e] <;> exact written_of_flags_clear rfl rfl rfl

theorem written_esbCleared {s : State} (h : s.Written) : (esbCleared s).Written :=
  { h with
    pcol := fun _ _ ha => Option.isSome_of_eq_some (clearBytes_read ha)
    prow := fun _ _ ha => Option.isSome_of_eq_some (clearBytes_read ha) }

/-- ARR_WRITE writes the one element by which it moves the pointer. -/
theorem written_sampleWritten {s : State} (h : s.Written) (b : Byte) : (sampleWritten b s).Written :=
  { h with
    arr := fun hv i hi => by
      rcases Nat.lt_succ_iff_lt_or_eq.mp hi with hlt | rfl
      · exact Memory.isSome_write _ _ _ _ (h.arr hv i hlt)
      · exact Option.isSome_of_eq_some (Memory.read_write_same _ _ _) }

/-- BLK_XFORM writes the whole block it sets BOUT_VALID for, and unwrites no edge state. -/
theorem written_completeTransform {s : State} (hI : s.Inv) (h : s.Written) (code : Byte) (hr : s.ReadyToTransform) :
    (completeTransform (transform code s)).Written where
  arr := fun _ i hi => absurd hi (Nat.not_lt_zero i)
  bout := fun _ i hi => transform_writtenBelow (hI.permBijective hr.perm) i (by simpa [completeTransform] using hi)
  pcol := fun _ a ha => transform_isSome.1 (h.pcol hr.esb a (by simpa [completeTransform] using ha))
  prow := fun _ a ha => transform_isSome.2 (h.prow hr.esb a (by simpa [completeTransform] using ha))

/-- A row unwrites no element and leaves the flags, the context and the pointer. -/
theorem RowEffect.written {s t : State} (effect : RowEffect s t) (h : s.Written) : t.Written := by
  rcases effect with ⟨p, _, rfl⟩ | ⟨c, _, rfl⟩ | rfl | rfl | rfl
  · exact Written_mono h rfl rfl rfl (fun _ => id) (fun _ => scatter_bout_isSome) (fun _ => id) (fun _ => id)
  · exact Written_mono h (by simp) (by simp) (by simp) (by simp) (fun _ => applyColor_bout_isSome) (by simp) (by simp)
  · exact Written_mono h rfl rfl rfl (fun _ => id) (fun _ => horizontalAccumulate_isSome.1)
      (fun _ => horizontalAccumulate_isSome.2) (fun _ => id)
  · exact Written_mono h rfl rfl rfl (fun _ => id) (fun _ => id) (fun _ => horizontalCapture_isSome) (fun _ => id)
  · exact Written_mono h rfl rfl rfl (fun _ => id) (fun _ => vertical_isSome.1) (fun _ => id) (fun _ => vertical_isSome.2)

/-- Every instruction keeps the promise: each effect that sets a flag or moves the pointer writes what it then stands for. -/
theorem written_exec {i : Instr} {s t : State} (hI : s.Inv) (h : s.Written) (he : exec i s = .next t) : t.Written := by
  by_cases hi : i = .ctxLoad
  · subst hi
    rcases execCtxLoad_cases he with ⟨_, rfl⟩ | ⟨q, fe, rfl⟩
    · exact { h with }
    · exact written_loadContext q fe
  rcases exec_cases hi he with rfl | ⟨_, _, _, _, rfl⟩ | ⟨_, _, rfl⟩ | ⟨_, _, rfl⟩ | ⟨b, _, _, rfl⟩ | ⟨code, _, hr, _, rfl⟩ |
    ⟨_, _, rfl⟩ | ⟨_, effect⟩
  · exact h
  · exact { h with }
  · exact { h with }
  · exact written_esbCleared h
  · exact written_sampleWritten h b
  · exact written_completeTransform hI h code hr
  · exact { h with bout := fun hb => by cases hb }
  · exact RowEffect.written effect h

/-- Settles O48: the reset pin clears every flag, an instruction is `written_exec`, and neither a rejected word nor the host writes
a flag but FAULT, a buffer, the pointer or the context. -/
theorem stepKeepsWritten : Obligations.StepKeepsWritten := by
  intro s t hI h hs
  have htake : (takeWord s).Written := { h with }
  rcases step_cases hs with rfl | ⟨i, he⟩ | (rfl | ⟨n, b, _, _, rfl⟩) | hh
  · exact written_of_flags_clear rfl rfl rfl
  · exact written_exec (inv_takeWord hI) htake he
  · exact htake
  · exact { htake with }
  · rw [hostTouchesOnlyPorts s t hh]
    exact { h with }

/-! Nothing of one decode call reaches the next (R261, R263): the two runs side by side, command by command. -/

section
variable {s t : State}

/-- While no flag vouches for an element, states that differ in buffers only agree. -/
theorem agreesLive_of_flags_clear (h : SameRest s t) (hp : s.status.permValid = false) (ha : s.arrp = 0)
    (hb : s.status.boutValid = false) (he : s.status.esbValid = false) : s.AgreesLive t where
  rest := h
  perm := by simp [hp]
  arr := by simp [ha]
  bout := by simp [hb]
  pcol := by simp [he]
  prow := by simp [he]

/-- An answered CTX_LOAD reads no buffer. -/
theorem loadContext_sameRest (h : SameRest s t) (q : StreamFields) (fe : FrontEnd) :
    SameRest (loadContext q fe s) (loadContext q fe t) := by
  have latched : latchedContext t q = latchedContext s q := by
    rw [h]
    rfl
  unfold loadContext
  rw [h.cfg, latched]
  cases checkContext s.cfg (latchedContext s q) with
  | ok _ =>
    rw [h]
    rfl
  | error _ =>
    rw [h]
    rfl

theorem agreesLive_loadContext (h : s.AgreesLive t) (q : StreamFields) (fe : FrontEnd) :
    (loadContext q fe s).AgreesLive (loadContext q fe t) := by
  have hr := loadContext_sameRest h.rest q fe
  rcases loadContext_cases q fe s with ⟨_, _, e⟩ | ⟨_, _, _, _, e⟩ <;> rw [e] at hr ⊢ <;>
    exact agreesLive_of_flags_clear hr rfl rfl rfl rfl

/-- Every entry of the four segments is PERM_BUILD's own, whatever PERM held. -/
theorem buildPerm_read_below {g : Context} (hg : g.Geometry) {a : Nat} (ha : a < 4 * g.blockSamples) :
    ∃ v, ∀ m, Memory.read (buildPerm g m) a = some v := by
  have entry := fun m => (buildPerm_spec hg.area hg.samples m).1
  obtain ⟨-, hpos, -⟩ := hg.pos
  obtain ⟨p, k, hp, hk, rfl⟩ : ∃ p k, p < 4 ∧ k < g.blockSamples ∧ permAddr g p k = a :=
    ⟨a / g.blockSamples, a % g.blockSamples, Nat.div_lt_of_lt_mul (by rwa [Nat.mul_comm]), Nat.mod_lt _ hpos,
      Nat.div_add_mod' _ _⟩
  by_cases hplanar : p < 2
  · obtain ⟨c, y, x, hc, hy, hx, rfl⟩ := exists_planar hg.area hg.samples hk
    obtain rfl | rfl : p = 0 ∨ p = 1 := by omega
    · exact ⟨_, fun m => (entry m c y x hc hy hx).1⟩
    · exact ⟨_, fun m => (entry m c y x hc hy hx).2.1⟩
  · obtain ⟨c, y, x, hc, hy, hx, rfl⟩ := exists_pixel hg.area hg.samples hk
    obtain rfl | rfl : p = 2 ∨ p = 3 := by omega
    · exact ⟨_, fun m => (entry m c y x hc hy hx).2.2.1⟩
    · exact ⟨_, fun m => (entry m c y x hc hy hx).2.2.2⟩

theorem agreesLive_permBuilt (hI : s.Inv) (h : s.AgreesLive t) (hr : s.status.readyPermBuild = true) :
    (permBuilt s).AgreesLive (permBuilt t) :=
  { h with
    rest := by
      rw [h.rest]
      rfl
    perm := fun _ a ha => by
      obtain ⟨v, hv⟩ := buildPerm_read_below (hI.geometry hr) ha
      rw [permBuilt, permBuilt, SameRest.ctx h.rest]
      exact (hv _).trans (hv _).symm }

theorem agreesLive_esbCleared (h : s.AgreesLive t) : (esbCleared s).AgreesLive (esbCleared t) := by
  have hctx := SameRest.ctx h.rest
  exact { h with
    rest := by
      rw [h.rest]
      rfl
    pcol := fun _ a ha => (clearBytes_read (by rwa [hctx])).trans (clearBytes_read ha).symm
    prow := fun _ a ha => (clearBytes_read (by rwa [hctx])).trans (clearBytes_read ha).symm }

theorem agreesLive_sampleWritten (h : s.AgreesLive t) (b : Byte) : (sampleWritten b s).AgreesLive (sampleWritten b t) :=
  { h with
    rest := by
      rw [h.rest]
      rfl
    arr := fun a ha => by
      show Memory.read (Memory.write t.arr t.arrp b) a = Memory.read (Memory.write s.arr s.arrp b) a
      rw [SameRest.arrp h.rest, Memory.read_write, Memory.read_write]
      split
      · rfl
      next hne => exact h.arr a (Nat.lt_of_le_of_ne (Nat.le_of_lt_succ ha) hne) }

/-- BLK_XFORM completes two transforms that agree on the block: it vouches for all of BOUT and empties ARR. -/
theorem agreesLive_completeTransform (h : SameBlock s.ctx.blockSamples (s.ctx.heightBlocks * s.ctx.blockStride)
      (s.ctx.widthBlocks * s.ctx.blockStride) s t)
    (hp : s.status.permValid = true → ∀ a, a < 4 * s.ctx.blockSamples → Memory.read t.perm a = Memory.read s.perm a) :
    (completeTransform s).AgreesLive (completeTransform t) where
  rest := by
    rw [h.rest]
    rfl
  perm := hp
  arr := fun a ha => absurd ha (Nat.not_lt_zero a)
  bout := fun _ => h.bout
  pcol := fun _ => h.pcol
  prow := fun _ => h.prow

theorem agreesLive_blockTransformed (hI : s.Inv) (h : s.AgreesLive t) (code : Byte) (hr : s.ReadyToTransform) :
    (blockTransformed code s).AgreesLive (blockTransformed code t) := by
  unfold blockTransformed
  rw [SameRest.ctx h.rest]
  split
  next hl =>
    have block := transform_same hI hr ((legalCode_iff_legalColor _ _).mp hl) h
    exact agreesLive_completeTransform (by simpa using block) (by simpa using h.perm)
  next =>
    rw [takeFault_of_clear hr.clear, takeFault_of_clear ((congrArg Status.fault (SameRest.status h.rest)).trans hr.clear)]
    exact agreesLive_faulted h _ _

@[simp] theorem blockTransformed_canvas (code : Byte) (s : State) : (blockTransformed code s).canvas = s.canvas := by
  unfold blockTransformed
  split
  · exact transform_canvas code s
  · rcases takeFault_cases .illegalCode code s with ⟨_, e⟩ | ⟨_, e⟩ <;> rw [e]
    rfl

theorem agreesLive_advance_emitBlock (h : s.AgreesLive t) : (advance (emitBlock s)).AgreesLive (advance (emitBlock t)) :=
  { h with
    rest := by
      rw [h.rest]
      rfl
    bout := fun hb => by cases hb }

/-- A block that waits in BOUT has its place inside the grid. -/
theorem State.Inv.blkX_lt_of_boutValid (hI : s.Inv) (hb : s.status.boutValid = true) : s.blkX < s.ctx.widthBlocks := by
  have hdone : s.status.done = false := by
    cases hd : s.status.done
    · rfl
    · simp [hI.doneNoBlock hd] at hb
  exact (hI.counterInGrid hdone (hI.boutNeedsContext hb)).1

/-- BLK_EMIT puts the same bytes of BOUT on either canvas, and leaves every other byte of each. -/
theorem emitBlock_canvas_same (hI : s.Inv) (h : s.AgreesLive t) (hb : s.status.boutValid = true) (a : Nat) :
    Memory.read (emitBlock t).canvas a = Memory.read (emitBlock s).canvas a ∨
      (Memory.read (emitBlock s).canvas a = Memory.read s.canvas a ∧
        Memory.read (emitBlock t).canvas a = Memory.read t.canvas a) := by
  have hg := hI.geometry (hI.boutNeedsContext hb)
  have hx := hI.blkX_lt_of_boutValid hb
  have hctx := SameRest.ctx h.rest
  have hblkX := SameRest.blkX h.rest
  obtain ⟨sample, other⟩ := emitBlock_spec s hx
  obtain ⟨sample', other'⟩ := emitBlock_spec t (by rwa [hctx, hblkX])
  rw [hctx, hblkX, SameRest.blkY h.rest] at sample' other'
  by_cases inside : ∃ c y x, c < s.ctx.channels ∧ y < s.ctx.blockSize ∧ x < s.ctx.blockSize ∧
      emitAddr s.ctx s.blkX s.blkY c y x = a
  · obtain ⟨c, y, x, hc, hy, hx, rfl⟩ := inside
    have hlt : planarAddr s.ctx c y x < s.ctx.blockSamples := by
      rw [hg.samples, Nat.mul_comm]
      exact planarAddr_lt hg.area hc hy hx
    have byte : t.boutAt (planarAddr s.ctx c y x) = s.boutAt (planarAddr s.ctx c y x) := boutIn_same h.rest (h.bout hb) hlt
    exact .inl (by rw [sample c y x hc hy hx, sample' c y x hc hy hx, byte])
  · have outside : ∀ c y x, c < s.ctx.channels → y < s.ctx.blockSize → x < s.ctx.blockSize →
        emitAddr s.ctx s.blkX s.blkY c y x ≠ a := fun c y x hc hy hx e => inside ⟨c, y, x, hc, hy, hx, e⟩
    exact .inr ⟨other a outside, other' a outside⟩

end

/-- What a command may make of two states that agree but for stale elements: they agree so again, and each byte of the canvas is the
same in both or written in neither. -/
structure SameResult (s t s' t' : State) : Prop where
  agrees : s'.AgreesLive t'
  canvas : ∀ a, Memory.read t'.canvas a = Memory.read s'.canvas a ∨
    (Memory.read s'.canvas a = Memory.read s.canvas a ∧ Memory.read t'.canvas a = Memory.read t.canvas a)

theorem SameResult.of_canvas_kept {s t s' t' : State} (h : s'.AgreesLive t') (hs : s'.canvas = s.canvas)
    (ht : t'.canvas = t.canvas) : SameResult s t s' t' :=
  ⟨h, fun _ => .inr ⟨by rw [hs], by rw [ht]⟩⟩

/-- CTX_LOAD reads the front-end and the header port, which are the same in both states. -/
theorem execCtxLoad_sameResult {s t s' : State} (h : s.AgreesLive t) (hx : execCtxLoad s = .next s') :
    ∃ t', execCtxLoad t = .next t' ∧ SameResult s t s' t' := by
  have hfe : t.fe = s.fe := by rw [h.rest]
  obtain ⟨t', ht, agrees⟩ : ∃ t', execCtxLoad t = .next t' ∧ s'.AgreesLive t' := by
    unfold execCtxLoad at hx ⊢
    rw [hfe]
    generalize readFields s.fe = reads at hx ⊢
    obtain ⟨_ | q, fe⟩ := reads <;> cases hx
    · exact ⟨_, rfl, { h with
        rest := by
          rw [h.rest]
          rfl }⟩
    · exact ⟨_, rfl, agreesLive_loadContext h q fe⟩
  obtain ⟨-, -, -, -, -, hs⟩ := execCtxLoad_buffers hx
  obtain ⟨-, -, -, -, -, ht'⟩ := execCtxLoad_buffers ht
  exact ⟨t', ht, .of_canvas_kept agrees hs ht'⟩

/-- The gate of the other commands: it decides alike, and what it lets through is the command's own effect in either state. -/
theorem runCommand_sameResult {op : BitVec 4} {ready ready' : Bool} {e e' s t s' : State} (h : s.AgreesLive t)
    (hr : ready' = ready) (he : s.status.fault = false → ready = true → SameResult s t e e')
    (hx : runCommand op ready e s = .next s') : ∃ t', runCommand op ready' e' t = .next t' ∧ SameResult s t s' t' := by
  subst hr
  rcases runCommand_same (e' := e') (SameRest.status h.rest) hx with ⟨_, rfl, ht⟩ | ⟨hf, hr, rfl, ht⟩ | ⟨_, rfl, ht⟩
  · exact ⟨t, ht, .of_canvas_kept h rfl rfl⟩
  · exact ⟨e', ht, he hf hr⟩
  · exact ⟨_, ht, .of_canvas_kept (agreesLive_faulted h _ _) rfl rfl⟩

/-- Settles O50, command by command: BLK_EMIT alone writes the canvas, and what it writes is BOUT under BOUT_VALID. -/
theorem staleElementsReachNoResult : Obligations.StaleElementsReachNoResult := by
  intro s t s' i hI h hi hx
  have hst : t.status = s.status := SameRest.status h.rest
  suffices result : ∃ t', exec i t = .next t' ∧ SameResult s t s' t' by
    obtain ⟨t', ht, agrees, canvas⟩ := result
    exact ⟨t', ht, agrees, canvas⟩
  rcases hi with rfl | rfl | rfl | ⟨b, rfl⟩ | ⟨code, rfl⟩ | rfl
  · exact execCtxLoad_sameResult h hx
  · exact runCommand_sameResult h (congrArg Status.readyPermBuild hst)
      (fun _ hr => .of_canvas_kept (agreesLive_permBuilt hI h hr) rfl rfl) hx
  · exact runCommand_sameResult h (congrArg Status.readyEsbClear hst)
      (fun _ _ => .of_canvas_kept (agreesLive_esbCleared h) rfl rfl) hx
  · exact runCommand_sameResult h (congrArg Status.readyArrWrite hst)
      (fun _ _ => .of_canvas_kept (agreesLive_sampleWritten h b) rfl rfl) hx
  · exact runCommand_sameResult h (congrArg Status.readyBlkXform hst)
      (fun hf hr => .of_canvas_kept (agreesLive_blockTransformed hI h code ((readyBlkXform_iff hf).mp hr))
        (blockTransformed_canvas _ _) (blockTransformed_canvas _ _)) hx
  · exact runCommand_sameResult h (congrArg Status.readyBlkEmit hst)
      (fun _ hb => ⟨agreesLive_advance_emitBlock h, emitBlock_canvas_same hI h hb⟩) hx

end Sys2Proof.Machine
end
